-- ==== Sys2Proof/Word.lean ====
section
/-! DEFINITION. The widths the spec fixes (00_scope.md R7): bytes, 16-bit values and the 32-bit command word and RESULT. -/

namespace Sys2Proof

/-- A frame byte, LEN, STATUS, and the OP and A fields of a command (R7, R40). -/
abbrev Byte := BitVec 8

/-- The CRC, a PWM field, half of the uptime, and the D field of a command (R7, R40). -/
abbrev Half := BitVec 16

/-- A command word and RESULT (R7). -/
abbrev Word := BitVec 32

end Sys2Proof
end

