-- ==== Sys2Proof/Config.lean ====
section
/-! DEFINITION. The parameter record of the block (00_scope.md R6) and its default column. -/

namespace Sys2Proof

/-- CRC_ORDER: which byte of the stored CRC stands at the lower frame index (R6, R52). -/
inductive CrcOrder where
  | le
  | be
deriving DecidableEq, Repr

/-- MAP_ROUNDING: how both angle/PWM maps round (R6, R123, R124). -/
inductive MapRounding where
  | floor
  | nearest
deriving DecidableEq, Repr

/-- SATID_POLICY: whether a satellite-id mismatch fails a decode (R6, R107). -/
inductive SatIdPolicy where
  | ignore
  | reject
deriving DecidableEq, Repr

/-- FLAG_POLICY: what LEN_OK and CRC_OK hold after a failed decode (R6, R106). -/
inductive FlagPolicy where
  | clearBoth
  | perCheck
deriving DecidableEq, Repr

/-- The parameter record of R6, one field per row of its table. A value whose field width the spec fixes has that
width here, so that it fits by its type (R8); FRAME_LEN, ANG_MIN and ANG_MAX are checked (log entry 6), and WIRE_OFFSET and
PAYLOAD_LEN, which no file of the spec gives a width, have none here (log entry 18). -/
structure Params where
  frameLen : Nat
  payloadLen : Nat
  crcPoly : Half
  crcInit : Half
  crcXorout : Half
  crcOrder : CrcOrder
  hdrCmd : Byte
  hdrTlm : Byte
  satId : Byte
  angMin : Int
  angMax : Int
  wireOffset : Int
  xMinUs : Half
  xMaxUs : Half
  yMinUs : Half
  yMaxUs : Half
  mapRounding : MapRounding
  satIdPolicy : SatIdPolicy
  flagPolicy : FlagPolicy
  sentinel8 : Byte
  sentinel16 : Half
deriving DecidableEq, Repr

/-- The default column of R6. -/
def Config.defaultParams : Params where
  frameLen := 24
  payloadLen := 22
  crcPoly := 0x1021
  crcInit := 0x0000
  crcXorout := 0x0000
  crcOrder := .le
  hdrCmd := 0x37
  hdrTlm := 0x38
  satId := 0x25
  angMin := -40
  angMax := 40
  wireOffset := 40
  xMinUs := 1000
  xMaxUs := 2000
  yMinUs := 1100
  yMaxUs := 2100
  mapRounding := .floor
  satIdPolicy := .ignore
  flagPolicy := .clearBoth
  sentinel8 := 0xFF
  sentinel16 := 0xFFFF

end Sys2Proof
end

