-- ==== Sys2Proof/Syntax.lean ====
section
/-! DEFINITION. The 24 commands of the block (30_encoding.md R42, spec/opcode_table.json) with their operands (R41). -/

namespace Sys2Proof

/-- The axis operand of formats XH (R41): 0 is X, 1 is Y. -/
inductive Axis where
  | x
  | y
deriving DecidableEq, Repr

/-- The bank bit of a field selector (R41, R87): 0 is the command bank CF, 1 the telemetry bank TF. -/
inductive Bank where
  | cmd
  | tlm
deriving DecidableEq, Repr

/-- One constructor per row of spec/opcode_table.json. An operand is what its encoding field can hold; whether an
index, a selector or a value is in range is checked at execution (R41). -/
inductive Instr where
  | nop
  | crcInit
  | crcByte (b : Byte)
  | crcRead
  | crcFrame
  | fbClear
  | fbPush (b : Byte)
  | fbWrite (i : Byte) (b : Byte)
  | fbRead (i : Byte)
  | fbSetlen (b : Byte)
  | fbGetlen
  | fldWr (bank : Bank) (id : BitVec 4) (v : Half)
  | fldRd (bank : Bank) (id : BitVec 4)
  | statRd
  | statClr
  | encCmd
  | encTlm
  | decCmd
  | decTlm
  | tlmStat (n : BitVec 4)
  | a2w (v : Half)
  | w2a (b : Byte)
  | a2p (axis : Axis) (v : Half)
  | p2a (axis : Axis) (v : Half)
deriving DecidableEq, Repr

end Sys2Proof
end

