-- ==== Sys2Proof/WellFormed.lean ====
section
/-! DEFINITION. Which commands have legal operands (60_exceptions.md R142; the operand checks of 41_buffer.md R84 to
R89). Written from the range columns of R28, R30 and R87, apart from the meanings, which check for themselves. -/

namespace Sys2Proof

/-- R87: CF ids 0 to 10 (10 is NOCHG) and TF ids 0 to 12 name a field. -/
def selectorValid : Bank → BitVec 4 → Bool
  | .cmd, id => decide (id.toNat ≤ 10)
  | .tlm, id => decide (id.toNat ≤ 12)

/-- R28: CF id 10 is NOCHG, which is read-only. -/
def selectorReadOnly : Bank → BitVec 4 → Bool
  | .cmd, id => decide (id.toNat = 10)
  | .tlm, _ => false

/-- The fields that are 16 bits wide by R28 (C_PWMX, C_PWMY) and R30 (T_UPLO, T_UPHI, T_PWMX, T_PWMY). -/
def selectorWide : Bank → BitVec 4 → Bool
  | .cmd, id => decide (id.toNat ∈ [6, 7])
  | .tlm, id => decide (id.toNat ∈ [2, 3, 7, 8])

/-- A command whose operands R142 does not make illegal under the parameter record `P`. Its must-be-zero bits, its
opcode and its axis are legal by its type. -/
def Instr.wf (P : Params) : Instr → Bool
  | .nop | .crcInit | .crcByte _ | .crcRead | .crcFrame => true
  | .fbClear | .fbPush _ | .fbSetlen _ | .fbGetlen => true
  | .fbWrite i _ | .fbRead i => decide (i.toNat < P.frameLen)
  | .fldWr bank id v =>
      selectorValid bank id && !selectorReadOnly bank id && (selectorWide bank id || decide (v.toNat < 2 ^ 8))
  | .fldRd bank id => selectorValid bank id
  | .statRd | .statClr | .encCmd | .encTlm | .decCmd | .decTlm | .tlmStat _ => true
  | .a2w _ | .w2a _ | .a2p _ _ | .p2a _ _ => true

end Sys2Proof
end

