-- ==== Sys2Proof/Decode.lean ====
section
/-! DEFINITION. The decoder and the encoder of command words, from the tables of 30_encoding.md R40 to R44, and the
rows of spec/opcode_table.json. -/

namespace Sys2Proof

/-- Why a word is no command (R43, R44, R87, R127): every one of these is an illegal command (R142). -/
inductive IllegalWord where
  /-- An opcode outside the map of R42 (R44). -/
  | unassignedOpcode
  /-- A must-be-zero bit of the opcode's format is 1 (R43). -/
  | mustBeZero
  /-- FLD_WR or FLD_RD with A[6:4] not 0 (R87). -/
  | badSelector
  /-- A2P or P2A with A[7:1] not 0 (R127, R128). -/
  | badAxis
deriving DecidableEq, Repr

/-- What the decoder answers for a word. -/
inductive Decoded where
  | command (i : Instr)
  | illegal (why : IllegalWord)
deriving DecidableEq, Repr

/-- `cmd.OP = cmd[31:24]` (R10, R40). -/
def opField (w : Word) : Byte := w.extractLsb' 24 8

/-- `cmd.A = cmd[23:16]` (R10, R40). -/
def aField (w : Word) : Byte := w.extractLsb' 16 8

/-- `cmd.D = cmd[15:0]` (R10, R40). -/
def dField (w : Word) : Half := w.extractLsb' 0 16

/-- Format Z (R41): A and D are 0. -/
def formatZ (a : Byte) (d : Half) (i : Instr) : Decoded :=
  if a = 0 ∧ d = 0 then .command i else .illegal .mustBeZero

/-- Format B (R41): A = 0, D[15:8] = 0, D[7:0] = b. -/
def formatB (a : Byte) (d : Half) (i : Byte → Instr) : Decoded :=
  if a = 0 ∧ d.extractLsb' 8 8 = 0 then .command (i (d.extractLsb' 0 8)) else .illegal .mustBeZero

/-- Format H (R41): A = 0, D = v. -/
def formatH (a : Byte) (d : Half) (i : Half → Instr) : Decoded :=
  if a = 0 then .command (i d) else .illegal .mustBeZero

/-- Format IB (R41): A = i, D[15:8] = 0, D[7:0] = b. -/
def formatIB (a : Byte) (d : Half) (i : Byte → Byte → Instr) : Decoded :=
  if d.extractLsb' 8 8 = 0 then .command (i a (d.extractLsb' 0 8)) else .illegal .mustBeZero

/-- Format IZ (R41): A = i, D = 0. -/
def formatIZ (a : Byte) (d : Half) (i : Byte → Instr) : Decoded :=
  if d = 0 then .command (i a) else .illegal .mustBeZero

/-- The bank named by A[7] (R41). -/
def bankOf (a : Byte) : Bank := if a.getLsbD 7 then .tlm else .cmd

/-- Format FH (R41): A[7] = bank, A[6:4] = 0, A[3:0] = id, D = v. -/
def formatFH (a : Byte) (d : Half) (i : Bank → BitVec 4 → Half → Instr) : Decoded :=
  if a.extractLsb' 4 3 = 0 then .command (i (bankOf a) (a.extractLsb' 0 4) d) else .illegal .badSelector

/-- Format FZ (R41): A[7] = bank, A[6:4] = 0, A[3:0] = id, D = 0. -/
def formatFZ (a : Byte) (d : Half) (i : Bank → BitVec 4 → Instr) : Decoded :=
  if a.extractLsb' 4 3 = 0 then
    if d = 0 then .command (i (bankOf a) (a.extractLsb' 0 4)) else .illegal .mustBeZero
  else .illegal .badSelector

/-- Format XH (R41): A[7:1] = 0, A[0] = axis, D = v. -/
def formatXH (a : Byte) (d : Half) (i : Axis → Half → Instr) : Decoded :=
  if a.extractLsb' 1 7 = 0 then .command (i (if a.getLsbD 0 then .y else .x) d) else .illegal .badAxis

/-- Format N4 (R41): A = 0, D[15:4] = 0, D[3:0] = n. -/
def formatN4 (a : Byte) (d : Half) (i : BitVec 4 → Instr) : Decoded :=
  if a = 0 ∧ d.extractLsb' 4 12 = 0 then .command (i (d.extractLsb' 0 4)) else .illegal .mustBeZero

/-- The opcode map of R42, by OP alone; the format then says how A and D are read. -/
def decodeFields (op a : Byte) (d : Half) : Decoded :=
  match op with
  | 0x00#8 => formatZ a d .nop
  | 0x01#8 => formatZ a d .crcInit
  | 0x02#8 => formatB a d .crcByte
  | 0x03#8 => formatZ a d .crcRead
  | 0x04#8 => formatZ a d .crcFrame
  | 0x10#8 => formatZ a d .fbClear
  | 0x11#8 => formatB a d .fbPush
  | 0x12#8 => formatIB a d .fbWrite
  | 0x13#8 => formatIZ a d .fbRead
  | 0x14#8 => formatB a d .fbSetlen
  | 0x15#8 => formatZ a d .fbGetlen
  | 0x18#8 => formatFH a d .fldWr
  | 0x19#8 => formatFZ a d .fldRd
  | 0x1A#8 => formatZ a d .statRd
  | 0x1B#8 => formatZ a d .statClr
  | 0x20#8 => formatZ a d .encCmd
  | 0x21#8 => formatZ a d .encTlm
  | 0x22#8 => formatZ a d .decCmd
  | 0x23#8 => formatZ a d .decTlm
  | 0x24#8 => formatN4 a d .tlmStat
  | 0x30#8 => formatH a d .a2w
  | 0x31#8 => formatB a d .w2a
  | 0x32#8 => formatXH a d .a2p
  | 0x33#8 => formatXH a d .p2a
  | _ => .illegal .unassignedOpcode

/-- The decoder, total on all 2^32 words (R42): each is one of the 24 commands or illegal. -/
def decode (w : Word) : Decoded := decodeFields (opField w) (aField w) (dField w)

/-- The OP column of R42. -/
def Instr.op : Instr → Byte
  | .nop => 0x00
  | .crcInit => 0x01
  | .crcByte _ => 0x02
  | .crcRead => 0x03
  | .crcFrame => 0x04
  | .fbClear => 0x10
  | .fbPush _ => 0x11
  | .fbWrite _ _ => 0x12
  | .fbRead _ => 0x13
  | .fbSetlen _ => 0x14
  | .fbGetlen => 0x15
  | .fldWr _ _ _ => 0x18
  | .fldRd _ _ => 0x19
  | .statRd => 0x1A
  | .statClr => 0x1B
  | .encCmd => 0x20
  | .encTlm => 0x21
  | .decCmd => 0x22
  | .decTlm => 0x23
  | .tlmStat _ => 0x24
  | .a2w _ => 0x30
  | .w2a _ => 0x31
  | .a2p _ _ => 0x32
  | .p2a _ _ => 0x33

/-- The A byte of a field selector: {bank, 000, id} (R41). -/
def selectorByte (bank : Bank) (id : BitVec 4) : Byte :=
  (match bank with | .cmd => 0#1 | .tlm => 1#1) ++ 0#3 ++ id

/-- The A byte of an axis operand (R41). -/
def axisByte : Axis → Byte
  | .x => 0
  | .y => 1

/-- The A field of a command (R41). -/
def Instr.a : Instr → Byte
  | .fbWrite i _ | .fbRead i => i
  | .fldWr bank id _ | .fldRd bank id => selectorByte bank id
  | .a2p axis _ | .p2a axis _ => axisByte axis
  | .nop | .crcInit | .crcByte _ | .crcRead | .crcFrame | .fbClear | .fbPush _ | .fbSetlen _ | .fbGetlen => 0
  | .statRd | .statClr | .encCmd | .encTlm | .decCmd | .decTlm | .tlmStat _ | .a2w _ | .w2a _ => 0

/-- The D field of a command (R41). -/
def Instr.d : Instr → Half
  | .crcByte b | .fbPush b | .fbWrite _ b | .fbSetlen b | .w2a b => 0#8 ++ b
  | .fldWr _ _ v | .a2w v | .a2p _ v | .p2a _ v => v
  | .tlmStat n => 0#12 ++ n
  | .nop | .crcInit | .crcRead | .crcFrame | .fbClear | .fbRead _ | .fbGetlen | .fldRd _ _ => 0
  | .statRd | .statClr | .encCmd | .encTlm | .decCmd | .decTlm => 0

/-- {OP, A, D} (R40). -/
def wordOf (op a : Byte) (d : Half) : Word := op ++ a ++ d

/-- The word of a command (R40 to R42). -/
def encode (i : Instr) : Word := wordOf i.op i.a i.d

/-- One row of spec/opcode_table.json: its mnemonic, its match and its mask. -/
structure OpcodeRow where
  mnemonic : String
  pattern : Word
  mask : Word
deriving DecidableEq, Repr

/-- The row of spec/opcode_table.json that a command belongs to. -/
def Instr.row : Instr → OpcodeRow
  | .nop => ⟨"NOP", 0x00000000, 0xFFFFFFFF⟩
  | .crcInit => ⟨"CRC_INIT", 0x01000000, 0xFFFFFFFF⟩
  | .crcByte _ => ⟨"CRC_BYTE", 0x02000000, 0xFFFFFF00⟩
  | .crcRead => ⟨"CRC_READ", 0x03000000, 0xFFFFFFFF⟩
  | .crcFrame => ⟨"CRC_FRAME", 0x04000000, 0xFFFFFFFF⟩
  | .fbClear => ⟨"FB_CLEAR", 0x10000000, 0xFFFFFFFF⟩
  | .fbPush _ => ⟨"FB_PUSH", 0x11000000, 0xFFFFFF00⟩
  | .fbWrite _ _ => ⟨"FB_WRITE", 0x12000000, 0xFF00FF00⟩
  | .fbRead _ => ⟨"FB_READ", 0x13000000, 0xFF00FFFF⟩
  | .fbSetlen _ => ⟨"FB_SETLEN", 0x14000000, 0xFFFFFF00⟩
  | .fbGetlen => ⟨"FB_GETLEN", 0x15000000, 0xFFFFFFFF⟩
  | .fldWr _ _ _ => ⟨"FLD_WR", 0x18000000, 0xFF700000⟩
  | .fldRd _ _ => ⟨"FLD_RD", 0x19000000, 0xFF70FFFF⟩
  | .statRd => ⟨"STAT_RD", 0x1A000000, 0xFFFFFFFF⟩
  | .statClr => ⟨"STAT_CLR", 0x1B000000, 0xFFFFFFFF⟩
  | .encCmd => ⟨"ENC_CMD", 0x20000000, 0xFFFFFFFF⟩
  | .encTlm => ⟨"ENC_TLM", 0x21000000, 0xFFFFFFFF⟩
  | .decCmd => ⟨"DEC_CMD", 0x22000000, 0xFFFFFFFF⟩
  | .decTlm => ⟨"DEC_TLM", 0x23000000, 0xFFFFFFFF⟩
  | .tlmStat _ => ⟨"TLM_STAT", 0x24000000, 0xFFFFFFF0⟩
  | .a2w _ => ⟨"A2W", 0x30000000, 0xFFFF0000⟩
  | .w2a _ => ⟨"W2A", 0x31000000, 0xFFFFFF00⟩
  | .a2p _ _ => ⟨"A2P", 0x32000000, 0xFFFE0000⟩
  | .p2a _ _ => ⟨"P2A", 0x33000000, 0xFFFE0000⟩

/-- The rows of spec/opcode_table.json in the table's order. -/
def opcodeTable : List OpcodeRow :=
  ([.nop, .crcInit, .crcByte 0, .crcRead, .crcFrame, .fbClear, .fbPush 0, .fbWrite 0 0, .fbRead 0, .fbSetlen 0,
    .fbGetlen, .fldWr .cmd 0 0, .fldRd .cmd 0, .statRd, .statClr, .encCmd, .encTlm, .decCmd, .decTlm, .tlmStat 0,
    .a2w 0, .w2a 0, .a2p .x 0, .p2a .x 0] : List Instr).map Instr.row

/-- A word matches a row when it agrees with the row's match under the row's mask. -/
def OpcodeRow.matches (r : OpcodeRow) (w : Word) : Bool := w &&& r.mask == r.pattern

/-- The command read from a table row's word: bit 0 is the least significant, the bits from `nbits` up are 0. -/
def decodeTableWord (nbits w : Nat) : Option Instr :=
  match decode (BitVec.ofNat 32 (w % 2 ^ nbits)) with
  | .command i => some i
  | .illegal _ => none

end Sys2Proof
end

