-- ==== Sys2Proof/Machine/State.lean ====
section
/-! DEFINITION. The state of the block (10_state.md R22 to R31), the two inputs the model carries beside it, the reasons
a step can stop, and the state after reset. -/

namespace Sys2Proof.Machine

/-- The frame buffer as a list of (index, byte), indices strictly rising, no byte equal to 0x00, which is what an
unlisted index reads as: the reset contents of FB (R23, R160; log entry 7). -/
abbrev Memory := List Host.Cell

/-- The command field bank CF, ids 0 to 9 (R28), raw wire values. -/
structure CmdBank where
  pkt : Byte
  script : Byte
  step : Byte
  tlmp : Byte
  servo : Byte
  laser : Byte
  pwmx : Half
  pwmy : Half
  angx : Byte
  angy : Byte
deriving DecidableEq, Repr

/-- The telemetry field bank TF, ids 0 to 12 (R30), raw wire values. -/
structure TlmBank where
  pkt : Byte
  lastcmd : Byte
  uplo : Half
  uphi : Half
  smask : Byte
  mode : Byte
  step : Byte
  pwmx : Half
  pwmy : Half
  angx : Byte
  angy : Byte
  laser : Byte
  servo : Byte
deriving DecidableEq, Repr

/-- What the input ports carry at one step (R21): `rst`, `cmd_valid` and `cmd`. -/
structure PortSample where
  rst : Bool
  cmdValid : Bool
  cmd : Word
deriving DecidableEq, Repr

/-- The state of R22 (`fb` to `tf`), and two inputs that R22 says are not state and that the step reads: the parameter
record (log entry 1) and the port samples still to come, next one first (log entry 2). -/
structure State where
  params : Params
  fb : Memory
  len : Byte
  crc : Half
  result : Word
  status : Byte
  cf : CmdBank
  tf : TlmBank
  inputs : List PortSample
deriving DecidableEq, Repr

/-- The outcome of a decode, held in STATUS.ERR (R27, R141). -/
inductive DecodeErr where
  | none
  | length
  | header
  | crc
deriving DecidableEq, Repr

/-- What the frame check of R103 answers: (err, len_match, crc_match, sat_match, c). -/
structure FrameCheck where
  err : DecodeErr
  lenMatch : Bool
  crcMatch : Bool
  satMatch : Bool
  c : Half
deriving DecidableEq, Repr

/-- A field register of CF by its name in R28 (ids 0 to 9). -/
inductive CmdField where
  | pkt | script | step | tlmp | servo | laser | pwmx | pwmy | angx | angy
deriving DecidableEq, Repr

/-- A field register of TF by its name in R30 (ids 0 to 12). -/
inductive TlmField where
  | pkt | lastcmd | uplo | uphi | smask | mode | step | pwmx | pwmy | angx | angy | laser | servo
deriving DecidableEq, Repr

/-- What a valid field selector names (R87): a register of CF, the computed value NOCHG, or a register of TF. -/
inductive Field where
  | cmd (k : CmdField)
  | nochg
  | tlm (k : TlmField)
deriving DecidableEq, Repr

/-- No fault exists: the block has no traps, and every illegal command and decode failure has a next state (R140,
R142, R144). So the type has no constructor. -/
inductive Fault
deriving DecidableEq, Repr

/-- Why a step answers nothing. -/
inductive Refusal where
  /-- Raised by exec for an instruction that has no meaning yet. Safe. No arm raises it. -/
  | notModelled (mnemonic : String)
  /-- Raised by step when the parameter record breaks a constraint of R8, which a model must reject. Safe. -/
  | parametersRejected
deriving DecidableEq, Repr

/-- CF right after reset (R22, R160). -/
def CmdBank.zero : CmdBank := ⟨0, 0, 0, 0, 0, 0, 0, 0, 0, 0⟩

/-- TF right after reset (R22, R160). -/
def TlmBank.zero : TlmBank := ⟨0, 0, 0, 0, 0, 0, 0, 0, 0, 0, 0, 0, 0⟩

/-- The reset state of R22 and R160 under the default record of R6, with no port sample pending (log entries 1 to 3). -/
def State.reset : State where
  params := Config.defaultParams
  fb := []
  len := 0x00
  crc := Config.defaultParams.crcInit
  result := 0x00000000
  status := 0x00
  cf := CmdBank.zero
  tf := TlmBank.zero
  inputs := []

end Sys2Proof.Machine
end

