-- ==== Sys2Proof/Machine/Flags.lean ====
section
/-! DEFINITION. The fields of STATUS (10_state.md R27) and how commands write them (R91, R104 to R106, R142). -/

namespace Sys2Proof.Machine

/-- The code of a decode outcome in STATUS.ERR (R27, R141). -/
def DecodeErr.code : DecodeErr → BitVec 2
  | .none => 0
  | .length => 1
  | .header => 2
  | .crc => 3

/-- STATUS.ERR, bits 1:0 (R27). -/
def statusErr (st : Byte) : BitVec 2 := st.extractLsb' 0 2

/-- STATUS.LEN_OK, bit 2 (R27). -/
def statusLenOk (st : Byte) : Bool := st.getLsbD 2

/-- STATUS.CRC_OK, bit 3 (R27). -/
def statusCrcOk (st : Byte) : Bool := st.getLsbD 3

/-- STATUS.SAT_MATCH, bit 4 (R27). -/
def statusSatMatch (st : Byte) : Bool := st.getLsbD 4

/-- STATUS.DVALID, bit 5 (R27). -/
def statusDvalid (st : Byte) : Bool := st.getLsbD 5

/-- STATUS.ILL, bit 6 (R27). -/
def statusIll (st : Byte) : Bool := st.getLsbD 6

/-- STATUS bit 7, reserved, reads 0 (R27). -/
def statusReserved (st : Byte) : Bool := st.getLsbD 7

/-- `STATUS.ILL <- 1` (R142). -/
def statusSetIll (st : Byte) : Byte := st ||| 0x40

/-- `STATUS.ILL <- 0` (R91). -/
def statusClearIll (st : Byte) : Byte := st &&& 0xBF

/-- The STATUS a decode leaves: ERR, LEN_OK, CRC_OK, SAT_MATCH and DVALID written, bits 7:6 kept (R104, R105). -/
def statusDecoded (st : Byte) (err : DecodeErr) (lenOk crcOk satMatch dvalid : Bool) : Byte :=
  st.extractLsb' 6 2 ++ BitVec.ofBool dvalid ++ BitVec.ofBool satMatch ++ BitVec.ofBool crcOk ++ BitVec.ofBool lenOk
    ++ err.code

/-- `flags(err, len_match, crc_match) : (LEN_OK, CRC_OK)` by FLAG_POLICY (R106). -/
def decodeFlags (policy : FlagPolicy) (err : DecodeErr) (lenMatch crcMatch : Bool) : Bool × Bool :=
  match policy with
  | .clearBoth => (err == .none, err == .none)
  | .perCheck => (lenMatch, lenMatch && crcMatch)

/-- The first failing check in the order length, header (with the satellite id under `reject`), CRC (R103, R143). -/
def decodeErr (policy : SatIdPolicy) (lenMatch hdrMatch satMatch crcMatch : Bool) : DecodeErr :=
  if !lenMatch then .length
  else if !hdrMatch then .header
  else if policy == .reject && !satMatch then .header
  else if !crcMatch then .crc
  else .none

/-- The StatusMask byte of R53 and R109: {0b00, CRC_OK, LEN_OK, n[3], n[2], n[1], n[0]}. -/
def statusMask (n : BitVec 4) (st : Byte) : Byte :=
  0#2 ++ BitVec.ofBool (statusCrcOk st) ++ BitVec.ofBool (statusLenOk st) ++ n

end Sys2Proof.Machine
end

