-- ==== Sys2Proof/Machine/Operands.lean ====
section
/-! DEFINITION. How operands are read: signed and unsigned values (00_scope.md R9), field selectors and field registers
(10_state.md R28 to R30, 41_buffer.md R87 to R89), the two extensions into RESULT (R26). -/

namespace Sys2Proof.Machine

/-- `s16(v)`: a 16-bit value as a two's-complement integer (R9). -/
def s16 (v : Half) : Int := v.toInt

/-- `u16(v)`: a 16-bit value as an unsigned integer (R9). -/
def u16 (v : Half) : Int := v.toNat

/-- `u8(b)`: a byte as an unsigned integer (R9). -/
def u8 (b : Byte) : Int := b.toNat

/-- `s8(b)`: a byte as a two's-complement integer (R9). -/
def s8 (b : Byte) : Int := b.toInt

/-- `clamp(v, lo, hi)` (R9). -/
def clamp (v lo hi : Int) : Int := if v < lo then lo else if v > hi then hi else v

/-- `zext_32(v)` (R9, R26). -/
def zext32 {n : Nat} (v : BitVec n) : Word := v.setWidth 32

/-- `sext_32(a)` of an integer angle: its 32-bit two's-complement value (R9, R26, R126). -/
def sext32 (a : Int) : Word := BitVec.ofInt 32 a

/-- The field a selector names, or none where R87 makes it invalid. -/
def selectField : Bank → BitVec 4 → Option Field
  | .cmd, id =>
    match id.toNat with
    | 0 => some (.cmd .pkt)
    | 1 => some (.cmd .script)
    | 2 => some (.cmd .step)
    | 3 => some (.cmd .tlmp)
    | 4 => some (.cmd .servo)
    | 5 => some (.cmd .laser)
    | 6 => some (.cmd .pwmx)
    | 7 => some (.cmd .pwmy)
    | 8 => some (.cmd .angx)
    | 9 => some (.cmd .angy)
    | 10 => some .nochg
    | _ => none
  | .tlm, id =>
    match id.toNat with
    | 0 => some (.tlm .pkt)
    | 1 => some (.tlm .lastcmd)
    | 2 => some (.tlm .uplo)
    | 3 => some (.tlm .uphi)
    | 4 => some (.tlm .smask)
    | 5 => some (.tlm .mode)
    | 6 => some (.tlm .step)
    | 7 => some (.tlm .pwmx)
    | 8 => some (.tlm .pwmy)
    | 9 => some (.tlm .angx)
    | 10 => some (.tlm .angy)
    | 11 => some (.tlm .laser)
    | 12 => some (.tlm .servo)
    | _ => none

/-- The width column of R28 and R30. -/
def Field.width : Field → Nat
  | .cmd .pwmx | .cmd .pwmy => 16
  | .cmd .pkt | .cmd .script | .cmd .step | .cmd .tlmp | .cmd .servo | .cmd .laser | .cmd .angx | .cmd .angy => 8
  | .nochg => 9
  | .tlm .uplo | .tlm .uphi | .tlm .pwmx | .tlm .pwmy => 16
  | .tlm .pkt | .tlm .lastcmd | .tlm .smask | .tlm .mode | .tlm .step | .tlm .angx | .tlm .angy | .tlm .laser
  | .tlm .servo => 8

/-- `CF[k]`, zero-extended to 16 bits (R10, R28). -/
def CmdBank.read (cf : CmdBank) : CmdField → Half
  | .pkt => cf.pkt.setWidth 16
  | .script => cf.script.setWidth 16
  | .step => cf.step.setWidth 16
  | .tlmp => cf.tlmp.setWidth 16
  | .servo => cf.servo.setWidth 16
  | .laser => cf.laser.setWidth 16
  | .pwmx => cf.pwmx
  | .pwmy => cf.pwmy
  | .angx => cf.angx.setWidth 16
  | .angy => cf.angy.setWidth 16

/-- `CF[k] <- v` (R10, R28): the low bits of `v` that the field holds. -/
def CmdBank.write (cf : CmdBank) (k : CmdField) (v : Half) : CmdBank :=
  match k with
  | .pkt => { cf with pkt := v.setWidth 8 }
  | .script => { cf with script := v.setWidth 8 }
  | .step => { cf with step := v.setWidth 8 }
  | .tlmp => { cf with tlmp := v.setWidth 8 }
  | .servo => { cf with servo := v.setWidth 8 }
  | .laser => { cf with laser := v.setWidth 8 }
  | .pwmx => { cf with pwmx := v }
  | .pwmy => { cf with pwmy := v }
  | .angx => { cf with angx := v.setWidth 8 }
  | .angy => { cf with angy := v.setWidth 8 }

/-- `TF[k]`, zero-extended to 16 bits (R10, R30). -/
def TlmBank.read (tf : TlmBank) : TlmField → Half
  | .pkt => tf.pkt.setWidth 16
  | .lastcmd => tf.lastcmd.setWidth 16
  | .uplo => tf.uplo
  | .uphi => tf.uphi
  | .smask => tf.smask.setWidth 16
  | .mode => tf.mode.setWidth 16
  | .step => tf.step.setWidth 16
  | .pwmx => tf.pwmx
  | .pwmy => tf.pwmy
  | .angx => tf.angx.setWidth 16
  | .angy => tf.angy.setWidth 16
  | .laser => tf.laser.setWidth 16
  | .servo => tf.servo.setWidth 16

/-- `TF[k] <- v` (R10, R30): the low bits of `v` that the field holds. -/
def TlmBank.write (tf : TlmBank) (k : TlmField) (v : Half) : TlmBank :=
  match k with
  | .pkt => { tf with pkt := v.setWidth 8 }
  | .lastcmd => { tf with lastcmd := v.setWidth 8 }
  | .uplo => { tf with uplo := v }
  | .uphi => { tf with uphi := v }
  | .smask => { tf with smask := v.setWidth 8 }
  | .mode => { tf with mode := v.setWidth 8 }
  | .step => { tf with step := v.setWidth 8 }
  | .pwmx => { tf with pwmx := v }
  | .pwmy => { tf with pwmy := v }
  | .angx => { tf with angx := v.setWidth 8 }
  | .angy => { tf with angy := v.setWidth 8 }
  | .laser => { tf with laser := v.setWidth 8 }
  | .servo => { tf with servo := v.setWidth 8 }

/-- NOCHG: bit k is 1 exactly when the k-th field of R29 equals its "no change" sentinel. R160 adds that NOCHG reads 0 after
reset; under a record with SENTINEL8 = 0x00 or SENTINEL16 = 0x0000, which R8 accepts, R29's formula gives 1 for the zeroed
fields, and the model follows the formula (log entry 20). -/
def noChange (P : Params) (cf : CmdBank) : BitVec 9 :=
  BitVec.ofBool (cf.angy == P.sentinel8) ++ BitVec.ofBool (cf.angx == P.sentinel8)
    ++ BitVec.ofBool (cf.pwmy == P.sentinel16) ++ BitVec.ofBool (cf.pwmx == P.sentinel16)
    ++ BitVec.ofBool (cf.laser == P.sentinel8) ++ BitVec.ofBool (cf.servo == P.sentinel8)
    ++ BitVec.ofBool (cf.tlmp == P.sentinel8) ++ BitVec.ofBool (cf.step == P.sentinel8)
    ++ BitVec.ofBool (cf.script == P.sentinel8)

/-- The value FLD_RD reads of a field (R89). -/
def readField (s : State) : Field → Half
  | .cmd k => s.cf.read k
  | .nochg => (noChange s.params s.cf).setWidth 16
  | .tlm k => s.tf.read k

/-- Whether FLD_WR may write `v` to a field (R88): not NOCHG, and no wider than the field. -/
def fieldAccepts (f : Field) (v : Half) : Bool :=
  match f with
  | .nochg => false
  | .cmd _ | .tlm _ => !(f.width == 8 && v.extractLsb' 8 8 != 0)

end Sys2Proof.Machine
end

