-- ==== Sys2Proof/Machine/Ops.lean ====
section
/-! DEFINITION. The operations every command is written over: the constraints of the parameter record, reads and writes
of the frame buffer and the registers (00_scope.md R10), the effect of an illegal command (R142) and reset (R160). -/

namespace Sys2Proof

/-- The constraints of R8. What has its width in `Params` fits by its type; FRAME_LEN must fit the 8-bit LEN and the
angle limits the 16-bit signed operand of A2W and A2P (log entry 6). DESIGN CHOICE: WIRE_OFFSET and PAYLOAD_LEN have no width
of their own and are held by their equations alone (log entry 18). -/
def Params.constraints (P : Params) : Bool :=
  decide (P.frameLen = P.payloadLen + 2) && decide (P.angMin < P.angMax) && decide (P.wireOffset = -P.angMin)
    && decide (P.xMinUs < P.xMaxUs) && decide (P.yMinUs < P.yMaxUs)
    && decide (0 ≤ P.angMax - P.angMin) && decide (P.angMax - P.angMin ≤ 255) && decide (P.hdrCmd ≠ P.hdrTlm)
    && decide (P.frameLen ≤ 255) && decide (-32768 ≤ P.angMin) && decide (P.angMax ≤ 32767)

end Sys2Proof

namespace Sys2Proof.Machine

/-- `FB[a]`: the byte at an index, 0x00 where none is listed (R10, R23). -/
def Memory.read : Memory → Nat → Byte
  | [], _ => 0
  | (k, b) :: rest, a => if a = k then b else Memory.read rest a

/-- `FB[a] <- b` in the canonical form: writing 0x00 removes the entry (R10, R23). -/
def Memory.write : Memory → Nat → Byte → Memory
  | [], a, b => if b = 0 then [] else [(a, b)]
  | (k, c) :: rest, a, b =>
    if a < k then (if b = 0 then (k, c) :: rest else (a, b) :: (k, c) :: rest)
    else if a = k then (if b = 0 then rest else (a, b) :: rest)
    else (k, c) :: Memory.write rest a b

/-- Writes a list of bytes at rising indices from `a` on. -/
def Memory.writeBytes (m : Memory) (a : Nat) : List Byte → Memory
  | [] => m
  | b :: bs => Memory.writeBytes (m.write a b) (a + 1) bs

/-- The `n` bytes from index `a` on. -/
def Memory.bytes (m : Memory) (a : Nat) : Nat → List Byte
  | 0 => []
  | n + 1 => m.read a :: Memory.bytes m (a + 1) n

/-- Indices strictly rising from `lo` on, and no byte equal to 0x00. -/
def Memory.wfFrom : Nat → Memory → Bool
  | _, [] => true
  | lo, (k, b) :: rest => decide (lo ≤ k) && decide (b ≠ 0) && Memory.wfFrom (k + 1) rest

/-- The canonical form of a frame buffer. -/
def Memory.wf (m : Memory) : Bool := Memory.wfFrom 0 m

/-- Every listed index is below `n`: the frame-buffer space of R34 for `n` = FRAME_LEN. -/
def Memory.below (n : Nat) (m : Memory) : Bool := m.all fun c => decide (c.1 < n)

/-- `FB <- m`. -/
def State.setFb (s : State) (m : Memory) : State := { s with fb := m }

/-- `LEN <- v` (R24). -/
def State.setLen (s : State) (v : Byte) : State := { s with len := v }

/-- `CRC <- v` (R25). -/
def State.setCrc (s : State) (v : Half) : State := { s with crc := v }

/-- `RESULT <- v` (R26). -/
def State.setResult (s : State) (v : Word) : State := { s with result := v }

/-- `STATUS <- v` (R27). -/
def State.setStatus (s : State) (v : Byte) : State := { s with status := v }

/-- `CF <- v` (R28). -/
def State.setCf (s : State) (v : CmdBank) : State := { s with cf := v }

/-- `TF <- v` (R30). -/
def State.setTf (s : State) (v : TlmBank) : State := { s with tf := v }

/-- The port samples still to come (R21, log entry 2). -/
def State.setInputs (s : State) (v : List PortSample) : State := { s with inputs := v }

/-- A command that completes in the state `s` (R20, R171). -/
def complete (s : State) : Host.Outcome State Fault Refusal := .next s

/-- `raise ILL`: an illegal command sets STATUS.ILL and changes nothing else (R10, R142). There is no entry to a
handler and no return (R144). -/
def raiseIll (s : State) : Host.Outcome State Fault Refusal := complete (s.setStatus (statusSetIll s.status))

/-- `if <illegal>: raise ILL`, else the command's effect (R143: legality is checked first). -/
def whenLegal (legal : Bool) (s effect : State) : Host.Outcome State Fault Refusal :=
  if legal then complete effect else raiseIll s

/-- `TF[k] <- v` or `CF[k] <- v` for a selected field (R88); NOCHG has no register to write. -/
def writeField (s : State) (f : Field) (v : Half) : State :=
  match f with
  | .cmd k => s.setCf (s.cf.write k v)
  | .nochg => s
  | .tlm k => s.setTf (s.tf.write k v)

/-- Reset (R160): every register to its reset value, the parameters kept (R161), the samples to come kept (log entry 12). -/
def resetBlock (s : State) : State where
  params := s.params
  fb := []
  len := 0x00
  crc := s.params.crcInit
  result := 0x00000000
  status := 0x00
  cf := CmdBank.zero
  tf := TlmBank.zero
  inputs := s.inputs

/-- The output port `rdata`: always RESULT (R21). -/
def rdata (s : State) : Word := s.result

/-- The output port `status`: always STATUS (R21). -/
def statusPort (s : State) : Byte := s.status

/-- The output port `cmd_ready`: between steps no command is running, so the block accepts one (R171, log entry 9). -/
def cmdReady (_ : State) : Bool := true

end Sys2Proof.Machine
end

