-- ==== Sys2Proof/Machine/Buffer.lean ====
section
/-! DEFINITION. NOP and the frame buffer, field and status commands (41_buffer.md R80 to R91). -/

namespace Sys2Proof.Machine

/-- NOP (R80). -/
def execNop (s : State) : Host.Outcome State Fault Refusal := complete s

/-- FB_CLEAR (R81). -/
def execFbClear (s : State) : Host.Outcome State Fault Refusal := complete ((s.setFb []).setLen 0)

/-- FB_SETLEN (R82). -/
def execFbSetlen (b : Byte) (s : State) : Host.Outcome State Fault Refusal := complete (s.setLen b)

/-- LEN after a push: `min(u8(LEN) + 1, 255)` (R83). Under a record with FRAME_LEN = 255, which R8 accepts, the saturated
count equals FRAME_LEN, so more than 255 bytes pass the length check: the model follows the formulas (log entry 21). -/
def pushedLen (len : Byte) : Byte := BitVec.ofNat 8 (min (len.toNat + 1) 255)

/-- FB after a push: the byte at index LEN where LEN is below FRAME_LEN, else dropped (R83). -/
def pushedFb (s : State) (b : Byte) : Memory :=
  if s.len.toNat < s.params.frameLen then s.fb.write s.len.toNat b else s.fb

/-- FB_PUSH (R83). -/
def execFbPush (b : Byte) (s : State) : Host.Outcome State Fault Refusal :=
  complete ((s.setFb (pushedFb s b)).setLen (pushedLen s.len))

/-- FB_WRITE (R84). -/
def execFbWrite (i b : Byte) (s : State) : Host.Outcome State Fault Refusal :=
  whenLegal (decide (i.toNat < s.params.frameLen)) s (s.setFb (s.fb.write i.toNat b))

/-- FB_READ (R85). -/
def execFbRead (i : Byte) (s : State) : Host.Outcome State Fault Refusal :=
  whenLegal (decide (i.toNat < s.params.frameLen)) s (s.setResult (zext32 (s.fb.read i.toNat)))

/-- FB_GETLEN (R86). -/
def execFbGetlen (s : State) : Host.Outcome State Fault Refusal := complete (s.setResult (zext32 s.len))

/-- FLD_WR (R88). -/
def execFldWr (bank : Bank) (id : BitVec 4) (v : Half) (s : State) : Host.Outcome State Fault Refusal :=
  match selectField bank id with
  | none => raiseIll s
  | some f => whenLegal (fieldAccepts f v) s (writeField s f v)

/-- FLD_RD (R89). -/
def execFldRd (bank : Bank) (id : BitVec 4) (s : State) : Host.Outcome State Fault Refusal :=
  match selectField bank id with
  | none => raiseIll s
  | some f => complete (s.setResult (zext32 (readField s f)))

/-- STAT_RD (R90). -/
def execStatRd (s : State) : Host.Outcome State Fault Refusal := complete (s.setResult (zext32 s.status))

/-- STAT_CLR (R91). -/
def execStatClr (s : State) : Host.Outcome State Fault Refusal := complete (s.setStatus (statusClearIll s.status))

end Sys2Proof.Machine
end

