-- ==== Sys2Proof/Machine/Crc.lean ====
section
/-! DEFINITION. The CRC function and the CRC commands (40_crc.md R70 to R76). -/

namespace Sys2Proof.Machine

/-- One shift of R70: `(c << 1) ^ CRC_POLY` when c[15] = 1, else `c << 1`, mod 2^16. -/
def crcShift (poly c : Half) : Half := if c.getLsbD 15 then (c <<< 1) ^^^ poly else c <<< 1

/-- `repeat n times` the shift of R70. -/
def crcShifts (poly : Half) : Nat → Half → Half
  | 0, c => c
  | n + 1, c => crcShifts poly n (crcShift poly c)

/-- `crc_step(c, b)` (R70). -/
def crcStep (P : Params) (c : Half) (b : Byte) : Half :=
  crcShifts P.crcPoly 8 (c ^^^ (b.setWidth 16 <<< 8))

/-- `crc_step` over the bytes of a list, first byte first (R71). -/
def crcFold (P : Params) (c : Half) (m : List Byte) : Half := m.foldl (crcStep P) c

/-- `crc16(m)` (R71). -/
def crc16 (P : Params) (m : List Byte) : Half := crcFold P P.crcInit m ^^^ P.crcXorout

/-- The frame CRC of a frame buffer: `crc16(FB[0..PAYLOAD_LEN-1])` (R71). -/
def frameCrc (P : Params) (m : Memory) : Half := crc16 P (m.bytes 0 P.payloadLen)

/-- CRC_INIT (R73). -/
def execCrcInit (s : State) : Host.Outcome State Fault Refusal := complete (s.setCrc s.params.crcInit)

/-- CRC_BYTE (R74). -/
def execCrcByte (b : Byte) (s : State) : Host.Outcome State Fault Refusal :=
  complete (s.setCrc (crcStep s.params s.crc b))

/-- CRC_READ (R75). -/
def execCrcRead (s : State) : Host.Outcome State Fault Refusal :=
  complete (s.setResult (zext32 (s.crc ^^^ s.params.crcXorout)))

/-- CRC_FRAME (R76). -/
def execCrcFrame (s : State) : Host.Outcome State Fault Refusal :=
  complete ((s.setCrc (frameCrc s.params s.fb)).setResult (zext32 (frameCrc s.params s.fb)))

end Sys2Proof.Machine
end

