-- ==== Sys2Proof/Machine/Codec.lean ====
section
/-! DEFINITION. The frame encoder and decoder and the StatusMask command (42_codec.md R100 to R109, layouts
30_encoding.md R50 to R53 and R57). -/

namespace Sys2Proof.Machine

/-- The low byte of a 16-bit value, which stands at the lower index of a little-endian field (R35). -/
def lowByte (v : Half) : Byte := v.extractLsb' 0 8

/-- The high byte of a 16-bit value (R35). -/
def highByte (v : Half) : Byte := v.extractLsb' 8 8

/-- The payload of `n` bytes: the named bytes as far as they fit, then reserved bytes 0x00 up to the payload length (R57,
R100; log entries 4 and 5 for a length other than 22). -/
def padPayload (n : Nat) (bs : List Byte) : List Byte := (bs ++ List.replicate (n - bs.length) 0).take n

/-- `packCmd(CF)` (R100, R50): the named bytes 0 to 13, then the reserved bytes. -/
def packCmd (P : Params) (cf : CmdBank) : List Byte :=
  padPayload P.payloadLen
    [P.hdrCmd, P.satId, cf.pkt, cf.script, cf.step, cf.tlmp, cf.servo, cf.laser,
     lowByte cf.pwmx, highByte cf.pwmx, lowByte cf.pwmy, highByte cf.pwmy, cf.angx, cf.angy]

/-- `packTlm(TF)` (R100, R51): the named bytes 0 to 18, then the reserved bytes. -/
def packTlm (P : Params) (tf : TlmBank) : List Byte :=
  padPayload P.payloadLen
    [P.hdrTlm, P.satId, tf.pkt, tf.lastcmd, lowByte tf.uplo, highByte tf.uplo, lowByte tf.uphi, highByte tf.uphi,
     tf.smask, tf.mode, tf.step, lowByte tf.pwmx, highByte tf.pwmx, lowByte tf.pwmy, highByte tf.pwmy,
     tf.angx, tf.angy, tf.laser, tf.servo]

/-- The byte that unpacking leaves for index `i` of a frame: `FB[i]` inside the payload; a byte that the payload does not
hold is not loaded and stays `old`, as it was in the bank (R33, R100, R108; log entry 5). -/
def payloadByte (P : Params) (m : Memory) (i : Nat) (old : Byte) : Byte := if i < P.payloadLen then m.read i else old

/-- A little-endian field of two frame bytes, the lower at index `i` (R35). -/
def payloadHalf (P : Params) (m : Memory) (i : Nat) (old : Half) : Half :=
  payloadByte P m (i + 1) (highByte old) ++ payloadByte P m i (lowByte old)

/-- `unpackCmd(FB)` (R100) over the bank as it was: it ignores bytes 0, 1, the reserved bytes and the CRC. -/
def unpackCmd (P : Params) (m : Memory) (old : CmdBank) : CmdBank where
  pkt := payloadByte P m 2 old.pkt
  script := payloadByte P m 3 old.script
  step := payloadByte P m 4 old.step
  tlmp := payloadByte P m 5 old.tlmp
  servo := payloadByte P m 6 old.servo
  laser := payloadByte P m 7 old.laser
  pwmx := payloadHalf P m 8 old.pwmx
  pwmy := payloadHalf P m 10 old.pwmy
  angx := payloadByte P m 12 old.angx
  angy := payloadByte P m 13 old.angy

/-- `unpackTlm(FB)` (R100) over the bank as it was. -/
def unpackTlm (P : Params) (m : Memory) (old : TlmBank) : TlmBank where
  pkt := payloadByte P m 2 old.pkt
  lastcmd := payloadByte P m 3 old.lastcmd
  uplo := payloadHalf P m 4 old.uplo
  uphi := payloadHalf P m 6 old.uphi
  smask := payloadByte P m 8 old.smask
  mode := payloadByte P m 9 old.mode
  step := payloadByte P m 10 old.step
  pwmx := payloadHalf P m 11 old.pwmx
  pwmy := payloadHalf P m 13 old.pwmy
  angx := payloadByte P m 15 old.angx
  angy := payloadByte P m 16 old.angy
  laser := payloadByte P m 17 old.laser
  servo := payloadByte P m 18 old.servo

/-- The two stored bytes of a CRC value, the lower index first, by CRC_ORDER (R52). -/
def crcBytes (P : Params) (c : Half) : List Byte :=
  match P.crcOrder with
  | .le => [lowByte c, highByte c]
  | .be => [highByte c, lowByte c]

/-- `crc_rx(FB)`: the stored CRC, in the two bytes after the payload (R23, R52). -/
def crcRx (P : Params) (m : Memory) : Half :=
  match P.crcOrder with
  | .le => m.read (P.payloadLen + 1) ++ m.read P.payloadLen
  | .be => m.read P.payloadLen ++ m.read (P.payloadLen + 1)

/-- FB after an encode: the payload, then its CRC (R101, R102). -/
def frameOf (P : Params) (p : List Byte) (m : Memory) : Memory :=
  (m.writeBytes 0 p).writeBytes P.payloadLen (crcBytes P (crc16 P p))

/-- What ENC_CMD and ENC_TLM do with a payload (R101, R102): FB, LEN, CRC and RESULT. -/
def encodeFrame (p : List Byte) (s : State) : State :=
  (((s.setFb (frameOf s.params p s.fb)).setLen (BitVec.ofNat 8 s.params.frameLen)).setCrc
    (crc16 s.params p)).setResult (zext32 (crc16 s.params p))

/-- `check(h)` (R103). -/
def frameCheck (h : Byte) (s : State) : FrameCheck :=
  let lenMatch := decide (s.len.toNat = s.params.frameLen)
  let hdrMatch := s.fb.read 0 == h
  let satMatch := s.fb.read 1 == s.params.satId
  let c := frameCrc s.params s.fb
  let crcMatch := c == crcRx s.params s.fb
  { err := decodeErr s.params.satIdPolicy lenMatch hdrMatch satMatch crcMatch
    lenMatch := lenMatch, crcMatch := crcMatch, satMatch := satMatch, c := c }

/-- STATUS after a decode (R104, R105): the fields a decode writes, ILL and bit 7 kept. -/
def checkedStatus (s : State) (k : FrameCheck) : Byte :=
  statusDecoded s.status k.err
    (decodeFlags s.params.flagPolicy k.err k.lenMatch k.crcMatch).1
    (decodeFlags s.params.flagPolicy k.err k.lenMatch k.crcMatch).2
    k.satMatch (k.err == .none)

/-- What DEC_CMD and DEC_TLM write whatever the outcome: STATUS, CRC and RESULT (R104, R105). -/
def recordCheck (k : FrameCheck) (s : State) : State :=
  ((s.setStatus (checkedStatus s k)).setCrc k.c).setResult (zext32 k.c)

/-- `CF[0..9] <- unpackCmd(FB)` (R104). -/
def loadCmd (s : State) : State := s.setCf (unpackCmd s.params s.fb s.cf)

/-- `TF[0..12] <- unpackTlm(FB)` (R105). -/
def loadTlm (s : State) : State := s.setTf (unpackTlm s.params s.fb s.tf)

/-- ENC_CMD (R101). -/
def execEncCmd (s : State) : Host.Outcome State Fault Refusal := complete (encodeFrame (packCmd s.params s.cf) s)

/-- ENC_TLM (R102). -/
def execEncTlm (s : State) : Host.Outcome State Fault Refusal := complete (encodeFrame (packTlm s.params s.tf) s)

/-- DEC_CMD (R104): CF is loaded only when every check passes. -/
def execDecCmd (s : State) : Host.Outcome State Fault Refusal :=
  let k := frameCheck s.params.hdrCmd s
  complete (if k.err = .none then loadCmd (recordCheck k s) else recordCheck k s)

/-- DEC_TLM (R105): TF is loaded only when every check passes. -/
def execDecTlm (s : State) : Host.Outcome State Fault Refusal :=
  let k := frameCheck s.params.hdrTlm s
  complete (if k.err = .none then loadTlm (recordCheck k s) else recordCheck k s)

/-- TLM_STAT (R109): `TF[4]` from the host's four flags and the last decode's two. -/
def execTlmStat (n : BitVec 4) (s : State) : Host.Outcome State Fault Refusal :=
  complete (s.setTf (s.tf.write .smask ((statusMask n s.status).setWidth 16)))

end Sys2Proof.Machine
end

