-- ==== Sys2Proof/Machine/Convert.lean ====
section
/-! DEFINITION. The angle and PWM conversions (43_convert.md R120 to R128), on unbounded integers (00_scope.md R9). -/

namespace Sys2Proof.Machine

/-- `SPAN = ANG_MAX - ANG_MIN` (R122). -/
def angSpan (P : Params) : Int := P.angMax - P.angMin

/-- `MIN_US` of an axis (R122). -/
def minUs (P : Params) : Axis → Int
  | .x => u16 P.xMinUs
  | .y => u16 P.yMinUs

/-- `MAX_US` of an axis (R122). -/
def maxUs (P : Params) : Axis → Int
  | .x => u16 P.xMaxUs
  | .y => u16 P.yMaxUs

/-- `RANGE = MAX_US - MIN_US` of an axis (R122). -/
def usRange (P : Params) (axis : Axis) : Int := maxUs P axis - minUs P axis

/-- `n // d` under `floor`, and the division rounded to nearest under `nearest`: `(2 n + d) // (2 d)` (R123, R124). -/
def roundedDiv (r : MapRounding) (n d : Int) : Int :=
  match r with
  | .floor => n / d
  | .nearest => (2 * n + d) / (2 * d)

/-- `a2w(a)`, 8 bits (R120). R120 adds that the result is never 0xFF; under a record with ANG_MAX - ANG_MIN = 255, which R8
accepts, its formula gives 0xFF for ANG_MAX, and the model follows the formula (log entry 19). -/
def a2w (P : Params) (a : Int) : Byte := BitVec.ofInt 8 (clamp a P.angMin P.angMax - P.angMin)

/-- `w2a(b)` (R121). -/
def w2a (P : Params) (b : Byte) : Int := clamp (u8 b) 0 (P.angMax - P.angMin) + P.angMin

/-- `a2p(x, a)`, 16 bits (R123). -/
def a2p (P : Params) (axis : Axis) (a : Int) : Half :=
  BitVec.ofInt 16 (minUs P axis
    + roundedDiv P.mapRounding ((clamp a P.angMin P.angMax - P.angMin) * usRange P axis) (angSpan P))

/-- `p2a(x, p)` (R124). -/
def p2a (P : Params) (axis : Axis) (p : Int) : Int :=
  P.angMin + roundedDiv P.mapRounding ((clamp p (minUs P axis) (maxUs P axis) - minUs P axis) * angSpan P)
    (usRange P axis)

/-- A2W (R125). -/
def execA2w (v : Half) (s : State) : Host.Outcome State Fault Refusal :=
  complete (s.setResult (zext32 (a2w s.params (s16 v))))

/-- W2A (R126). -/
def execW2a (b : Byte) (s : State) : Host.Outcome State Fault Refusal :=
  complete (s.setResult (sext32 (w2a s.params b)))

/-- A2P (R127). -/
def execA2p (axis : Axis) (v : Half) (s : State) : Host.Outcome State Fault Refusal :=
  complete (s.setResult (zext32 (a2p s.params axis (s16 v))))

/-- P2A (R128). -/
def execP2a (axis : Axis) (v : Half) (s : State) : Host.Outcome State Fault Refusal :=
  complete (s.setResult (sext32 (p2a s.params axis (u16 v))))

end Sys2Proof.Machine
end

