-- ==== Sys2Proof/Machine/Dispatch.lean ====
section
/-! DEFINITION. One arm per command (30_encoding.md R42). -/

namespace Sys2Proof.Machine

def exec (i : Instr) (s : State) : Host.Outcome State Fault Refusal :=
  match i with
  | .nop => Sys2Proof.Machine.execNop s
  | .crcInit => Sys2Proof.Machine.execCrcInit s
  | .crcByte b => Sys2Proof.Machine.execCrcByte b s
  | .crcRead => Sys2Proof.Machine.execCrcRead s
  | .crcFrame => Sys2Proof.Machine.execCrcFrame s
  | .fbClear => Sys2Proof.Machine.execFbClear s
  | .fbPush b => Sys2Proof.Machine.execFbPush b s
  | .fbWrite j b => Sys2Proof.Machine.execFbWrite j b s
  | .fbRead j => Sys2Proof.Machine.execFbRead j s
  | .fbSetlen b => Sys2Proof.Machine.execFbSetlen b s
  | .fbGetlen => Sys2Proof.Machine.execFbGetlen s
  | .fldWr bank id v => Sys2Proof.Machine.execFldWr bank id v s
  | .fldRd bank id => Sys2Proof.Machine.execFldRd bank id s
  | .statRd => Sys2Proof.Machine.execStatRd s
  | .statClr => Sys2Proof.Machine.execStatClr s
  | .encCmd => Sys2Proof.Machine.execEncCmd s
  | .encTlm => Sys2Proof.Machine.execEncTlm s
  | .decCmd => Sys2Proof.Machine.execDecCmd s
  | .decTlm => Sys2Proof.Machine.execDecTlm s
  | .tlmStat n => Sys2Proof.Machine.execTlmStat n s
  | .a2w v => Sys2Proof.Machine.execA2w v s
  | .w2a b => Sys2Proof.Machine.execW2a b s
  | .a2p axis v => Sys2Proof.Machine.execA2p axis v s
  | .p2a axis v => Sys2Proof.Machine.execP2a axis v s

end Sys2Proof.Machine
end

