-- ==== Sys2Proof/Machine/Ports.lean ====
section
/-! DEFINITION. How a step takes what the input ports carry (10_state.md R20, R21; 70_reset_and_hazards.md R160, R161, R171). -/

namespace Sys2Proof.Machine

/-- A command word presented on `cmd` (R42, R142): the command it decodes to runs; a word that is no command is illegal. -/
def runWord (w : Word) (s : State) : Host.Outcome State Fault Refusal :=
  match decode w with
  | .command i => exec i s
  | .illegal _ => raiseIll s

/-- One sample of the input ports: `rst` resets the block and cancels a command presented with it (R160, R161);
`cmd_valid` runs the word on `cmd`; with neither nothing changes (R20). -/
def runSample (p : PortSample) (s : State) : Host.Outcome State Fault Refusal :=
  if p.rst then complete (resetBlock s) else if p.cmdValid then runWord p.cmd s else complete s

/-- The next port sample is taken and run; where none is to come the block stands still (R20, log entry 2). -/
def takeSample (s : State) : Host.Outcome State Fault Refusal :=
  match s.inputs with
  | [] => complete s
  | p :: rest => runSample p (s.setInputs rest)

/-- The sample by which the host presents a command word (R21). -/
def presented (w : Word) : PortSample := ⟨false, true, w⟩

/-- The sample by which `rst` is asserted, whatever stands on the command port (R161). -/
def resetSample (cmdValid : Bool) (w : Word) : PortSample := ⟨true, cmdValid, w⟩

end Sys2Proof.Machine
end

