-- ==== Sys2Proof/Machine/Step.lean ====
section
/-! DEFINITION. One step of the block, and placing a command word where the next step takes it. -/

namespace Sys2Proof.Machine

/-- One step (R20): a record that breaks R8 is rejected (R8, U3); otherwise the next port sample is taken. -/
def step (s : State) : Host.Outcome State Fault Refusal :=
  if s.params.constraints then takeSample s else .refused .parametersRejected

/-- `s` with the command word whose bits are `w` (the bits from `nbits` up are 0) presented on the command port at the
next step (log entry 3). -/
def State.withFetchWord (s : State) (nbits w : Nat) : State :=
  s.setInputs (presented (BitVec.ofNat 32 (w % 2 ^ nbits)) :: s.inputs)

end Sys2Proof.Machine
end

