-- ==== Sys2Proof/Machine/Assembler.lean ====
section
/-! DEFINITION. The spec's assembler over parsed lines, and its pseudo-instructions (30_encoding.md R45, R46; log entry 15). -/

namespace Sys2Proof.Machine

/-- One assembler line of R45: a mnemonic and its operands, numbers as written, fields and axes by name. -/
inductive AsmLine where
  | nop
  | crcInit
  | crcByte (b : Int)
  | crcRead
  | crcFrame
  | fbClear
  | fbPush (b : Int)
  | fbWrite (i b : Int)
  | fbRead (i : Int)
  | fbSetlen (b : Int)
  | fbGetlen
  | fldWr (f : Field) (v : Int)
  | fldRd (f : Field)
  | statRd
  | statClr
  | encCmd
  | encTlm
  | decCmd
  | decTlm
  | tlmStat (n : Int)
  | a2w (v : Int)
  | w2a (b : Int)
  | a2p (axis : Axis) (v : Int)
  | p2a (axis : Axis) (v : Int)
deriving DecidableEq, Repr

/-- An unsigned operand of `n` bits, refused where it does not fit (R45). -/
def fitsUnsigned (n : Nat) (v : Int) : Option (BitVec n) :=
  if 0 ≤ v ∧ v < 2 ^ n then some (BitVec.ofInt n v) else none

/-- An `s16` operand, refused outside -32768..32767 (R45). -/
def fitsS16 (v : Int) : Option Half := if -32768 ≤ v ∧ v ≤ 32767 then some (BitVec.ofInt 16 v) else none

/-- The selector that a field name fixes (R28, R30, R45). -/
def fieldSelector : Field → Bank × BitVec 4
  | .cmd .pkt => (.cmd, 0)
  | .cmd .script => (.cmd, 1)
  | .cmd .step => (.cmd, 2)
  | .cmd .tlmp => (.cmd, 3)
  | .cmd .servo => (.cmd, 4)
  | .cmd .laser => (.cmd, 5)
  | .cmd .pwmx => (.cmd, 6)
  | .cmd .pwmy => (.cmd, 7)
  | .cmd .angx => (.cmd, 8)
  | .cmd .angy => (.cmd, 9)
  | .nochg => (.cmd, 10)
  | .tlm .pkt => (.tlm, 0)
  | .tlm .lastcmd => (.tlm, 1)
  | .tlm .uplo => (.tlm, 2)
  | .tlm .uphi => (.tlm, 3)
  | .tlm .smask => (.tlm, 4)
  | .tlm .mode => (.tlm, 5)
  | .tlm .step => (.tlm, 6)
  | .tlm .pwmx => (.tlm, 7)
  | .tlm .pwmy => (.tlm, 8)
  | .tlm .angx => (.tlm, 9)
  | .tlm .angy => (.tlm, 10)
  | .tlm .laser => (.tlm, 11)
  | .tlm .servo => (.tlm, 12)

/-- The command a line names, where every operand fits its field (R45). -/
def operandsFit : AsmLine → Option Instr
  | .nop => some .nop
  | .crcInit => some .crcInit
  | .crcByte b => (fitsUnsigned 8 b).map .crcByte
  | .crcRead => some .crcRead
  | .crcFrame => some .crcFrame
  | .fbClear => some .fbClear
  | .fbPush b => (fitsUnsigned 8 b).map .fbPush
  | .fbWrite i b => (fitsUnsigned 8 i).bind fun j => (fitsUnsigned 8 b).map (.fbWrite j)
  | .fbRead i => (fitsUnsigned 8 i).map .fbRead
  | .fbSetlen b => (fitsUnsigned 8 b).map .fbSetlen
  | .fbGetlen => some .fbGetlen
  | .fldWr f v => (fitsUnsigned 16 v).map (.fldWr (fieldSelector f).1 (fieldSelector f).2)
  | .fldRd f => some (.fldRd (fieldSelector f).1 (fieldSelector f).2)
  | .statRd => some .statRd
  | .statClr => some .statClr
  | .encCmd => some .encCmd
  | .encTlm => some .encTlm
  | .decCmd => some .decCmd
  | .decTlm => some .decTlm
  | .tlmStat n => (fitsUnsigned 4 n).map .tlmStat
  | .a2w v => (fitsS16 v).map .a2w
  | .w2a b => (fitsUnsigned 8 b).map .w2a
  | .a2p axis v => (fitsS16 v).map (.a2p axis)
  | .p2a axis v => (fitsUnsigned 16 v).map (.p2a axis)

/-- The word of a line; none where an operand does not fit or the word would be illegal (R45). -/
def assemble (P : Params) (line : AsmLine) : Option Word := ((operandsFit line).filter (Instr.wf P)).map encode

/-- `RXFRAME b0, ..., b23` (R46). -/
def rxFrame (bs : List Byte) : List Instr := .fbClear :: bs.map .fbPush

/-- `WR_UPTIME t` (R46). -/
def wrUptime (t : Word) : List Instr :=
  [.fldWr .tlm 2 (t.extractLsb' 0 16), .fldWr .tlm 3 (t.extractLsb' 16 16)]

/-- `CRC_OVER b0, ..., bn` (R46). -/
def crcOver (bs : List Byte) : List Instr := .crcInit :: bs.map .crcByte ++ [.crcRead]

/-- The receive sequence a host issues for an inbound CommandFrame, up to reading `status` (R163). -/
def receiveSequence (bs : List Byte) : List Instr := rxFrame bs ++ [.decCmd]

/-- The reads of CF that follow it when STATUS.DVALID = 1 (R163). -/
def readCommandFields : List Instr := (List.range 10).map fun k => .fldRd .cmd (BitVec.ofNat 4 k)

/-- The send sequence for one TelemetryFrame: the field writes, TLM_STAT, ENC_TLM, the reads of the frame (R163). -/
def sendSequence (fields : List (BitVec 4 × Half)) (n : BitVec 4) : List Instr :=
  fields.map (fun f => .fldWr .tlm f.1 f.2)
    ++ [.tlmStat n, .encTlm] ++ (List.range 24).map fun k => .fbRead (BitVec.ofNat 8 k)

/-- The commands of an expansion, one after another (R39, R46). -/
def execAll : List Instr → State → Host.Outcome State Fault Refusal
  | [], s => .next s
  | i :: is, s =>
    match exec i s with
    | .next t => execAll is t
    | .fault r => .fault r
    | .refused r => .refused r

end Sys2Proof.Machine
end

