-- ==== Sys2Proof/Machine/FieldCodes.lean ====
section
/-! DEFINITION. What the coded field bytes mean to a reader of a frame (30_encoding.md R53 to R56). The block passes
T_MODE, C_SCRIPT and the telemetry angles through and gives them no meaning. -/

namespace Sys2Proof.Machine

/-- The scan states of R54, in the source's listing order. -/
inductive ScanMode where
  | idle | scanHorizontal | scanVertical | scanDiagonal1 | scanDiagonal2 | manual
deriving DecidableEq, Repr

/-- The ordinal that T_MODE carries (R54). -/
def ScanMode.code : ScanMode → Byte
  | .idle => 0
  | .scanHorizontal => 1
  | .scanVertical => 2
  | .scanDiagonal1 => 3
  | .scanDiagonal2 => 4
  | .manual => 5

/-- The scan state a T_MODE byte names; the block loads and sends other bytes too (R54). -/
def scanModeOf (b : Byte) : Option ScanMode :=
  match b.toNat with
  | 0 => some .idle
  | 1 => some .scanHorizontal
  | 2 => some .scanVertical
  | 3 => some .scanDiagonal1
  | 4 => some .scanDiagonal2
  | 5 => some .manual
  | _ => none

/-- What the consumer of a C_SCRIPT byte does (R55). -/
inductive ScriptAction where
  | scanHorizontalLaserOn | stopAll | scanVerticalLaserOn | scanDiagonal1LaserOn | scanDiagonal2LaserOn
  | noModeChange | ignored
deriving DecidableEq, Repr

/-- The script-code table of R55; 1 and 3 are aliases. -/
def scriptActionOf (b : Byte) : ScriptAction :=
  match b.toNat with
  | 1 => .scanHorizontalLaserOn
  | 2 => .stopAll
  | 3 => .scanHorizontalLaserOn
  | 4 => .scanVerticalLaserOn
  | 5 => .scanDiagonal1LaserOn
  | 6 => .scanDiagonal2LaserOn
  | 0xFF => .noModeChange
  | _ => .ignored

/-- The byte a telemetry angle is sent as: `a mod 256` (R56). -/
def telemetryAngleByte (a : Int) : Byte := BitVec.ofInt 8 a

/-- The angle a received telemetry byte means: `s8(b)` (R56). -/
def telemetryAngleOf (b : Byte) : Int := s8 b

/-- The six flags of a StatusMask byte (R53). -/
structure StatusMaskFlags where
  servoPowered : Bool
  laserPowered : Bool
  xRawPwm : Bool
  yRawPwm : Bool
  lenOk : Bool
  crcOk : Bool
deriving DecidableEq, Repr

/-- The flags by their bit positions (R53). -/
def statusMaskFlags (b : Byte) : StatusMaskFlags where
  servoPowered := b.getLsbD 0
  laserPowered := b.getLsbD 1
  xRawPwm := b.getLsbD 2
  yRawPwm := b.getLsbD 3
  lenOk := b.getLsbD 4
  crcOk := b.getLsbD 5

end Sys2Proof.Machine
end

