-- ==== Sys2Proof/Safety.lean ====
section
/-! DEFINITION. What every step of the block keeps: the invariant of a state, in the terms the statements use. -/

namespace Sys2Proof.Machine

/-- What STATUS says is consistent (R27, R106): bit 7 reads 0; DVALID means the last decode passed every check; CRC_OK
implies LEN_OK; a LENGTH outcome leaves LEN_OK clear; ERR = NONE without DVALID means that no decode has run since
reset; under `clear_both` the two flags say what DVALID says. -/
def StatusConsistent (P : Params) (st : Byte) : Prop :=
  statusReserved st = false
  ∧ (statusDvalid st = true → statusErr st = DecodeErr.none.code ∧ statusLenOk st = true ∧ statusCrcOk st = true)
  ∧ (statusCrcOk st = true → statusLenOk st = true)
  ∧ (statusErr st = DecodeErr.length.code → statusLenOk st = false)
  ∧ (statusErr st = DecodeErr.none.code → statusDvalid st = false →
      statusLenOk st = false ∧ statusCrcOk st = false ∧ statusSatMatch st = false)
  ∧ (P.flagPolicy = .clearBoth → statusLenOk st = statusDvalid st ∧ statusCrcOk st = statusDvalid st)

/-- The frame buffer is in its canonical form and lists no index outside 0 to FRAME_LEN-1 (R23, R34). -/
def BufferValid (P : Params) (m : Memory) : Prop := m.wf = true ∧ m.below P.frameLen = true

/-- The invariant of the block: an accepted parameter record (R8), a valid frame buffer, a consistent STATUS. -/
def BlockInvariant (s : State) : Prop :=
  s.params.constraints = true ∧ BufferValid s.params s.fb ∧ StatusConsistent s.params s.status

/-- A state in which a step takes the next port sample: its parameter record meets R8. -/
def Accepted (s : State) : Prop := s.params.constraints = true

end Sys2Proof.Machine
end

