-- ==== Sys2Proof/Certificates/Slice0/Obligations.lean ====
section
/-! DEFINITION. The statements for the provers, and the words they are written in. -/

open Sys2Proof Sys2Proof.Machine

namespace Sys2Proof.Spec

/-! ### The words of the statements -/

/-- The registers of R22, by name. -/
inductive Piece where
  | fb | len | crc | result | status | cf | tf
deriving DecidableEq, Repr

/-- The frame of a command: every piece not named in `w` is as before (FB byte by byte), and so are the parameters and
the port samples still to come. -/
def KeepsBut (w : List Piece) (s t : State) : Prop :=
  (Piece.fb ∉ w → ∀ a, t.fb.read a = s.fb.read a) ∧ (Piece.len ∉ w → t.len = s.len)
  ∧ (Piece.crc ∉ w → t.crc = s.crc) ∧ (Piece.result ∉ w → t.result = s.result)
  ∧ (Piece.status ∉ w → t.status = s.status) ∧ (Piece.cf ∉ w → t.cf = s.cf) ∧ (Piece.tf ∉ w → t.tf = s.tf)
  ∧ t.params = s.params ∧ t.inputs = s.inputs

/-- How the words of one opcode are read (R40 to R43): with `legal` bits they are the command `cmd`, else illegal. -/
def Encoding (op : Byte) (legal : Word → Prop) (cmd : Word → Instr) : Prop :=
  ∀ w : Word, w.extractLsb' 24 8 = op →
    (legal w → decode w = .command (cmd w)) ∧ (¬ legal w → ∃ why, decode w = .illegal why)

/-- Format Z: bits 23:0 are 0. -/
def BitsZ (w : Word) : Prop := w.extractLsb' 0 24 = 0

/-- Format B: A = 0 and D[15:8] = 0. -/
def BitsB (w : Word) : Prop := w.extractLsb' 8 16 = 0

/-- D[7:0], D and A of a word. -/
def byteOf (w : Word) : Byte := w.extractLsb' 0 8
def valueOf (w : Word) : Half := w.extractLsb' 0 16
def indexOf (w : Word) : Byte := w.extractLsb' 16 8

/-- The axis bit A[0], the bank bit A[7] and the id A[3:0] of a word. -/
def axisBit (w : Word) : Axis := if w.getLsbD 16 then .y else .x
def bankBit (w : Word) : Bank := if w.getLsbD 23 then .tlm else .cmd
def idBits (w : Word) : BitVec 4 := w.extractLsb' 16 4

/-- The effect of an illegal command (R142): STATUS.ILL, bit 6, is 1 and nothing else has changed. -/
def IllegalEffect (s t : State) : Prop :=
  (∀ k, k < 8 → t.status.getLsbD k = (decide (k = 6) || s.status.getLsbD k)) ∧ KeepsBut [.status] s t

/-- The lengths that R50 to R52 and R100 are written for: FRAME_LEN = 24 and PAYLOAD_LEN = 22. -/
def StandardLengths (P : Params) : Prop := P.frameLen = 24 ∧ P.payloadLen = 22

/-- The state with a port sample in front of those still to come. -/
def withSample (s : State) (p : PortSample) : State := { s with inputs := p :: s.inputs }

/-- R70 on numbers: one shift, and `crc_step`. -/
def shiftNumber (poly c : Nat) : Nat :=
  if c / 2 ^ 15 % 2 = 1 then ((2 * c) ^^^ poly) % 2 ^ 16 else (2 * c) % 2 ^ 16
def crcStepNumber (poly c b : Nat) : Nat := Nat.iterate (shiftNumber poly) 8 (c ^^^ (b * 2 ^ 8))

/-- The bits of a byte, most significant first (R36). -/
def bitsOf (b : Byte) : List Bool := (List.range 8).map fun k => b.getLsbD (7 - k)

/-- Long division of a bit string by x^16 + poly over GF(2): each bit is shifted in at the right of the remainder, and
the divisor is taken off whenever a 1 is shifted out at the left. -/
def divisionRemainder (poly : Half) (bits : List Bool) : Half :=
  bits.foldl (fun r b =>
    let r' := r <<< 1 ||| (if b then 1 else 0)
    if r.getLsbD 15 then r' ^^^ poly else r') 0

/-- The names of R28 and R30 in the order of their ids. -/
def cmdNames : List CmdField := [.pkt, .script, .step, .tlmp, .servo, .laser, .pwmx, .pwmy, .angx, .angy]
def tlmNames : List TlmField :=
  [.pkt, .lastcmd, .uplo, .uphi, .smask, .mode, .step, .pwmx, .pwmy, .angx, .angy, .laser, .servo]

/-- The 16-bit fields of R28 and R30. -/
def cmdWide : CmdField → Bool
  | .pwmx | .pwmy => true
  | .pkt | .script | .step | .tlmp | .servo | .laser | .angx | .angy => false
def tlmWide : TlmField → Bool
  | .uplo | .uphi | .pwmx | .pwmy => true
  | .pkt | .lastcmd | .smask | .mode | .step | .angx | .angy | .laser | .servo => false

/-- Bytes 0 to 21 of a CommandFrame, by index (R50). -/
def cmdLayout (P : Params) (cf : CmdBank) : Nat → Byte
  | 0 => P.hdrCmd
  | 1 => P.satId
  | 2 => cf.pkt
  | 3 => cf.script
  | 4 => cf.step
  | 5 => cf.tlmp
  | 6 => cf.servo
  | 7 => cf.laser
  | 8 => cf.pwmx.extractLsb' 0 8
  | 9 => cf.pwmx.extractLsb' 8 8
  | 10 => cf.pwmy.extractLsb' 0 8
  | 11 => cf.pwmy.extractLsb' 8 8
  | 12 => cf.angx
  | 13 => cf.angy
  | _ => 0x00

/-- Bytes 0 to 21 of a TelemetryFrame, by index (R51). -/
def tlmLayout (P : Params) (tf : TlmBank) : Nat → Byte
  | 0 => P.hdrTlm
  | 1 => P.satId
  | 2 => tf.pkt
  | 3 => tf.lastcmd
  | 4 => tf.uplo.extractLsb' 0 8
  | 5 => tf.uplo.extractLsb' 8 8
  | 6 => tf.uphi.extractLsb' 0 8
  | 7 => tf.uphi.extractLsb' 8 8
  | 8 => tf.smask
  | 9 => tf.mode
  | 10 => tf.step
  | 11 => tf.pwmx.extractLsb' 0 8
  | 12 => tf.pwmx.extractLsb' 8 8
  | 13 => tf.pwmy.extractLsb' 0 8
  | 14 => tf.pwmy.extractLsb' 8 8
  | 15 => tf.angx
  | 16 => tf.angy
  | 17 => tf.laser
  | 18 => tf.servo
  | _ => 0x00

/-- The CRC of bytes 0 to 21 of FB, and the CRC stored in bytes 22 and 23 (R52, R71). -/
def payloadCrc (s : State) : Half := crc16 s.params ((List.range 22).map fun a => s.fb.read a)
def storedCrc (s : State) : Half :=
  match s.params.crcOrder with
  | .le => s.fb.read 23 ++ s.fb.read 22
  | .be => s.fb.read 22 ++ s.fb.read 23

/-- What an encode leaves (R101, R102): the laid-out payload, its CRC in bytes 22 and 23 by CRC_ORDER, LEN = 24, CRC and
RESULT; every byte from index 24 on and every other register as before. -/
def FrameBuilt (layout : Nat → Byte) (s t : State) : Prop :=
  (∀ a, a < 22 → t.fb.read a = layout a)
  ∧ storedCrc t = crc16 s.params ((List.range 22).map layout)
  ∧ (∀ a, 24 ≤ a → t.fb.read a = s.fb.read a)
  ∧ t.len = 24 ∧ t.crc = crc16 s.params ((List.range 22).map layout)
  ∧ t.result.toNat = (crc16 s.params ((List.range 22).map layout)).toNat
  ∧ KeepsBut [.fb, .len, .crc, .result] s t

/-- The CRC of the payload bytes of FB, and the CRC stored after them, for any payload length (R23, R52, R71). -/
def crcOfLength (s : State) : Half := crc16 s.params ((List.range s.params.payloadLen).map fun a => s.fb.read a)
def storedOfLength (s : State) : Half :=
  match s.params.crcOrder with
  | .le => s.fb.read (s.params.payloadLen + 1) ++ s.fb.read s.params.payloadLen
  | .be => s.fb.read s.params.payloadLen ++ s.fb.read (s.params.payloadLen + 1)

/-- What an encode leaves for any payload length: `FrameBuilt` with PAYLOAD_LEN for 22 and FRAME_LEN for 24. -/
def FrameBuiltOfLength (layout : Nat → Byte) (s t : State) : Prop :=
  (∀ a, a < s.params.payloadLen → t.fb.read a = layout a)
  ∧ storedOfLength t = crc16 s.params ((List.range s.params.payloadLen).map layout)
  ∧ (∀ a, s.params.frameLen ≤ a → t.fb.read a = s.fb.read a)
  ∧ t.len.toNat = s.params.frameLen ∧ t.crc = crc16 s.params ((List.range s.params.payloadLen).map layout)
  ∧ t.result.toNat = (crc16 s.params ((List.range s.params.payloadLen).map layout)).toNat
  ∧ KeepsBut [.fb, .len, .crc, .result] s t

/-- Every check of R103 passes for an expected header, for any payload length. -/
def ChecksPass (h : Byte) (s : State) : Prop :=
  s.len.toNat = s.params.frameLen ∧ s.fb.read 0 = h
  ∧ (s.params.satIdPolicy = .reject → s.fb.read 1 = s.params.satId) ∧ crcOfLength s = storedOfLength s

/-- The outcome code of the frame check for an expected header (R103, R141): 0 NONE, 1 LENGTH, 2 HEADER, 3 CRC. -/
def checkCode (h : Byte) (s : State) : BitVec 2 :=
  if s.len.toNat ≠ 24 then 1
  else if s.fb.read 0 ≠ h then 2
  else if s.params.satIdPolicy = .reject ∧ s.fb.read 1 ≠ s.params.satId then 2
  else if payloadCrc s ≠ storedCrc s then 3
  else 0

/-- What a decode records whatever its outcome (R103 to R106): STATUS but ILL and bit 7, CRC and RESULT. -/
def CheckRecorded (h : Byte) (s t : State) : Prop :=
  statusErr t.status = checkCode h s
  ∧ statusSatMatch t.status = decide (s.fb.read 1 = s.params.satId)
  ∧ statusDvalid t.status = decide (checkCode h s = 0)
  ∧ (s.params.flagPolicy = .clearBoth →
      statusLenOk t.status = decide (checkCode h s = 0) ∧ statusCrcOk t.status = decide (checkCode h s = 0))
  ∧ (s.params.flagPolicy = .perCheck →
      statusLenOk t.status = decide (s.len.toNat = 24)
      ∧ statusCrcOk t.status = decide (s.len.toNat = 24 ∧ payloadCrc s = storedCrc s))
  ∧ statusIll t.status = statusIll s.status ∧ statusReserved t.status = statusReserved s.status
  ∧ t.crc = payloadCrc s ∧ t.result.toNat = (payloadCrc s).toNat

/-- `unpackCmd(FB)` and `unpackTlm(FB)`, field by field (R100). -/
def CmdLoaded (m : Memory) (cf : CmdBank) : Prop :=
  cf.pkt = m.read 2 ∧ cf.script = m.read 3 ∧ cf.step = m.read 4 ∧ cf.tlmp = m.read 5 ∧ cf.servo = m.read 6
  ∧ cf.laser = m.read 7 ∧ cf.pwmx = m.read 9 ++ m.read 8 ∧ cf.pwmy = m.read 11 ++ m.read 10
  ∧ cf.angx = m.read 12 ∧ cf.angy = m.read 13
def TlmLoaded (m : Memory) (tf : TlmBank) : Prop :=
  tf.pkt = m.read 2 ∧ tf.lastcmd = m.read 3 ∧ tf.uplo = m.read 5 ++ m.read 4 ∧ tf.uphi = m.read 7 ++ m.read 6
  ∧ tf.smask = m.read 8 ∧ tf.mode = m.read 9 ∧ tf.step = m.read 10 ∧ tf.pwmx = m.read 12 ++ m.read 11
  ∧ tf.pwmy = m.read 14 ++ m.read 13 ∧ tf.angx = m.read 15 ∧ tf.angy = m.read 16 ∧ tf.laser = m.read 17
  ∧ tf.servo = m.read 18

/-- `clamp(v, lo, hi)` for `lo <= hi` (R9). -/
def limited (v lo hi : Int) : Int := max lo (min v hi)

/-- MIN_US and MAX_US of an axis (R122). -/
def axisMin (P : Params) (axis : Axis) : Int := match axis with | .x => P.xMinUs.toNat | .y => P.yMinUs.toNat
def axisMax (P : Params) (axis : Axis) : Int := match axis with | .x => P.xMaxUs.toNat | .y => P.yMaxUs.toNat

/-- The quotient of R123 and R124 by MAP_ROUNDING. -/
def mapQuotient (P : Params) (n d : Int) : Int :=
  match P.mapRounding with
  | .floor => n / d
  | .nearest => (2 * n + d) / (2 * d)

/-- The default angles and calibration of R6. -/
def DefaultConversion (P : Params) : Prop :=
  P.angMin = -40 ∧ P.angMax = 40 ∧ P.xMinUs = 1000 ∧ P.xMaxUs = 2000 ∧ P.yMinUs = 1100 ∧ P.yMaxUs = 2100

/-- The words that R142 makes illegal under a record: no row of the opcode table matches (an unassigned opcode, a
must-be-zero bit, A[6:4] of a selector, A[7:1] of an axis), or an index, a selector or a value is out of range. -/
def IllegalFor (P : Params) (w : Word) : Prop :=
  (∀ r ∈ opcodeTable, w &&& r.mask ≠ r.pattern)
  ∨ ((w.extractLsb' 24 8 = 0x12 ∨ w.extractLsb' 24 8 = 0x13) ∧ P.frameLen ≤ (indexOf w).toNat)
  ∨ ((w.extractLsb' 24 8 = 0x18 ∨ w.extractLsb' 24 8 = 0x19) ∧
      ((w.getLsbD 23 = false ∧ 10 < (idBits w).toNat) ∨ (w.getLsbD 23 = true ∧ 12 < (idBits w).toNat)))
  ∨ (w.extractLsb' 24 8 = 0x18 ∧ w.getLsbD 23 = false ∧ (idBits w).toNat = 10)
  ∨ (w.extractLsb' 24 8 = 0x18 ∧ 255 < (valueOf w).toNat ∧
      ((w.getLsbD 23 = false ∧ (idBits w).toNat ∉ [6, 7]) ∨ (w.getLsbD 23 = true ∧ (idBits w).toNat ∉ [2, 3, 7, 8])))

/-- Rows 1 to 27 of the table of R129: (a, a2w(a), a2p(X, a), a2p(Y, a)). -/
def angleTable1 : List (Int × Nat × Nat × Nat) :=
  [(-40, 0x00, 1000, 1100), (-39, 0x01, 1012, 1112), (-38, 0x02, 1025, 1125), (-37, 0x03, 1037, 1137),
   (-36, 0x04, 1050, 1150), (-35, 0x05, 1062, 1162), (-34, 0x06, 1075, 1175), (-33, 0x07, 1087, 1187),
   (-32, 0x08, 1100, 1200), (-31, 0x09, 1112, 1212), (-30, 0x0A, 1125, 1225), (-29, 0x0B, 1137, 1237),
   (-28, 0x0C, 1150, 1250), (-27, 0x0D, 1162, 1262), (-26, 0x0E, 1175, 1275), (-25, 0x0F, 1187, 1287),
   (-24, 0x10, 1200, 1300), (-23, 0x11, 1212, 1312), (-22, 0x12, 1225, 1325), (-21, 0x13, 1237, 1337),
   (-20, 0x14, 1250, 1350), (-19, 0x15, 1262, 1362), (-18, 0x16, 1275, 1375), (-17, 0x17, 1287, 1387),
   (-16, 0x18, 1300, 1400), (-15, 0x19, 1312, 1412), (-14, 0x1A, 1325, 1425)]

/-- Rows 28 to 54 of the table of R129: (a, a2w(a), a2p(X, a), a2p(Y, a)). -/
def angleTable2 : List (Int × Nat × Nat × Nat) :=
  [(-13, 0x1B, 1337, 1437), (-12, 0x1C, 1350, 1450), (-11, 0x1D, 1362, 1462), (-10, 0x1E, 1375, 1475),
   (-9, 0x1F, 1387, 1487), (-8, 0x20, 1400, 1500), (-7, 0x21, 1412, 1512), (-6, 0x22, 1425, 1525),
   (-5, 0x23, 1437, 1537), (-4, 0x24, 1450, 1550), (-3, 0x25, 1462, 1562), (-2, 0x26, 1475, 1575),
   (-1, 0x27, 1487, 1587), (0, 0x28, 1500, 1600), (1, 0x29, 1512, 1612), (2, 0x2A, 1525, 1625),
   (3, 0x2B, 1537, 1637), (4, 0x2C, 1550, 1650), (5, 0x2D, 1562, 1662), (6, 0x2E, 1575, 1675),
   (7, 0x2F, 1587, 1687), (8, 0x30, 1600, 1700), (9, 0x31, 1612, 1712), (10, 0x32, 1625, 1725),
   (11, 0x33, 1637, 1737), (12, 0x34, 1650, 1750), (13, 0x35, 1662, 1762)]

/-- Rows 55 to 81 of the table of R129: (a, a2w(a), a2p(X, a), a2p(Y, a)). -/
def angleTable3 : List (Int × Nat × Nat × Nat) :=
  [(14, 0x36, 1675, 1775), (15, 0x37, 1687, 1787), (16, 0x38, 1700, 1800), (17, 0x39, 1712, 1812),
   (18, 0x3A, 1725, 1825), (19, 0x3B, 1737, 1837), (20, 0x3C, 1750, 1850), (21, 0x3D, 1762, 1862),
   (22, 0x3E, 1775, 1875), (23, 0x3F, 1787, 1887), (24, 0x40, 1800, 1900), (25, 0x41, 1812, 1912),
   (26, 0x42, 1825, 1925), (27, 0x43, 1837, 1937), (28, 0x44, 1850, 1950), (29, 0x45, 1862, 1962),
   (30, 0x46, 1875, 1975), (31, 0x47, 1887, 1987), (32, 0x48, 1900, 2000), (33, 0x49, 1912, 2012),
   (34, 0x4A, 1925, 2025), (35, 0x4B, 1937, 2037), (36, 0x4C, 1950, 2050), (37, 0x4D, 1962, 2062),
   (38, 0x4E, 1975, 2075), (39, 0x4F, 1987, 2087), (40, 0x50, 2000, 2100)]

/-- The table of R129: (a, a2w(a), a2p(X, a), a2p(Y, a)), row by row as the rule prints it. -/
def angleTable : List (Int × Nat × Nat × Nat) := angleTable1 ++ angleTable2 ++ angleTable3

/-- Rows 1 to 27 of the table of R130: (angle, first and last X width, first and last Y width). -/
def pulseTable1 : List (Int × Nat × Nat × Nat × Nat) :=
  [(-40, 1000, 1012, 1100, 1112), (-39, 1013, 1024, 1113, 1124), (-38, 1025, 1037, 1125, 1137),
   (-37, 1038, 1049, 1138, 1149), (-36, 1050, 1062, 1150, 1162), (-35, 1063, 1074, 1163, 1174),
   (-34, 1075, 1087, 1175, 1187), (-33, 1088, 1099, 1188, 1199), (-32, 1100, 1112, 1200, 1212),
   (-31, 1113, 1124, 1213, 1224), (-30, 1125, 1137, 1225, 1237), (-29, 1138, 1149, 1238, 1249),
   (-28, 1150, 1162, 1250, 1262), (-27, 1163, 1174, 1263, 1274), (-26, 1175, 1187, 1275, 1287),
   (-25, 1188, 1199, 1288, 1299), (-24, 1200, 1212, 1300, 1312), (-23, 1213, 1224, 1313, 1324),
   (-22, 1225, 1237, 1325, 1337), (-21, 1238, 1249, 1338, 1349), (-20, 1250, 1262, 1350, 1362),
   (-19, 1263, 1274, 1363, 1374), (-18, 1275, 1287, 1375, 1387), (-17, 1288, 1299, 1388, 1399),
   (-16, 1300, 1312, 1400, 1412), (-15, 1313, 1324, 1413, 1424), (-14, 1325, 1337, 1425, 1437)]

/-- Rows 28 to 54 of the table of R130: (angle, first and last X width, first and last Y width). -/
def pulseTable2 : List (Int × Nat × Nat × Nat × Nat) :=
  [(-13, 1338, 1349, 1438, 1449), (-12, 1350, 1362, 1450, 1462), (-11, 1363, 1374, 1463, 1474),
   (-10, 1375, 1387, 1475, 1487), (-9, 1388, 1399, 1488, 1499), (-8, 1400, 1412, 1500, 1512),
   (-7, 1413, 1424, 1513, 1524), (-6, 1425, 1437, 1525, 1537), (-5, 1438, 1449, 1538, 1549),
   (-4, 1450, 1462, 1550, 1562), (-3, 1463, 1474, 1563, 1574), (-2, 1475, 1487, 1575, 1587),
   (-1, 1488, 1499, 1588, 1599), (0, 1500, 1512, 1600, 1612), (1, 1513, 1524, 1613, 1624),
   (2, 1525, 1537, 1625, 1637), (3, 1538, 1549, 1638, 1649), (4, 1550, 1562, 1650, 1662),
   (5, 1563, 1574, 1663, 1674), (6, 1575, 1587, 1675, 1687), (7, 1588, 1599, 1688, 1699),
   (8, 1600, 1612, 1700, 1712), (9, 1613, 1624, 1713, 1724), (10, 1625, 1637, 1725, 1737),
   (11, 1638, 1649, 1738, 1749), (12, 1650, 1662, 1750, 1762), (13, 1663, 1674, 1763, 1774)]

/-- Rows 55 to 81 of the table of R130: (angle, first and last X width, first and last Y width). -/
def pulseTable3 : List (Int × Nat × Nat × Nat × Nat) :=
  [(14, 1675, 1687, 1775, 1787), (15, 1688, 1699, 1788, 1799), (16, 1700, 1712, 1800, 1812),
   (17, 1713, 1724, 1813, 1824), (18, 1725, 1737, 1825, 1837), (19, 1738, 1749, 1838, 1849),
   (20, 1750, 1762, 1850, 1862), (21, 1763, 1774, 1863, 1874), (22, 1775, 1787, 1875, 1887),
   (23, 1788, 1799, 1888, 1899), (24, 1800, 1812, 1900, 1912), (25, 1813, 1824, 1913, 1924),
   (26, 1825, 1837, 1925, 1937), (27, 1838, 1849, 1938, 1949), (28, 1850, 1862, 1950, 1962),
   (29, 1863, 1874, 1963, 1974), (30, 1875, 1887, 1975, 1987), (31, 1888, 1899, 1988, 1999),
   (32, 1900, 1912, 2000, 2012), (33, 1913, 1924, 2013, 2024), (34, 1925, 1937, 2025, 2037),
   (35, 1938, 1949, 2038, 2049), (36, 1950, 1962, 2050, 2062), (37, 1963, 1974, 2063, 2074),
   (38, 1975, 1987, 2075, 2087), (39, 1988, 1999, 2088, 2099), (40, 2000, 2000, 2100, 2100)]

/-- The table of R130: (angle, first and last X width, first and last Y width), row by row as the rule prints it. -/
def pulseTable : List (Int × Nat × Nat × Nat × Nat) := pulseTable1 ++ pulseTable2 ++ pulseTable3

end Sys2Proof.Spec

open Sys2Proof.Spec

/-! ### CRC commands (40_crc.md) -/

/-- R70: `crc_step` is eight shifts of the accumulator after the byte is exclusive-ored into its high half. -/
def Obligations.CrcStepIsEightShifts : Prop :=
  (∀ (P : Params) (c : Half) (b : Byte), (crcStep P c b).toNat = crcStepNumber P.crcPoly.toNat c.toNat b.toNat)
  ∧ ∀ P : Params, P.crcPoly = 0x1021 → crcStep P 0x0000 0x37 = 0x46B4

/-- R73: CRC_INIT. -/
def Obligations.CrcInitLoadsInitialValue : Prop :=
  (∀ s : State, ∃ t, exec .crcInit s = .next t ∧ t.crc = s.params.crcInit ∧ KeepsBut [.crc] s t)
  ∧ Encoding 0x01 BitsZ fun _ => .crcInit

/-- R74: CRC_BYTE, with `crc_step` of R70 on numbers. -/
def Obligations.CrcByteFoldsOneByte : Prop :=
  (∀ (b : Byte) (s : State), ∃ t, exec (.crcByte b) s = .next t
    ∧ t.crc.toNat = crcStepNumber s.params.crcPoly.toNat s.crc.toNat b.toNat ∧ KeepsBut [.crc] s t)
  ∧ Encoding 0x02 BitsB fun w => .crcByte (byteOf w)

/-- R75: CRC_READ. -/
def Obligations.CrcReadAppliesFinalXor : Prop :=
  (∀ s : State, ∃ t, exec .crcRead s = .next t ∧ t.result.toNat = s.crc.toNat ^^^ s.params.crcXorout.toNat
    ∧ KeepsBut [.result] s t)
  ∧ Encoding 0x03 BitsZ fun _ => .crcRead

/-- R76: CRC_FRAME, over bytes 0 to PAYLOAD_LEN-1 whatever LEN holds. -/
def Obligations.CrcFrameCoversThePayload : Prop :=
  (∀ s : State, ∃ t, exec .crcFrame s = .next t
    ∧ t.crc = crc16 s.params ((List.range s.params.payloadLen).map fun a => s.fb.read a)
    ∧ t.result.toNat = t.crc.toNat ∧ KeepsBut [.crc, .result] s t)
  ∧ Encoding 0x04 BitsZ fun _ => .crcFrame

/-- R71, R46 and R73 to R75: `crc16` is the fold of the steps of R70 from CRC_INIT with CRC_XOROUT at the end, the frame CRC
is `crc16` of the payload bytes, and the byte-serial commands CRC_INIT, CRC_BYTE over the bytes, CRC_READ compute it. -/
def Obligations.ByteSerialCommandsComputeCrc16 : Prop :=
  (∀ (P : Params) (m : Memory), frameCrc P m = crc16 P ((List.range P.payloadLen).map fun a => m.read a))
  ∧ ∀ (bs : List Byte) (s : State), ∃ t, execAll (crcOver bs) s = .next t
    ∧ (crc16 s.params bs).toNat =
        (bs.foldl (fun c b => crcStepNumber s.params.crcPoly.toNat c b.toNat) s.params.crcInit.toNat)
          ^^^ s.params.crcXorout.toNat
    ∧ t.result.toNat = (crc16 s.params bs).toNat
    ∧ t.crc = crc16 s.params bs ^^^ s.params.crcXorout ∧ KeepsBut [.crc, .result] s t

/-- R70 and R71 (with the polynomial reading the spec marks as general knowledge): from an initial value of 0, `crc16`
is the remainder of the message followed by 16 zero bits, divided by x^16 + CRC_POLY, with CRC_XOROUT at the end. -/
def Obligations.CrcIsPolynomialRemainder : Prop :=
  ∀ (P : Params) (m : List Byte), P.crcInit = 0 →
    crc16 P m = divisionRemainder P.crcPoly (m.flatMap bitsOf ++ List.replicate 16 false) ^^^ P.crcXorout

/-- R70 and R71: `crc16` is affine over exclusive-or for messages of one length. -/
def Obligations.CrcIsAffineOverXor : Prop :=
  ∀ (P : Params) (m n : List Byte), m.length = n.length →
    crc16 P (List.zipWith (· ^^^ ·) m n)
      = crc16 P m ^^^ crc16 P n ^^^ crc16 P (List.replicate m.length 0)

/-! ### Frame buffer, field and status commands (41_buffer.md) -/

/-- R80: NOP. -/
def Obligations.NopChangesNothing : Prop :=
  (∀ s : State, ∃ t, exec .nop s = .next t ∧ t.fb = s.fb ∧ KeepsBut [] s t) ∧ Encoding 0x00 BitsZ fun _ => .nop

/-- R81: FB_CLEAR. -/
def Obligations.FbClearEmptiesTheBuffer : Prop :=
  (∀ s : State, BufferValid s.params s.fb → ∃ t, exec .fbClear s = .next t
    ∧ (∀ a, a < s.params.frameLen → t.fb.read a = 0x00)
    ∧ (∀ a, s.params.frameLen ≤ a → t.fb.read a = s.fb.read a)
    ∧ t.len = 0 ∧ KeepsBut [.fb, .len] s t)
  ∧ Encoding 0x10 BitsZ fun _ => .fbClear

/-- R82: FB_SETLEN. -/
def Obligations.FbSetlenSetsTheCount : Prop :=
  (∀ (b : Byte) (s : State), ∃ t, exec (.fbSetlen b) s = .next t ∧ t.len = b ∧ KeepsBut [.len] s t)
  ∧ Encoding 0x14 BitsB fun w => .fbSetlen (byteOf w)

/-- R83: FB_PUSH. The stored byte is at index LEN as it was before, where that is below FRAME_LEN. -/
def Obligations.FbPushAppendsAndCounts : Prop :=
  (∀ (b : Byte) (s : State), s.fb.wf = true → ∃ t, exec (.fbPush b) s = .next t
    ∧ (s.len.toNat < s.params.frameLen → t.fb.read s.len.toNat = b)
    ∧ (∀ a, ¬ (s.len.toNat < s.params.frameLen ∧ a = s.len.toNat) → t.fb.read a = s.fb.read a)
    ∧ t.len.toNat = min (s.len.toNat + 1) 255 ∧ KeepsBut [.fb, .len] s t)
  ∧ Encoding 0x11 BitsB fun w => .fbPush (byteOf w)

/-- R84: FB_WRITE, and its illegal index. -/
def Obligations.FbWriteStoresOneByte : Prop :=
  (∀ (i b : Byte) (s : State), s.fb.wf = true →
    (i.toNat < s.params.frameLen → ∃ t, exec (.fbWrite i b) s = .next t
      ∧ t.fb.read i.toNat = b ∧ (∀ a, a ≠ i.toNat → t.fb.read a = s.fb.read a) ∧ KeepsBut [.fb] s t)
    ∧ (s.params.frameLen ≤ i.toNat → ∃ t, exec (.fbWrite i b) s = .next t ∧ IllegalEffect s t))
  ∧ Encoding 0x12 (fun w => w.extractLsb' 8 8 = 0) fun w => .fbWrite (indexOf w) (byteOf w)

/-- R85: FB_READ, and its illegal index. -/
def Obligations.FbReadReadsOneByte : Prop :=
  (∀ (i : Byte) (s : State),
    (i.toNat < s.params.frameLen → ∃ t, exec (.fbRead i) s = .next t
      ∧ t.result.toNat = (s.fb.read i.toNat).toNat ∧ KeepsBut [.result] s t)
    ∧ (s.params.frameLen ≤ i.toNat → ∃ t, exec (.fbRead i) s = .next t ∧ IllegalEffect s t))
  ∧ Encoding 0x13 (fun w => w.extractLsb' 0 16 = 0) fun w => .fbRead (indexOf w)

/-- R86: FB_GETLEN. -/
def Obligations.FbGetlenReadsTheCount : Prop :=
  (∀ s : State, ∃ t, exec .fbGetlen s = .next t ∧ t.result.toNat = s.len.toNat ∧ KeepsBut [.result] s t)
  ∧ Encoding 0x15 BitsZ fun _ => .fbGetlen

/-- R87 and R88: FLD_WR. A valid selector and a value that fits write that field and no other; everything else is illegal. -/
def Obligations.FldWrWritesTheSelectedField : Prop :=
  (∀ (id : BitVec 4) (v : Half) (s : State) (k : CmdField), cmdNames[id.toNat]? = some k →
    ((cmdWide k = true ∨ v.toNat < 256) → ∃ t, exec (.fldWr .cmd id v) s = .next t
      ∧ t.cf.read k = v ∧ (∀ j, j ≠ k → t.cf.read j = s.cf.read j) ∧ KeepsBut [.cf] s t)
    ∧ (¬ (cmdWide k = true ∨ v.toNat < 256) → ∃ t, exec (.fldWr .cmd id v) s = .next t ∧ IllegalEffect s t))
  ∧ (∀ (id : BitVec 4) (v : Half) (s : State) (k : TlmField), tlmNames[id.toNat]? = some k →
    ((tlmWide k = true ∨ v.toNat < 256) → ∃ t, exec (.fldWr .tlm id v) s = .next t
      ∧ t.tf.read k = v ∧ (∀ j, j ≠ k → t.tf.read j = s.tf.read j) ∧ KeepsBut [.tf] s t)
    ∧ (¬ (tlmWide k = true ∨ v.toNat < 256) → ∃ t, exec (.fldWr .tlm id v) s = .next t ∧ IllegalEffect s t))
  ∧ (∀ (id : BitVec 4) (v : Half) (s : State), 10 ≤ id.toNat →
      ∃ t, exec (.fldWr .cmd id v) s = .next t ∧ IllegalEffect s t)
  ∧ (∀ (id : BitVec 4) (v : Half) (s : State), 13 ≤ id.toNat →
      ∃ t, exec (.fldWr .tlm id v) s = .next t ∧ IllegalEffect s t)
  ∧ Encoding 0x18 (fun w => w.extractLsb' 20 3 = 0) fun w => .fldWr (bankBit w) (idBits w) (valueOf w)

/-- R87, R89 and R29: FLD_RD. A valid selector reads that field, zero-extended; id 10 of CF reads NOCHG, bit by bit as
R29 gives it; every other selector is illegal. -/
def Obligations.FldRdReadsTheSelectedField : Prop :=
  (∀ (id : BitVec 4) (s : State) (k : CmdField), cmdNames[id.toNat]? = some k →
    ∃ t, exec (.fldRd .cmd id) s = .next t ∧ t.result.toNat = (s.cf.read k).toNat ∧ KeepsBut [.result] s t)
  ∧ (∀ (id : BitVec 4) (s : State) (k : TlmField), tlmNames[id.toNat]? = some k →
    ∃ t, exec (.fldRd .tlm id) s = .next t ∧ t.result.toNat = (s.tf.read k).toNat ∧ KeepsBut [.result] s t)
  ∧ (∀ s : State, ∃ t, exec (.fldRd .cmd 10) s = .next t
    ∧ t.result.getLsbD 0 = decide (s.cf.script = s.params.sentinel8)
    ∧ t.result.getLsbD 1 = decide (s.cf.step = s.params.sentinel8)
    ∧ t.result.getLsbD 2 = decide (s.cf.tlmp = s.params.sentinel8)
    ∧ t.result.getLsbD 3 = decide (s.cf.servo = s.params.sentinel8)
    ∧ t.result.getLsbD 4 = decide (s.cf.laser = s.params.sentinel8)
    ∧ t.result.getLsbD 5 = decide (s.cf.pwmx = s.params.sentinel16)
    ∧ t.result.getLsbD 6 = decide (s.cf.pwmy = s.params.sentinel16)
    ∧ t.result.getLsbD 7 = decide (s.cf.angx = s.params.sentinel8)
    ∧ t.result.getLsbD 8 = decide (s.cf.angy = s.params.sentinel8)
    ∧ (∀ k, 9 ≤ k → t.result.getLsbD k = false) ∧ KeepsBut [.result] s t)
  ∧ (∀ (id : BitVec 4) (s : State), 11 ≤ id.toNat → ∃ t, exec (.fldRd .cmd id) s = .next t ∧ IllegalEffect s t)
  ∧ (∀ (id : BitVec 4) (s : State), 13 ≤ id.toNat → ∃ t, exec (.fldRd .tlm id) s = .next t ∧ IllegalEffect s t)
  ∧ Encoding 0x19 (fun w => w.extractLsb' 20 3 = 0 ∧ w.extractLsb' 0 16 = 0) fun w => .fldRd (bankBit w) (idBits w)

/-- R90: STAT_RD. -/
def Obligations.StatRdCopiesStatus : Prop :=
  (∀ s : State, ∃ t, exec .statRd s = .next t ∧ t.result.toNat = s.status.toNat ∧ KeepsBut [.result] s t)
  ∧ Encoding 0x1A BitsZ fun _ => .statRd

/-- R91: STAT_CLR clears bit 6 and no other bit. -/
def Obligations.StatClrClearsIllOnly : Prop :=
  (∀ s : State, ∃ t, exec .statClr s = .next t
    ∧ (∀ k, k < 8 → t.status.getLsbD k = (decide (k ≠ 6) && s.status.getLsbD k)) ∧ KeepsBut [.status] s t)
  ∧ Encoding 0x1B BitsZ fun _ => .statClr

/-! ### Encoders and decoders (42_codec.md) -/

/-- R101 and R50: ENC_CMD. -/
def Obligations.EncCmdBuildsTheCommandFrame : Prop :=
  (∀ s : State, StandardLengths s.params → s.fb.wf = true → ∃ t, exec .encCmd s = .next t
    ∧ FrameBuilt (cmdLayout s.params s.cf) s t)
  ∧ Encoding 0x20 BitsZ fun _ => .encCmd

/-- R102 and R51: ENC_TLM. -/
def Obligations.EncTlmBuildsTheTelemetryFrame : Prop :=
  (∀ s : State, StandardLengths s.params → s.fb.wf = true → ∃ t, exec .encTlm s = .next t
    ∧ FrameBuilt (tlmLayout s.params s.tf) s t)
  ∧ Encoding 0x21 BitsZ fun _ => .encTlm

/-- R103, R104, R106 and R107: DEC_CMD. -/
def Obligations.DecCmdChecksAndLoads : Prop :=
  (∀ s : State, StandardLengths s.params → ∃ t, exec .decCmd s = .next t
    ∧ CheckRecorded s.params.hdrCmd s t
    ∧ (checkCode s.params.hdrCmd s = 0 → CmdLoaded s.fb t.cf)
    ∧ (checkCode s.params.hdrCmd s ≠ 0 → t.cf = s.cf)
    ∧ KeepsBut [.status, .crc, .result, .cf] s t)
  ∧ Encoding 0x22 BitsZ fun _ => .decCmd

/-- R103, R105, R106 and R107: DEC_TLM. -/
def Obligations.DecTlmChecksAndLoads : Prop :=
  (∀ s : State, StandardLengths s.params → ∃ t, exec .decTlm s = .next t
    ∧ CheckRecorded s.params.hdrTlm s t
    ∧ (checkCode s.params.hdrTlm s = 0 → TlmLoaded s.fb t.tf)
    ∧ (checkCode s.params.hdrTlm s ≠ 0 → t.tf = s.tf)
    ∧ KeepsBut [.status, .crc, .result, .tf] s t)
  ∧ Encoding 0x23 BitsZ fun _ => .decTlm

/-- R57: the encoders write the reserved bytes as 0x00; a frame with a right length, header, satellite id and CRC
decodes whatever its reserved bytes hold. -/
def Obligations.ReservedBytesAreZeroAndIgnored : Prop :=
  ∀ s : State, StandardLengths s.params → s.fb.wf = true →
    (∃ t, exec .encCmd s = .next t ∧ ∀ a, 14 ≤ a → a ≤ 21 → t.fb.read a = 0x00)
    ∧ (∃ t, exec .encTlm s = .next t ∧ ∀ a, 19 ≤ a → a ≤ 21 → t.fb.read a = 0x00)
    ∧ (s.len = 24 → s.fb.read 1 = s.params.satId → payloadCrc s = storedCrc s →
        (s.fb.read 0 = s.params.hdrCmd → ∃ t, exec .decCmd s = .next t
          ∧ statusErr t.status = 0 ∧ statusDvalid t.status = true ∧ CmdLoaded s.fb t.cf)
        ∧ (s.fb.read 0 = s.params.hdrTlm → ∃ t, exec .decTlm s = .next t
          ∧ statusErr t.status = 0 ∧ statusDvalid t.status = true ∧ TlmLoaded s.fb t.tf))

/-- R108 (marked derived by the spec) under every accepted parameter record, whatever its payload length: encode then
decode leaves the bank as it was, and the other decode keeps its bank. The outcomes of R108 need the header (byte 0) and,
for SAT_MATCH and under `reject`, the satellite id (byte 1) inside the payload, since R103 and R107 compare those bytes of
FB; with an empty payload both encoders leave the same state, so no decoder can tell their frames apart. What a payload of
another length than 22 holds is the model's choice, log entries 4 and 5. -/
def Obligations.EncodeThenDecodeRoundTrips : Prop :=
  ∀ s : State, Accepted s → BufferValid s.params s.fb →
    (∃ t u v, exec .encCmd s = .next t ∧ exec .decCmd t = .next u ∧ u.cf = s.cf
      ∧ (2 ≤ s.params.payloadLen ∨ (1 ≤ s.params.payloadLen ∧ s.params.satIdPolicy = .ignore) →
          statusErr u.status = DecodeErr.none.code ∧ statusLenOk u.status = true ∧ statusCrcOk u.status = true
          ∧ statusDvalid u.status = true)
      ∧ (2 ≤ s.params.payloadLen → statusSatMatch u.status = true)
      ∧ exec .decTlm t = .next v ∧ v.tf = s.tf
      ∧ (1 ≤ s.params.payloadLen → statusErr v.status = DecodeErr.header.code))
    ∧ (∃ t u v, exec .encTlm s = .next t ∧ exec .decTlm t = .next u ∧ u.tf = s.tf
      ∧ (2 ≤ s.params.payloadLen ∨ (1 ≤ s.params.payloadLen ∧ s.params.satIdPolicy = .ignore) →
          statusErr u.status = DecodeErr.none.code ∧ statusLenOk u.status = true ∧ statusCrcOk u.status = true
          ∧ statusDvalid u.status = true)
      ∧ (2 ≤ s.params.payloadLen → statusSatMatch u.status = true)
      ∧ exec .decCmd t = .next v ∧ v.cf = s.cf
      ∧ (1 ≤ s.params.payloadLen → statusErr v.status = DecodeErr.header.code))
    ∧ (s.params.payloadLen = 0 → ∃ t, exec .encCmd s = .next t ∧ exec .encTlm s = .next t)

/-- R72 (and V-DEC-7, for every valid frame): with polynomial 0x1021, flipping one bit of a frame that decodes makes the
recomputed CRC differ from the stored one and the next decode fail, with HEADER for a bit of byte 0 (and of byte 1 under
`reject`), else with CRC; the banks are kept. -/
def Obligations.SingleBitErrorsAreCaught : Prop :=
  ∀ (s : State) (d : Instr) (h : Byte), (d = .decCmd ∧ h = s.params.hdrCmd) ∨ (d = .decTlm ∧ h = s.params.hdrTlm) →
    StandardLengths s.params → s.fb.wf = true → s.params.crcPoly = 0x1021 → checkCode h s = 0 →
    ∀ (i : Byte) (k : Nat), i.toNat < 24 → k < 8 →
      ∃ t u, exec (.fbWrite i (s.fb.read i.toNat ^^^ (1#8 <<< k))) s = .next t ∧ exec d t = .next u
        ∧ payloadCrc t ≠ storedCrc t ∧ statusDvalid u.status = false ∧ u.cf = s.cf ∧ u.tf = s.tf
        ∧ (i = 0 ∨ (i = 1 ∧ s.params.satIdPolicy = .reject) → statusErr u.status = DecodeErr.header.code)
        ∧ (¬ (i = 0 ∨ (i = 1 ∧ s.params.satIdPolicy = .reject)) → statusErr u.status = DecodeErr.crc.code)

/-- What R52 adds from general knowledge: "With `BE` and CRC_XOROUT = 0, running `crc16` over all 24 bytes of a valid
frame gives 0". -/
def Obligations.BigEndianFrameHasZeroResidue : Prop :=
  ∀ s : State, StandardLengths s.params → s.fb.wf = true → s.params.crcOrder = .be → s.params.crcXorout = 0 →
    (∃ t, exec .encCmd s = .next t ∧ crc16 s.params ((List.range 24).map fun a => t.fb.read a) = 0)
    ∧ (∃ t, exec .encTlm s = .next t ∧ crc16 s.params ((List.range 24).map fun a => t.fb.read a) = 0)

/-- R109 and R53: TLM_STAT, bit by bit. -/
def Obligations.TlmStatBuildsTheStatusMask : Prop :=
  (∀ (n : BitVec 4) (s : State), ∃ t, exec (.tlmStat n) s = .next t
    ∧ (∀ k, k < 4 → t.tf.smask.getLsbD k = n.getLsbD k)
    ∧ t.tf.smask.getLsbD 4 = statusLenOk s.status ∧ t.tf.smask.getLsbD 5 = statusCrcOk s.status
    ∧ t.tf.smask.getLsbD 6 = false ∧ t.tf.smask.getLsbD 7 = false
    ∧ (∀ j, j ≠ TlmField.smask → t.tf.read j = s.tf.read j) ∧ KeepsBut [.tf] s t)
  ∧ Encoding 0x24 (fun w => w.extractLsb' 4 20 = 0) fun w => .tlmStat (w.extractLsb' 0 4)

/-! ### Conversions (43_convert.md) -/

/-- R125 and R120: A2W. -/
def Obligations.AngleToWireByte : Prop :=
  (∀ (v : Half) (s : State), s.params.constraints = true → ∃ t, exec (.a2w v) s = .next t
    ∧ (t.result.toNat : Int) = limited v.toInt s.params.angMin s.params.angMax - s.params.angMin
    ∧ KeepsBut [.result] s t)
  ∧ Encoding 0x30 (fun w => w.extractLsb' 16 8 = 0) fun w => .a2w (valueOf w)

/-- R126 and R121: W2A. -/
def Obligations.WireByteToAngle : Prop :=
  (∀ (b : Byte) (s : State), s.params.constraints = true → ∃ t, exec (.w2a b) s = .next t
    ∧ t.result.toInt = limited b.toNat 0 (s.params.angMax - s.params.angMin) + s.params.angMin
    ∧ KeepsBut [.result] s t)
  ∧ Encoding 0x31 BitsB fun w => .w2a (byteOf w)

/-- R127 and R123: A2P, with no wrap in the 16-bit result under any record that meets R8. -/
def Obligations.AngleToPulseWidth : Prop :=
  (∀ (axis : Axis) (v : Half) (s : State), s.params.constraints = true → ∃ t, exec (.a2p axis v) s = .next t
    ∧ (t.result.toNat : Int) = axisMin s.params axis
        + mapQuotient s.params
            ((limited v.toInt s.params.angMin s.params.angMax - s.params.angMin)
              * (axisMax s.params axis - axisMin s.params axis))
            (s.params.angMax - s.params.angMin)
    ∧ KeepsBut [.result] s t)
  ∧ Encoding 0x32 (fun w => w.extractLsb' 17 7 = 0) fun w => .a2p (axisBit w) (valueOf w)

/-- R128 and R124: P2A, with its result in ANG_MIN to ANG_MAX under any record that meets R8. -/
def Obligations.PulseWidthToAngle : Prop :=
  (∀ (axis : Axis) (v : Half) (s : State), s.params.constraints = true → ∃ t, exec (.p2a axis v) s = .next t
    ∧ t.result.toInt = s.params.angMin
        + mapQuotient s.params
            ((limited v.toNat (axisMin s.params axis) (axisMax s.params axis) - axisMin s.params axis)
              * (s.params.angMax - s.params.angMin))
            (axisMax s.params axis - axisMin s.params axis)
    ∧ s.params.angMin ≤ t.result.toInt ∧ t.result.toInt ≤ s.params.angMax
    ∧ KeepsBut [.result] s t)
  ∧ Encoding 0x33 (fun w => w.extractLsb' 17 7 = 0) fun w => .p2a (axisBit w) (valueOf w)

/-- R129 (marked derived by the spec): the printed table, its equivalent form, and the end rows for angles outside -40
to 40. -/
def Obligations.AngleTableHolds : Prop :=
  ∀ P : Params, DefaultConversion P → P.mapRounding = .floor →
    angleTable.map (·.1) = (List.range 81).map (fun k => (k : Int) - 40)
    ∧ (∀ row ∈ angleTable, (a2w P row.1).toNat = row.2.1 ∧ (a2p P .x row.1).toNat = row.2.2.1
        ∧ (a2p P .y row.1).toNat = row.2.2.2)
    ∧ (∀ (axis : Axis) (k : Nat), k ≤ 80 →
        ((a2p P axis ((k : Int) - 40)).toNat : Int) = axisMin P axis + ((25 * k) >>> 1 : Nat))
    ∧ (∀ a : Int, a < -40 → a2w P a = a2w P (-40) ∧ ∀ axis, a2p P axis a = a2p P axis (-40))
    ∧ (∀ a : Int, 40 < a → a2w P a = a2w P 40 ∧ ∀ axis, a2p P axis a = a2p P axis 40)

/-- R130 (marked derived by the spec): the printed intervals, the widths outside them, and the equivalent form. -/
def Obligations.PulseTableHolds : Prop :=
  ∀ P : Params, DefaultConversion P → P.mapRounding = .floor →
    (∀ row ∈ pulseTable, ∀ p : Half,
      (row.2.1 ≤ p.toNat → p.toNat ≤ row.2.2.1 → p2a P .x p.toNat = row.1)
      ∧ (row.2.2.2.1 ≤ p.toNat → p.toNat ≤ row.2.2.2.2 → p2a P .y p.toNat = row.1))
    ∧ (∀ p : Half, 1000 ≤ p.toNat → p.toNat ≤ 2000 → ∃ row ∈ pulseTable, row.2.1 ≤ p.toNat ∧ p.toNat ≤ row.2.2.1)
    ∧ (∀ p : Half, 1100 ≤ p.toNat → p.toNat ≤ 2100 →
        ∃ row ∈ pulseTable, row.2.2.2.1 ≤ p.toNat ∧ p.toNat ≤ row.2.2.2.2)
    ∧ (∀ (axis : Axis) (p : Half), ((p.toNat : Int) < axisMin P axis → p2a P axis p.toNat = p2a P axis (axisMin P axis))
        ∧ (axisMax P axis < p.toNat → p2a P axis p.toNat = p2a P axis (axisMax P axis)))
    ∧ (∀ (axis : Axis) (q : Nat), q ≤ 1000 → p2a P axis (axisMin P axis + q) = -40 + ((2 * q / 25 : Nat) : Int))

/-- R131 (marked derived by the spec): the properties of the conversions. -/
def Obligations.ConversionsInvertAsStated : Prop :=
  ∀ P : Params, DefaultConversion P →
    (∀ a : Int, -40 ≤ a → a ≤ 40 → w2a P (a2w P a) = a)
    ∧ (∀ b : Byte, b.toNat ≤ 80 → a2w P (w2a P b) = b)
    ∧ (∀ b : Byte, 80 < b.toNat → w2a P b = 40 ∧ a2w P (w2a P b) = 80)
    ∧ a2p P .x (-40) = 1000 ∧ a2p P .x 0 = 1500 ∧ a2p P .x 40 = 2000
    ∧ a2p P .y (-40) = 1100 ∧ a2p P .y 0 = 1600 ∧ a2p P .y 40 = 2100
    ∧ (∀ axis, p2a P axis (a2p P axis (-40)).toNat = -40 ∧ p2a P axis (a2p P axis 0).toNat = 0
        ∧ p2a P axis (a2p P axis 40).toNat = 40)
    ∧ (P.mapRounding = .floor → ∀ (axis : Axis) (a : Int), -40 ≤ a → a ≤ 40 →
        p2a P axis (a2p P axis a).toNat = if a % 2 = 0 then a else a - 1)
    ∧ (P.mapRounding = .nearest → ∀ (axis : Axis) (a : Int), -40 ≤ a → a ≤ 40 →
        p2a P axis (a2p P axis a).toNat = a)
    ∧ (∀ (axis : Axis) (a b : Int), a ≤ b → (a2p P axis a).toNat ≤ (a2p P axis b).toNat)
    ∧ (∀ (axis : Axis) (p q : Int), p ≤ q → p2a P axis p ≤ p2a P axis q)

/-- R120 to R124 under every record that meets R8 (its width checks are log entries 6 and 18): the wire pair inverts on the
whole domain, and both maps do not decrease. R120's "never the sentinel 0xFF" holds where ANG_MAX - ANG_MIN is below 255;
at 255 R120's formula gives 0xFF (log entry 19). -/
def Obligations.ConversionsAreMonotoneForEveryRecord : Prop :=
  ∀ P : Params, P.constraints = true →
    (∀ a : Int, P.angMin ≤ a → a ≤ P.angMax → w2a P (a2w P a) = a)
    ∧ (∀ (axis : Axis) (a b : Int), a ≤ b → (a2p P axis a).toNat ≤ (a2p P axis b).toNat)
    ∧ (∀ (axis : Axis) (p q : Int), p ≤ q → p2a P axis p ≤ p2a P axis q)
    ∧ (∀ axis, (a2p P axis P.angMin).toNat = axisMin P axis ∧ (a2p P axis P.angMax).toNat = axisMax P axis)
    ∧ (P.angMax - P.angMin < 255 → ∀ a : Int, a2w P a ≠ 0xFF) ∧ (P.angMax - P.angMin = 255 → a2w P P.angMax = 0xFF)

/-! ### Encodings (30_encoding.md) -/

/-- R40 to R42: decoding the encoding of a command gives it back, for every command and every operand. -/
def Obligations.DecodeInvertsEncode : Prop := ∀ i : Instr, decode (encode i) = .command i

/-- R42: each legal word is the encoding of the one command it decodes to, so no two words are one command. -/
def Obligations.EncodeInvertsDecode : Prop := ∀ (w : Word) (i : Instr), decode w = .command i → encode i = w

/-- R42 against spec/opcode_table.json: a word decodes to a command exactly when a row of the table matches it, and then
the row is that command's and the only one. -/
def Obligations.DecoderAgreesWithTheOpcodeTable : Prop :=
  (∀ (w : Word) (i : Instr), decode w = .command i →
    i.row ∈ opcodeTable ∧ ∀ r ∈ opcodeTable, w &&& r.mask = r.pattern ↔ r = i.row)
  ∧ (∀ (w : Word) (r : OpcodeRow), r ∈ opcodeTable → w &&& r.mask = r.pattern → ∃ i, decode w = .command i ∧ i.row = r)

/-- R44: the unassigned opcodes. -/
def Obligations.UnassignedOpcodesAreIllegal : Prop :=
  ∀ (s : State) (w : Word), Accepted s →
    ((0x05 ≤ (w.extractLsb' 24 8).toNat ∧ (w.extractLsb' 24 8).toNat ≤ 0x0F) ∨ (w.extractLsb' 24 8).toNat = 0x16
      ∨ (w.extractLsb' 24 8).toNat = 0x17 ∨ (0x1C ≤ (w.extractLsb' 24 8).toNat ∧ (w.extractLsb' 24 8).toNat ≤ 0x1F)
      ∨ (0x25 ≤ (w.extractLsb' 24 8).toNat ∧ (w.extractLsb' 24 8).toNat ≤ 0x2F)
      ∨ 0x34 ≤ (w.extractLsb' 24 8).toNat) →
    ∃ t, step (withSample s ⟨false, true, w⟩) = .next t ∧ IllegalEffect s t

/-- R45: the example words of the spec's assembler decode to the commands they are written for. -/
def Obligations.ExampleWordsDecode : Prop :=
  decode 0x20000000 = .command .encCmd ∧ decode 0x11000037 = .command (.fbPush 0x37)
  ∧ decode 0x3000FFF4 = .command (.a2w (BitVec.ofInt 16 (-12))) ∧ decode 0x12030004 = .command (.fbWrite 3 0x04)
  ∧ decode 0x13160000 = .command (.fbRead 22) ∧ decode 0x180605DC = .command (.fldWr .cmd 6 1500)
  ∧ decode 0x19880000 = .command (.fldRd .tlm 8) ∧ decode 0x32010028 = .command (.a2p .y 40)
  ∧ decode 0x24000003 = .command (.tlmStat 0b0011)

/-- R45 over parsed lines (the model's choice, log entry 15). An assembled word is legal and decodes to a command; every
line whose operands fit assembles to the encoding of the command written out beside it; every operand that does not fit is
refused, and so is a line whose word would be illegal: an index of FRAME_LEN or more, `FLD_WR NOCHG`, a value of 256 or
more for an 8-bit field. The nine example lines of R45 give their words. -/
def Obligations.AssemblerEmitsLegalWordsOnly : Prop :=
  -- what is emitted
  (∀ (P : Params) (line : AsmLine) (w : Word), assemble P line = some w →
    ¬ IllegalFor P w ∧ ∃ i, operandsFit line = some i ∧ decode w = .command i)
  -- lines whose operands fit
  ∧ (∀ P : Params,
      assemble P .nop = some (encode .nop) ∧ assemble P .crcInit = some (encode .crcInit)
      ∧ assemble P .crcRead = some (encode .crcRead) ∧ assemble P .crcFrame = some (encode .crcFrame)
      ∧ assemble P .fbClear = some (encode .fbClear) ∧ assemble P .fbGetlen = some (encode .fbGetlen)
      ∧ assemble P .statRd = some (encode .statRd) ∧ assemble P .statClr = some (encode .statClr)
      ∧ assemble P .encCmd = some (encode .encCmd) ∧ assemble P .encTlm = some (encode .encTlm)
      ∧ assemble P .decCmd = some (encode .decCmd) ∧ assemble P .decTlm = some (encode .decTlm))
  ∧ (∀ (P : Params) (b : Byte),
      assemble P (.crcByte b.toNat) = some (encode (.crcByte b)) ∧ assemble P (.fbPush b.toNat) = some (encode (.fbPush b))
      ∧ assemble P (.fbSetlen b.toNat) = some (encode (.fbSetlen b)) ∧ assemble P (.w2a b.toNat) = some (encode (.w2a b)))
  ∧ (∀ (P : Params) (i b : Byte), i.toNat < P.frameLen →
      assemble P (.fbWrite i.toNat b.toNat) = some (encode (.fbWrite i b))
      ∧ assemble P (.fbRead i.toNat) = some (encode (.fbRead i)))
  ∧ (∀ (P : Params) (id : BitVec 4) (k : CmdField), cmdNames[id.toNat]? = some k →
      assemble P (.fldRd (.cmd k)) = some (encode (.fldRd .cmd id))
      ∧ ∀ v : Half, (cmdWide k = true ∨ v.toNat < 256) →
          assemble P (.fldWr (.cmd k) v.toNat) = some (encode (.fldWr .cmd id v)))
  ∧ (∀ (P : Params) (id : BitVec 4) (k : TlmField), tlmNames[id.toNat]? = some k →
      assemble P (.fldRd (.tlm k)) = some (encode (.fldRd .tlm id))
      ∧ ∀ v : Half, (tlmWide k = true ∨ v.toNat < 256) →
          assemble P (.fldWr (.tlm k) v.toNat) = some (encode (.fldWr .tlm id v)))
  ∧ (∀ P : Params, assemble P (.fldRd .nochg) = some (encode (.fldRd .cmd 10)))
  ∧ (∀ (P : Params) (n : BitVec 4), assemble P (.tlmStat n.toNat) = some (encode (.tlmStat n)))
  ∧ (∀ (P : Params) (axis : Axis) (v : Half),
      assemble P (.a2w v.toInt) = some (encode (.a2w v)) ∧ assemble P (.a2p axis v.toInt) = some (encode (.a2p axis v))
      ∧ assemble P (.p2a axis v.toNat) = some (encode (.p2a axis v)))
  -- lines that are refused
  ∧ (∀ (P : Params) (v : Int), ¬ (-32768 ≤ v ∧ v ≤ 32767) →
      assemble P (.a2w v) = none ∧ ∀ axis, assemble P (.a2p axis v) = none)
  ∧ (∀ (P : Params) (v : Int), ¬ (0 ≤ v ∧ v ≤ 255) →
      assemble P (.crcByte v) = none ∧ assemble P (.fbPush v) = none ∧ assemble P (.fbSetlen v) = none
      ∧ assemble P (.w2a v) = none ∧ ∀ i, assemble P (.fbWrite i v) = none)
  ∧ (∀ (P : Params) (i : Int), ¬ (0 ≤ i ∧ i ≤ 255 ∧ i < P.frameLen) →
      assemble P (.fbRead i) = none ∧ ∀ b, assemble P (.fbWrite i b) = none)
  ∧ (∀ (P : Params) (v : Int), ¬ (0 ≤ v ∧ v ≤ 65535) →
      (∀ f, assemble P (.fldWr f v) = none) ∧ ∀ axis, assemble P (.p2a axis v) = none)
  ∧ (∀ (P : Params) (v : Int), ¬ (0 ≤ v ∧ v ≤ 255) →
      (∀ k, cmdWide k = false → assemble P (.fldWr (.cmd k) v) = none)
      ∧ ∀ k, tlmWide k = false → assemble P (.fldWr (.tlm k) v) = none)
  ∧ (∀ (P : Params) (v : Int), assemble P (.fldWr .nochg v) = none)
  ∧ (∀ (P : Params) (v : Int), ¬ (0 ≤ v ∧ v ≤ 15) → assemble P (.tlmStat v) = none)
  -- the example column
  ∧ (∀ P : Params, 22 < P.frameLen →
      assemble P .encCmd = some 0x20000000 ∧ assemble P (.fbPush 0x37) = some 0x11000037
      ∧ assemble P (.a2w (-12)) = some 0x3000FFF4 ∧ assemble P (.fbWrite 3 0x04) = some 0x12030004
      ∧ assemble P (.fbRead 22) = some 0x13160000 ∧ assemble P (.fldWr (.cmd .pwmx) 1500) = some 0x180605DC
      ∧ assemble P (.fldRd (.tlm .pwmy)) = some 0x19880000 ∧ assemble P (.a2p .y 40) = some 0x32010028
      ∧ assemble P (.tlmStat 0b0011) = some 0x24000003)

/-- R46: what the three pseudo-instructions leave. -/
def Obligations.PseudoInstructionsExpand : Prop :=
  (∀ (bs : List Byte) (s : State), bs.length = 24 → s.params.frameLen = 24 → BufferValid s.params s.fb →
    ∃ t, execAll (rxFrame bs) s = .next t
      ∧ (∀ a, a < 24 → t.fb.read a = bs.getD a 0) ∧ (∀ a, 24 ≤ a → t.fb.read a = s.fb.read a)
      ∧ t.len = 24 ∧ KeepsBut [.fb, .len] s t)
  ∧ (∀ (v : Word) (s : State), ∃ t, execAll (wrUptime v) s = .next t
      ∧ t.tf.uphi ++ t.tf.uplo = v
      ∧ (∀ j, j ≠ TlmField.uplo → j ≠ TlmField.uphi → t.tf.read j = s.tf.read j) ∧ KeepsBut [.tf] s t)
  ∧ (∀ (bs : List Byte) (s : State), ∃ t, execAll (crcOver bs) s = .next t
      ∧ t.result.toNat = (crc16 s.params bs).toNat ∧ KeepsBut [.crc, .result] s t)

/-! ### The whole machine -/

/-- R20, R42 and R143: a step on a presented word that decodes to a command is that command's meaning, run on the state
without the sample; the outcomes are the same, whatever they are. How a word is presented is log entry 2. -/
def Obligations.StepRunsTheDecodedCommand : Prop :=
  ∀ (s : State) (w : Word) (i : Instr), Accepted s → decode w = .command i →
    step (withSample s ⟨false, true, w⟩) = exec i s

/-- R142: exactly the illegal words set ILL; one that is illegal sets it and changes nothing else; and ILL stays 1 until
STAT_CLR or reset. -/
def Obligations.IllegalCommandsSetIllAndNothingElse : Prop :=
  (∀ (s : State) (w : Word), Accepted s → IllegalFor s.params w →
    ∃ t, step (withSample s ⟨false, true, w⟩) = .next t ∧ IllegalEffect s t)
  ∧ (∀ (s : State) (w : Word), Accepted s → ¬ IllegalFor s.params w →
    ∃ i t, decode w = .command i ∧ i.wf s.params = true ∧ step (withSample s ⟨false, true, w⟩) = .next t
      ∧ exec i s = .next t ∧ statusIll t.status = (statusIll s.status && decide (w ≠ 0x1B000000)))
  ∧ (∀ s t : State, step s = .next t → statusIll s.status = true → statusIll t.status = false →
    ∃ p rest, s.inputs = p :: rest ∧ (p.rst = true ∨ (p.cmdValid = true ∧ p.cmd = 0x1B000000)))

/-- R41, R142: a command whose operands are out of range (`Instr.wf` is false) sets ILL and changes nothing else. -/
def Obligations.IllFormedOperandsSetIll : Prop :=
  ∀ (i : Instr) (s : State), i.wf s.params = false → ∃ t, exec i s = .next t ∧ IllegalEffect s t

/-- R160 and R161: `rst` puts every register at its reset value. That a command presented with it in the same sample has
no effect and that the parameters are kept is R161, which the spec marks as derived, by log entry 12. `State.reset` is that
state under the default record. R160's "NOCHG reads 0 after reset" holds where no sentinel is 0 (log entry 20). -/
def Obligations.ResetCancelsAndClears : Prop :=
  (∀ (s : State) (v : Bool) (w : Word), Accepted s → ∃ t, step (withSample s ⟨true, v, w⟩) = .next t
    ∧ (∀ a, t.fb.read a = 0x00) ∧ t.len = 0 ∧ t.crc = s.params.crcInit ∧ t.result = 0 ∧ t.status = 0
    ∧ (∀ k, t.cf.read k = 0) ∧ (∀ k, t.tf.read k = 0) ∧ t.params = s.params
    ∧ (s.params.sentinel8 ≠ 0 → s.params.sentinel16 ≠ 0 → noChange t.params t.cf = 0)
    ∧ (s.params = Config.defaultParams → { t with inputs := [] } = State.reset))

/-- R20: with no reset asserted and no command presented, or with no sample to come, nothing changes (log entry 2). -/
def Obligations.IdlePortsChangeNothing : Prop :=
  (∀ (s : State) (w : Word), Accepted s → step (withSample s ⟨false, false, w⟩) = .next s)
  ∧ (∀ s : State, Accepted s → s.inputs = [] → step s = .next s)

/-- R171 and R8: under an accepted record every step has a next state, which has the same record and one sample fewer to
come; a record that R8 does not accept is refused, and no other is (the width checks of R8 are log entries 6 and 18). -/
def Obligations.EveryStepCompletesUnderAnAcceptedRecord : Prop :=
  (∀ s : State, Accepted s → ∃ t, step s = .next t ∧ t.params = s.params ∧ t.inputs = s.inputs.tail)
  ∧ (∀ s : State, s.params.constraints = false → step s = .refused .parametersRejected)
  ∧ (∀ P : Params, P.constraints = true ↔
      P.frameLen = P.payloadLen + 2 ∧ P.angMin < P.angMax ∧ P.wireOffset = -P.angMin ∧ P.xMinUs < P.xMaxUs
      ∧ P.yMinUs < P.yMaxUs ∧ 0 ≤ P.angMax - P.angMin ∧ P.angMax - P.angMin ≤ 255 ∧ P.hdrCmd ≠ P.hdrTlm
      ∧ P.frameLen < 2 ^ 8 ∧ -(2 ^ 15) ≤ P.angMin ∧ P.angMax < 2 ^ 15)

/-- The reset state meets the invariant. -/
def Obligations.ResetMeetsTheInvariant : Prop := BlockInvariant State.reset

/-- Every step keeps the invariant: the record accepted, FB canonical and inside 0 to FRAME_LEN-1, STATUS consistent
(bit 7 reads 0, DVALID means NONE with both flags, CRC_OK implies LEN_OK). -/
def Obligations.EveryStepKeepsTheInvariant : Prop := ∀ s t : State, BlockInvariant s → step s = .next t → BlockInvariant t

/-- R31 (marked derived by the spec): every field holds a value below 2 to the power of its width, in every state, and a
value that FLD_WR writes is held whole. -/
def Obligations.FieldsHoldValuesOfTheirWidth : Prop :=
  (∀ (s : State) (k : CmdField), (s.cf.read k).toNat < 2 ^ (if cmdWide k then 16 else 8))
  ∧ (∀ (s : State) (k : TlmField), (s.tf.read k).toNat < 2 ^ (if tlmWide k then 16 else 8))
  ∧ (∀ (bank : Bank) (id : BitVec 4) (v : Half) (s t : State), exec (.fldWr bank id v) s = .next t →
      statusIll s.status = false → statusIll t.status = false →
      (bank = .cmd → ∃ k, cmdNames[id.toNat]? = some k ∧ t.cf.read k = v)
      ∧ (bank = .tlm → ∃ k, tlmNames[id.toNat]? = some k ∧ t.tf.read k = v))

/-- R24 to R28, R30: which commands may change which register, over all commands and states. -/
def Obligations.OnlyNamedCommandsWriteEachRegister : Prop :=
  ∀ (i : Instr) (s t : State), exec i s = .next t →
    (t.fb ≠ s.fb → i = .fbClear ∨ (∃ b, i = .fbPush b) ∨ (∃ j b, i = .fbWrite j b) ∨ i = .encCmd ∨ i = .encTlm)
    ∧ (t.len ≠ s.len → i = .fbClear ∨ (∃ b, i = .fbPush b) ∨ (∃ b, i = .fbSetlen b) ∨ i = .encCmd ∨ i = .encTlm)
    ∧ (t.crc ≠ s.crc → i = .crcInit ∨ (∃ b, i = .crcByte b) ∨ i = .crcFrame ∨ i = .encCmd ∨ i = .encTlm
        ∨ i = .decCmd ∨ i = .decTlm)
    ∧ (t.result ≠ s.result → i = .crcRead ∨ i = .crcFrame ∨ (∃ j, i = .fbRead j) ∨ i = .fbGetlen
        ∨ (∃ bank id, i = .fldRd bank id) ∨ i = .statRd ∨ i = .encCmd ∨ i = .encTlm ∨ i = .decCmd ∨ i = .decTlm
        ∨ (∃ v, i = .a2w v) ∨ (∃ b, i = .w2a b) ∨ (∃ ax v, i = .a2p ax v) ∨ (∃ ax v, i = .p2a ax v))
    ∧ (t.cf ≠ s.cf → (∃ id v, i = .fldWr .cmd id v) ∨ i = .decCmd)
    ∧ (t.tf ≠ s.tf → (∃ id v, i = .fldWr .tlm id v) ∨ i = .decTlm ∨ ∃ n, i = .tlmStat n)
    ∧ t.params = s.params ∧ t.inputs = s.inputs

/-- R91 and R141, over every step: ERR, LEN_OK, CRC_OK, SAT_MATCH and DVALID change only on a reset or on the words of
DEC_CMD and DEC_TLM. -/
def Obligations.OnlyDecodesAndResetWriteDecodeOutcomes : Prop :=
  ∀ s t : State, step s = .next t →
    t.status.extractLsb' 0 6 ≠ s.status.extractLsb' 0 6 →
    ∃ p rest, s.inputs = p :: rest ∧ (p.rst = true ∨
      (p.cmdValid = true ∧ (p.cmd = 0x22000000 ∨ p.cmd = 0x23000000)))

/-- R38 (marked derived by the spec): FB_READ, FB_GETLEN, FLD_RD, STAT_RD and CRC_READ, when legal, change only RESULT,
and running one again changes nothing. -/
def Obligations.ReadsHaveNoSideEffect : Prop :=
  ∀ (i : Instr) (s : State),
    i ∈ [.fbGetlen, .statRd, .crcRead] ∨ (∃ j, i = .fbRead j) ∨ (∃ bank id, i = .fldRd bank id) →
    i.wf s.params = true →
    ∃ t, exec i s = .next t ∧ t = { s with result := t.result } ∧ exec i t = .next t

/-- R104, R105 and R172 (marked derived by the spec): after a failed decode FB, LEN and both banks are as before, under
every record. -/
def Obligations.FailedDecodeKeepsFrameAndBanks : Prop :=
  ∀ (s : State) (d : Instr), d = .decCmd ∨ d = .decTlm → ∃ t, exec d s = .next t
    ∧ t.fb = s.fb ∧ t.len = s.len
    ∧ (statusDvalid t.status = false → t.cf = s.cf ∧ t.tf = s.tf)
    ∧ (statusDvalid t.status = true ↔ statusErr t.status = DecodeErr.none.code)

/-- R83, R24 and R163, for any number of received bytes: FB_CLEAR and one FB_PUSH a byte leave LEN at the count, saturated
at 255, and FB with the bytes that fit; a count other than 24 makes both decodes report LENGTH. -/
def Obligations.ReceivedByteCountDecidesLength : Prop :=
  ∀ (bs : List Byte) (s : State), StandardLengths s.params → ∃ t, execAll (rxFrame bs) s = .next t
    ∧ t.len.toNat = min bs.length 255
    ∧ (∀ a, a < 24 → t.fb.read a = bs.getD a 0x00)
    ∧ (bs.length ≠ 24 → ∀ d, d = .decCmd ∨ d = .decTlm → ∃ u, exec d t = .next u
        ∧ statusErr u.status = DecodeErr.length.code ∧ u.cf = s.cf ∧ u.tf = s.tf)

/-- R54, R55 and R56 for a reader, and that the block passes the bytes through: the telemetry angle of a byte is its
two's-complement value (which the spec marks as general knowledge, log entry 14), the scan states are numbered 0 to 5 in
the listing order, the script codes are the table of R55, and ENC_TLM sends T_MODE, T_ANGX and
T_ANGY, and ENC_CMD C_SCRIPT, as stored. -/
def Obligations.CodedBytesPassThrough : Prop :=
  (∀ a : Int, -128 ≤ a → a ≤ 127 →
    telemetryAngleOf (telemetryAngleByte a) = a ∧ ((telemetryAngleByte a).toNat : Int) = a % 256)
  ∧ telemetryAngleByte 0 = 0x00 ∧ telemetryAngleByte (-40) = 0xD8 ∧ telemetryAngleByte 40 = 0x28
  ∧ (ScanMode.idle.code = 0 ∧ ScanMode.scanHorizontal.code = 1 ∧ ScanMode.scanVertical.code = 2
    ∧ ScanMode.scanDiagonal1.code = 3 ∧ ScanMode.scanDiagonal2.code = 4 ∧ ScanMode.manual.code = 5)
  ∧ (∀ (m : ScanMode) (b : Byte), scanModeOf b = some m ↔ b = m.code)
  ∧ (scriptActionOf 1 = .scanHorizontalLaserOn ∧ scriptActionOf 2 = .stopAll ∧ scriptActionOf 3 = .scanHorizontalLaserOn
    ∧ scriptActionOf 4 = .scanVerticalLaserOn ∧ scriptActionOf 5 = .scanDiagonal1LaserOn
    ∧ scriptActionOf 6 = .scanDiagonal2LaserOn ∧ scriptActionOf 0xFF = .noModeChange
    ∧ ∀ b : Byte, b = 0 ∨ 6 < b.toNat → b ≠ 0xFF → scriptActionOf b = .ignored)
  ∧ (∀ s : State, StandardLengths s.params → s.fb.wf = true →
      (∃ t, exec .encTlm s = .next t ∧ t.fb.read 9 = s.tf.mode ∧ t.fb.read 15 = s.tf.angx ∧ t.fb.read 16 = s.tf.angy)
      ∧ (∃ t, exec .encCmd s = .next t ∧ t.fb.read 3 = s.cf.script))

/-- R100 to R105 under every accepted record, whatever its payload length (for a length other than 22 the model's choice,
log entries 4 and 5): the encoders build the frame of that length, and the decoders run the check of R103 on it, load
every named byte that the payload holds and leave the others as they were. -/
def Obligations.FramesOfEveryPayloadLength : Prop :=
  ∀ s : State, Accepted s → s.fb.wf = true →
    (∃ t, exec .encCmd s = .next t ∧ FrameBuiltOfLength (cmdLayout s.params s.cf) s t)
    ∧ (∃ t, exec .encTlm s = .next t ∧ FrameBuiltOfLength (tlmLayout s.params s.tf) s t)
    ∧ (∃ t, exec .decCmd s = .next t ∧ t.crc = crcOfLength s ∧ t.result.toNat = (crcOfLength s).toNat
      ∧ (statusErr t.status = DecodeErr.none.code ↔ ChecksPass s.params.hdrCmd s)
      ∧ (ChecksPass s.params.hdrCmd s →
          ∀ k, 2 ≤ k → k < 14 → cmdLayout s.params t.cf k =
            if k < s.params.payloadLen then s.fb.read k else cmdLayout s.params s.cf k)
      ∧ (¬ ChecksPass s.params.hdrCmd s → t.cf = s.cf) ∧ KeepsBut [.status, .crc, .result, .cf] s t)
    ∧ (∃ t, exec .decTlm s = .next t ∧ t.crc = crcOfLength s ∧ t.result.toNat = (crcOfLength s).toNat
      ∧ (statusErr t.status = DecodeErr.none.code ↔ ChecksPass s.params.hdrTlm s)
      ∧ (ChecksPass s.params.hdrTlm s →
          ∀ k, 2 ≤ k → k < 19 → tlmLayout s.params t.tf k =
            if k < s.params.payloadLen then s.fb.read k else tlmLayout s.params s.tf k)
      ∧ (¬ ChecksPass s.params.hdrTlm s → t.tf = s.tf) ∧ KeepsBut [.status, .crc, .result, .tf] s t)
end

