-- ==== Sys2Proof/Laws/Assembler.lean ====
section
/-! SUPPORT. What the operand checks of the assembler and `assemble` answer, each outcome once. -/

namespace Sys2Proof.Machine

theorem fitsUnsigned_eq_none {n : Nat} {v : Int} (h : ¬ (0 ≤ v ∧ v < 2 ^ n)) : fitsUnsigned n v = none := if_neg h

@[simp] theorem fitsUnsigned_toNat {n : Nat} (b : BitVec n) : fitsUnsigned n (b.toNat : Int) = some b := by
  have hlt : (b.toNat : Int) < 2 ^ n := by exact_mod_cast b.isLt
  simp [fitsUnsigned, hlt]

/-- An operand that fits is the number its bits stand for. -/
theorem fitsUnsigned_eq_some {n : Nat} {v : Int} {b : BitVec n} :
    fitsUnsigned n v = some b ↔ v = (b.toNat : Int) := by
  constructor
  · intro h
    simp only [fitsUnsigned] at h
    split at h
    · next hv =>
      cases h
      rw [BitVec.toNat_ofInt, Int.emod_eq_of_lt hv.1 (by exact_mod_cast hv.2), Int.toNat_of_nonneg hv.1]
    · cases h
  · rintro rfl
    exact fitsUnsigned_toNat b

theorem fitsS16_eq_none {v : Int} (h : ¬ (-32768 ≤ v ∧ v ≤ 32767)) : fitsS16 v = none := if_neg h

@[simp] theorem fitsS16_toInt (v : Half) : fitsS16 v.toInt = some v := by
  have hlo := BitVec.le_toInt v
  have hhi := BitVec.toInt_lt (x := v)
  simp [fitsS16, show -32768 ≤ v.toInt by omega, show v.toInt ≤ 32767 by omega]

/-- What a line assembles to: the encoding of the command it names, where that command is well-formed. -/
theorem assemble_eq_some {P : Params} {line : AsmLine} {w : Word} :
    assemble P line = some w ↔ ∃ i, operandsFit line = some i ∧ i.wf P = true ∧ encode i = w := by
  simp [assemble, Option.filter_eq_some_iff, and_assoc]

theorem assemble_eq_none {P : Params} {line : AsmLine} :
    assemble P line = none ↔ ∀ i, operandsFit line = some i → i.wf P = false := by
  simp [assemble]

end Sys2Proof.Machine
end

