-- ==== Sys2Proof/Laws/Memory.lean ====
section
/-! SUPPORT. The laws of the frame buffer: reads after writes, the canonical form, equal reads are equal buffers. -/

namespace Sys2Proof.Machine

@[simp] theorem Memory.read_nil (a : Nat) : read [] a = 0 := rfl

@[simp] theorem Memory.wf_nil : wf [] = true := rfl

@[simp] theorem Memory.below_nil (n : Nat) : below n [] = true := rfl

theorem Memory.wfFrom_cons (lo k : Nat) (b : Byte) (m : Memory) :
    wfFrom lo ((k, b) :: m) = true ↔ lo ≤ k ∧ b ≠ 0 ∧ wfFrom (k + 1) m = true := by
  simp [wfFrom, and_assoc]

theorem Memory.wfFrom_mono {lo lo' : Nat} (h : lo' ≤ lo) : ∀ {m : Memory}, wfFrom lo m = true → wfFrom lo' m = true
  | [], _ => rfl
  | (k, b) :: m, hm => by
    rw [wfFrom_cons] at hm ⊢
    exact ⟨h.trans hm.1, hm.2⟩

/-- Below its first index a canonical buffer reads 0x00. -/
theorem Memory.read_of_lt : ∀ {m : Memory} {lo a : Nat}, wfFrom lo m = true → a < lo → read m a = 0
  | [], _, _, _, _ => rfl
  | (k, b) :: m, lo, a, hm, ha => by
    rw [wfFrom_cons] at hm
    have : a ≠ k := by omega
    simp only [read, this, if_false]
    exact read_of_lt hm.2.2 (by omega)

/-- Read after write. -/
theorem Memory.read_write_from : ∀ {m : Memory} {lo : Nat} (a : Nat) (b : Byte) (k : Nat), wfFrom lo m = true →
    read (write m a b) k = if k = a then b else read m k
  | [], lo, a, b, k, _ => by
    simp only [write]
    split
    · next hb => rw [hb]; split <;> rfl
    · rfl
  | (j, c) :: m, lo, a, b, k, hm => by
    rw [wfFrom_cons] at hm
    simp only [write]
    split
    · split
      · next hlt hb =>
        split
        · next hk =>
          subst hk hb
          have : k ≠ j := by omega
          simp only [read, this, if_false]
          exact read_of_lt hm.2.2 (by omega)
        · rfl
      · simp only [read]
    · split
      · next hlt heq =>
        subst heq
        split
        · next hb =>
          split
          · next hk => subst hk hb; exact read_of_lt hm.2.2 (by omega)
          · next hk => simp [read, hk]
        · simp only [read]; split <;> simp_all
      · next hlt hne =>
        simp only [read]
        rw [read_write_from a b k hm.2.2]
        split <;> split <;> simp_all

/-- Read after write in a canonical buffer (R10): the byte written at its index, every other byte as before. -/
theorem Memory.read_write {m : Memory} (hm : wf m = true) (a : Nat) (b : Byte) (k : Nat) :
    read (write m a b) k = if k = a then b else read m k := read_write_from a b k hm

theorem Memory.wfFrom_write : ∀ {m : Memory} {lo : Nat} (a : Nat) (b : Byte), wfFrom lo m = true → lo ≤ a →
    wfFrom lo (write m a b) = true
  | [], lo, a, b, _, ha => by
    simp only [write]
    split
    · rfl
    · next hb => rw [wfFrom_cons]; exact ⟨ha, hb, rfl⟩
  | (j, c) :: m, lo, a, b, hm, ha => by
    have hm' := hm
    rw [wfFrom_cons] at hm
    simp only [write]
    split
    · split
      · exact hm'
      · next hlt hb =>
        rw [wfFrom_cons, wfFrom_cons]
        exact ⟨ha, hb, by omega, hm.2⟩
    · split
      · next hlt heq =>
        subst heq
        split
        · exact wfFrom_mono (by omega) hm.2.2
        · next hb => rw [wfFrom_cons]; exact ⟨ha, hb, hm.2.2⟩
      · next hlt hne =>
        rw [wfFrom_cons]
        exact ⟨hm.1, hm.2.1, wfFrom_write a b hm.2.2 (by omega)⟩

/-- A write keeps the canonical form. -/
theorem Memory.wf_write {m : Memory} (hm : wf m = true) (a : Nat) (b : Byte) : wf (write m a b) = true :=
  wfFrom_write a b hm (Nat.zero_le a)

/-- A write below `n` keeps every listed index below `n`. -/
theorem Memory.below_write {n : Nat} {a : Nat} (ha : a < n) (b : Byte) : ∀ {m : Memory}, below n m = true →
    below n (write m a b) = true
  | [], _ => by
    simp only [write]
    split <;> simp [below, ha]
  | (j, c) :: m, hm => by
    simp only [below, List.all_cons, Bool.and_eq_true, decide_eq_true_eq] at hm
    simp only [write]
    split
    · split <;> simp [below, hm, ha]
    · split
      · split <;> simp [below, hm, ha]
      · have := below_write ha b (m := m) hm.2
        simp only [below] at this
        simp [below, hm.1, this]

/-- Above every listed index a buffer reads 0x00 (R34). -/
theorem Memory.read_of_below {n a : Nat} (ha : n ≤ a) : ∀ {m : Memory}, below n m = true → read m a = 0
  | [], _ => rfl
  | (j, c) :: m, hm => by
    simp only [below, List.all_cons, Bool.and_eq_true, decide_eq_true_eq] at hm
    have : a ≠ j := by omega
    simp only [read, this, if_false]
    exact read_of_below ha hm.2

theorem Memory.ext_from : ∀ {m m' : Memory} {lo : Nat}, wfFrom lo m = true → wfFrom lo m' = true →
    (∀ a, read m a = read m' a) → m = m'
  | [], [], _, _, _, _ => rfl
  | [], (j, c) :: m', lo, _, h', e => by
    rw [wfFrom_cons] at h'
    have := e j
    simp [read] at this
    exact absurd this.symm h'.2.1
  | (j, c) :: m, [], lo, h, _, e => by
    rw [wfFrom_cons] at h
    have := e j
    simp [read] at this
    exact absurd this h.2.1
  | (j, c) :: m, (j', c') :: m', lo, h, h', e => by
    rw [wfFrom_cons] at h h'
    have hj : j = j' := by
      rcases Nat.lt_trichotomy j j' with hlt | heq | hgt
      · have := e j
        have ne : j ≠ j' := by omega
        simp [read, ne, read_of_lt h'.2.2 (show j < j' + 1 by omega)] at this
        exact absurd this h.2.1
      · exact heq
      · have := e j'
        have ne : j' ≠ j := by omega
        simp [read, ne, read_of_lt h.2.2 (show j' < j + 1 by omega)] at this
        exact absurd this.symm h'.2.1
    subst hj
    have hc : c = c' := by simpa [read] using e j
    subst hc
    have : m = m' := by
      refine ext_from h.2.2 h'.2.2 fun a => ?_
      by_cases ha : a = j
      · subst ha; rw [read_of_lt h.2.2 (by omega), read_of_lt h'.2.2 (by omega)]
      · simpa [read, ha] using e a
    rw [this]

/-- Two canonical buffers that read alike are the same data. -/
theorem Memory.ext {m m' : Memory} (h : wf m = true) (h' : wf m' = true) (e : ∀ a, read m a = read m' a) : m = m' :=
  ext_from h h' e

/-- Writing a list of bytes keeps the canonical form. -/
theorem Memory.wf_writeBytes : ∀ (bs : List Byte) {m : Memory} (a : Nat), wf m = true → wf (writeBytes m a bs) = true
  | [], _, _, h => h
  | b :: bs, _, a, h => wf_writeBytes bs (a + 1) (wf_write h a b)

theorem Memory.below_writeBytes {n : Nat} : ∀ (bs : List Byte) {m : Memory} (a : Nat), a + bs.length ≤ n → below n m = true →
    below n (writeBytes m a bs) = true
  | [], _, _, _, h => h
  | b :: bs, _, a, ha, h => by
    simp only [List.length_cons] at ha
    exact below_writeBytes bs (a + 1) (by omega) (below_write (by omega) b h)

/-- What reads after a list of bytes is written: the bytes at their indices, every other byte as before. -/
theorem Memory.read_writeBytes : ∀ (bs : List Byte) {m : Memory} (a k : Nat), wf m = true →
    read (writeBytes m a bs) k = if a ≤ k ∧ k < a + bs.length then bs.getD (k - a) 0 else read m k
  | [], m, a, k, _ => by
    simp only [writeBytes, List.length_nil]
    rw [if_neg (by omega)]
  | b :: bs, m, a, k, h => by
    simp only [writeBytes, List.length_cons]
    rw [read_writeBytes bs (a + 1) k (wf_write h a b), read_write h]
    by_cases hk : k = a
    · subst hk
      simp
    · by_cases hlt : a + 1 ≤ k ∧ k < a + 1 + bs.length
      · rw [if_pos hlt, if_pos (by omega)]
        have : k - a = (k - (a + 1)) + 1 := by omega
        rw [this, List.getD_cons_succ]
      · rw [if_neg hlt, if_neg hk, if_neg (by omega)]

@[simp] theorem Memory.length_bytes (m : Memory) : ∀ (n a : Nat), (bytes m a n).length = n
  | 0, _ => rfl
  | n + 1, a => by simp [bytes, length_bytes m n (a + 1)]

theorem Memory.getD_bytes (m : Memory) : ∀ (n a k : Nat), k < n → (bytes m a n).getD k 0 = read m (a + k)
  | n + 1, a, 0, _ => by simp [bytes]
  | n + 1, a, k + 1, h => by
    rw [bytes, List.getD_cons_succ, getD_bytes m n (a + 1) k (by omega)]
    congr 1
    omega

/-- Buffers that agree on a range have the same bytes there. -/
theorem Memory.bytes_congr {m m' : Memory} : ∀ (n a : Nat), (∀ k, a ≤ k → k < a + n → read m k = read m' k) →
    bytes m a n = bytes m' a n
  | 0, _, _ => rfl
  | n + 1, a, h => by
    rw [bytes, bytes, h a (by omega) (by omega), bytes_congr n (a + 1) fun k h1 h2 => h k (by omega) (by omega)]

/-- The bytes of a range whose reads are a list's elements are that list. -/
theorem Memory.bytes_eq_of_getD {m : Memory} : ∀ (bs : List Byte) (a : Nat),
    (∀ k, k < bs.length → read m (a + k) = bs.getD k 0) → bytes m a bs.length = bs
  | [], _, _ => rfl
  | b :: bs, a, h => by
    rw [List.length_cons, bytes]
    have h0 : read m a = b := by simpa using h 0 (by simp)
    rw [h0, bytes_eq_of_getD bs (a + 1) fun k hk => by
      have := h (k + 1) (by simp; omega)
      rw [List.getD_cons_succ] at this
      rw [← this]
      congr 1
      omega]

/-- A run of bytes is the list of its reads. -/
theorem Memory.bytes_eq_map (m : Memory) : ∀ n a, m.bytes a n = (List.range' a n).map fun k => m.read k
  | 0, _ => rfl
  | n + 1, a => by simp [bytes, List.range'_succ, bytes_eq_map m n (a + 1)]

theorem Memory.bytes_zero_eq_map (m : Memory) (n : Nat) : m.bytes 0 n = (List.range n).map fun k => m.read k := by
  rw [bytes_eq_map, List.range_eq_range']

end Sys2Proof.Machine
end

