-- ==== Sys2Proof/Laws/State.lean ====
section
/-! SUPPORT. One lemma per field per update of State, and what the shared operations over State do. -/

namespace Sys2Proof.Machine

@[simp] theorem State.setFb_params (s : State) (v : Memory) : (s.setFb v).params = s.params := rfl
@[simp] theorem State.setFb_fb (s : State) (v : Memory) : (s.setFb v).fb = v := rfl
@[simp] theorem State.setFb_len (s : State) (v : Memory) : (s.setFb v).len = s.len := rfl
@[simp] theorem State.setFb_crc (s : State) (v : Memory) : (s.setFb v).crc = s.crc := rfl
@[simp] theorem State.setFb_result (s : State) (v : Memory) : (s.setFb v).result = s.result := rfl
@[simp] theorem State.setFb_status (s : State) (v : Memory) : (s.setFb v).status = s.status := rfl
@[simp] theorem State.setFb_cf (s : State) (v : Memory) : (s.setFb v).cf = s.cf := rfl
@[simp] theorem State.setFb_tf (s : State) (v : Memory) : (s.setFb v).tf = s.tf := rfl
@[simp] theorem State.setFb_inputs (s : State) (v : Memory) : (s.setFb v).inputs = s.inputs := rfl

@[simp] theorem State.setLen_params (s : State) (v : Byte) : (s.setLen v).params = s.params := rfl
@[simp] theorem State.setLen_fb (s : State) (v : Byte) : (s.setLen v).fb = s.fb := rfl
@[simp] theorem State.setLen_len (s : State) (v : Byte) : (s.setLen v).len = v := rfl
@[simp] theorem State.setLen_crc (s : State) (v : Byte) : (s.setLen v).crc = s.crc := rfl
@[simp] theorem State.setLen_result (s : State) (v : Byte) : (s.setLen v).result = s.result := rfl
@[simp] theorem State.setLen_status (s : State) (v : Byte) : (s.setLen v).status = s.status := rfl
@[simp] theorem State.setLen_cf (s : State) (v : Byte) : (s.setLen v).cf = s.cf := rfl
@[simp] theorem State.setLen_tf (s : State) (v : Byte) : (s.setLen v).tf = s.tf := rfl
@[simp] theorem State.setLen_inputs (s : State) (v : Byte) : (s.setLen v).inputs = s.inputs := rfl

@[simp] theorem State.setCrc_params (s : State) (v : Half) : (s.setCrc v).params = s.params := rfl
@[simp] theorem State.setCrc_fb (s : State) (v : Half) : (s.setCrc v).fb = s.fb := rfl
@[simp] theorem State.setCrc_len (s : State) (v : Half) : (s.setCrc v).len = s.len := rfl
@[simp] theorem State.setCrc_crc (s : State) (v : Half) : (s.setCrc v).crc = v := rfl
@[simp] theorem State.setCrc_result (s : State) (v : Half) : (s.setCrc v).result = s.result := rfl
@[simp] theorem State.setCrc_status (s : State) (v : Half) : (s.setCrc v).status = s.status := rfl
@[simp] theorem State.setCrc_cf (s : State) (v : Half) : (s.setCrc v).cf = s.cf := rfl
@[simp] theorem State.setCrc_tf (s : State) (v : Half) : (s.setCrc v).tf = s.tf := rfl
@[simp] theorem State.setCrc_inputs (s : State) (v : Half) : (s.setCrc v).inputs = s.inputs := rfl

@[simp] theorem State.setResult_params (s : State) (v : Word) : (s.setResult v).params = s.params := rfl
@[simp] theorem State.setResult_fb (s : State) (v : Word) : (s.setResult v).fb = s.fb := rfl
@[simp] theorem State.setResult_len (s : State) (v : Word) : (s.setResult v).len = s.len := rfl
@[simp] theorem State.setResult_crc (s : State) (v : Word) : (s.setResult v).crc = s.crc := rfl
@[simp] theorem State.setResult_result (s : State) (v : Word) : (s.setResult v).result = v := rfl
@[simp] theorem State.setResult_status (s : State) (v : Word) : (s.setResult v).status = s.status := rfl
@[simp] theorem State.setResult_cf (s : State) (v : Word) : (s.setResult v).cf = s.cf := rfl
@[simp] theorem State.setResult_tf (s : State) (v : Word) : (s.setResult v).tf = s.tf := rfl
@[simp] theorem State.setResult_inputs (s : State) (v : Word) : (s.setResult v).inputs = s.inputs := rfl

@[simp] theorem State.setStatus_params (s : State) (v : Byte) : (s.setStatus v).params = s.params := rfl
@[simp] theorem State.setStatus_fb (s : State) (v : Byte) : (s.setStatus v).fb = s.fb := rfl
@[simp] theorem State.setStatus_len (s : State) (v : Byte) : (s.setStatus v).len = s.len := rfl
@[simp] theorem State.setStatus_crc (s : State) (v : Byte) : (s.setStatus v).crc = s.crc := rfl
@[simp] theorem State.setStatus_result (s : State) (v : Byte) : (s.setStatus v).result = s.result := rfl
@[simp] theorem State.setStatus_status (s : State) (v : Byte) : (s.setStatus v).status = v := rfl
@[simp] theorem State.setStatus_cf (s : State) (v : Byte) : (s.setStatus v).cf = s.cf := rfl
@[simp] theorem State.setStatus_tf (s : State) (v : Byte) : (s.setStatus v).tf = s.tf := rfl
@[simp] theorem State.setStatus_inputs (s : State) (v : Byte) : (s.setStatus v).inputs = s.inputs := rfl

@[simp] theorem State.setCf_params (s : State) (v : CmdBank) : (s.setCf v).params = s.params := rfl
@[simp] theorem State.setCf_fb (s : State) (v : CmdBank) : (s.setCf v).fb = s.fb := rfl
@[simp] theorem State.setCf_len (s : State) (v : CmdBank) : (s.setCf v).len = s.len := rfl
@[simp] theorem State.setCf_crc (s : State) (v : CmdBank) : (s.setCf v).crc = s.crc := rfl
@[simp] theorem State.setCf_result (s : State) (v : CmdBank) : (s.setCf v).result = s.result := rfl
@[simp] theorem State.setCf_status (s : State) (v : CmdBank) : (s.setCf v).status = s.status := rfl
@[simp] theorem State.setCf_cf (s : State) (v : CmdBank) : (s.setCf v).cf = v := rfl
@[simp] theorem State.setCf_tf (s : State) (v : CmdBank) : (s.setCf v).tf = s.tf := rfl
@[simp] theorem State.setCf_inputs (s : State) (v : CmdBank) : (s.setCf v).inputs = s.inputs := rfl

@[simp] theorem State.setTf_params (s : State) (v : TlmBank) : (s.setTf v).params = s.params := rfl
@[simp] theorem State.setTf_fb (s : State) (v : TlmBank) : (s.setTf v).fb = s.fb := rfl
@[simp] theorem State.setTf_len (s : State) (v : TlmBank) : (s.setTf v).len = s.len := rfl
@[simp] theorem State.setTf_crc (s : State) (v : TlmBank) : (s.setTf v).crc = s.crc := rfl
@[simp] theorem State.setTf_result (s : State) (v : TlmBank) : (s.setTf v).result = s.result := rfl
@[simp] theorem State.setTf_status (s : State) (v : TlmBank) : (s.setTf v).status = s.status := rfl
@[simp] theorem State.setTf_cf (s : State) (v : TlmBank) : (s.setTf v).cf = s.cf := rfl
@[simp] theorem State.setTf_tf (s : State) (v : TlmBank) : (s.setTf v).tf = v := rfl
@[simp] theorem State.setTf_inputs (s : State) (v : TlmBank) : (s.setTf v).inputs = s.inputs := rfl

@[simp] theorem State.setInputs_params (s : State) (v : List PortSample) : (s.setInputs v).params = s.params := rfl
@[simp] theorem State.setInputs_fb (s : State) (v : List PortSample) : (s.setInputs v).fb = s.fb := rfl
@[simp] theorem State.setInputs_len (s : State) (v : List PortSample) : (s.setInputs v).len = s.len := rfl
@[simp] theorem State.setInputs_crc (s : State) (v : List PortSample) : (s.setInputs v).crc = s.crc := rfl
@[simp] theorem State.setInputs_result (s : State) (v : List PortSample) : (s.setInputs v).result = s.result := rfl
@[simp] theorem State.setInputs_status (s : State) (v : List PortSample) : (s.setInputs v).status = s.status := rfl
@[simp] theorem State.setInputs_cf (s : State) (v : List PortSample) : (s.setInputs v).cf = s.cf := rfl
@[simp] theorem State.setInputs_tf (s : State) (v : List PortSample) : (s.setInputs v).tf = s.tf := rfl
@[simp] theorem State.setInputs_inputs (s : State) (v : List PortSample) : (s.setInputs v).inputs = v := rfl


@[simp] theorem resetBlock_params (s : State) : (resetBlock s).params = s.params := rfl
@[simp] theorem resetBlock_fb (s : State) : (resetBlock s).fb = [] := rfl
@[simp] theorem resetBlock_len (s : State) : (resetBlock s).len = 0 := rfl
@[simp] theorem resetBlock_crc (s : State) : (resetBlock s).crc = s.params.crcInit := rfl
@[simp] theorem resetBlock_result (s : State) : (resetBlock s).result = 0 := rfl
@[simp] theorem resetBlock_status (s : State) : (resetBlock s).status = 0 := rfl
@[simp] theorem resetBlock_cf (s : State) : (resetBlock s).cf = CmdBank.zero := rfl
@[simp] theorem resetBlock_tf (s : State) : (resetBlock s).tf = TlmBank.zero := rfl
@[simp] theorem resetBlock_inputs (s : State) : (resetBlock s).inputs = s.inputs := rfl

/-- A command that completes answers its state and nothing else. -/
@[simp] theorem complete_eq_next (s t : State) : complete s = .next t ↔ s = t := by simp [complete]

/-- An illegal command answers the state with STATUS.ILL set and nothing else changed (R142). -/
@[simp] theorem raiseIll_eq_next (s t : State) :
    raiseIll s = .next t ↔ s.setStatus (statusSetIll s.status) = t := by simp [raiseIll]

/-- Everything a command with an operand check can do (R143). -/
theorem whenLegal_eq_next (legal : Bool) (s e t : State) :
    whenLegal legal s e = .next t ↔
      (legal = true ∧ e = t) ∨ (legal = false ∧ s.setStatus (statusSetIll s.status) = t) := by
  cases legal <;> simp [whenLegal]

@[simp] theorem whenLegal_true (s e : State) : whenLegal true s e = .next e := rfl

@[simp] theorem whenLegal_false (s e : State) : whenLegal false s e = raiseIll s := rfl

/-- Writing a field touches only the bank it stands in. -/
@[simp] theorem writeField_params (s : State) (f : Field) (v : Half) : (writeField s f v).params = s.params := by cases f <;> rfl
@[simp] theorem writeField_fb (s : State) (f : Field) (v : Half) : (writeField s f v).fb = s.fb := by cases f <;> rfl
@[simp] theorem writeField_len (s : State) (f : Field) (v : Half) : (writeField s f v).len = s.len := by cases f <;> rfl
@[simp] theorem writeField_crc (s : State) (f : Field) (v : Half) : (writeField s f v).crc = s.crc := by cases f <;> rfl
@[simp] theorem writeField_result (s : State) (f : Field) (v : Half) : (writeField s f v).result = s.result := by cases f <;> rfl
@[simp] theorem writeField_status (s : State) (f : Field) (v : Half) : (writeField s f v).status = s.status := by cases f <;> rfl
@[simp] theorem writeField_inputs (s : State) (f : Field) (v : Half) : (writeField s f v).inputs = s.inputs := by cases f <;> rfl

@[simp] theorem writeField_cmd (s : State) (k : CmdField) (v : Half) :
    writeField s (.cmd k) v = s.setCf (s.cf.write k v) := rfl

@[simp] theorem writeField_tlm (s : State) (k : TlmField) (v : Half) :
    writeField s (.tlm k) v = s.setTf (s.tf.write k v) := rfl

/-- A field of CF reads back what was written to it, cut to its width, and no other field changes (R28, R88). -/
theorem CmdBank.read_write (cf : CmdBank) (k j : CmdField) (v : Half) :
    (cf.write k v).read j =
      if j = k then (if (Field.cmd k).width = 8 then (v.setWidth 8).setWidth 16 else v) else cf.read j := by
  cases k <;> cases j <;> simp [CmdBank.read, CmdBank.write, Field.width]

/-- A field of TF reads back what was written to it, cut to its width, and no other field changes (R30, R88). -/
theorem TlmBank.read_write (tf : TlmBank) (k j : TlmField) (v : Half) :
    (tf.write k v).read j =
      if j = k then (if (Field.tlm k).width = 8 then (v.setWidth 8).setWidth 16 else v) else tf.read j := by
  cases k <;> cases j <;> simp [TlmBank.read, TlmBank.write, Field.width]

/-- Two command banks that read alike are the same bank. -/
theorem CmdBank.ext_read {a b : CmdBank} (h : ∀ k, a.read k = b.read k) : a = b := by
  have low : ∀ {x y : Byte}, x.setWidth 16 = y.setWidth 16 → x = y := by
    intro x y e
    have := congrArg (BitVec.setWidth 8) e
    simpa using this
  cases a; cases b
  simp only [CmdBank.mk.injEq]
  exact ⟨low (h .pkt), low (h .script), low (h .step), low (h .tlmp), low (h .servo), low (h .laser), h .pwmx, h .pwmy,
    low (h .angx), low (h .angy)⟩

/-- Two telemetry banks that read alike are the same bank. -/
theorem TlmBank.ext_read {a b : TlmBank} (h : ∀ k, a.read k = b.read k) : a = b := by
  have low : ∀ {x y : Byte}, x.setWidth 16 = y.setWidth 16 → x = y := by
    intro x y e
    have := congrArg (BitVec.setWidth 8) e
    simpa using this
  cases a; cases b
  simp only [TlmBank.mk.injEq]
  exact ⟨low (h .pkt), low (h .lastcmd), h .uplo, h .uphi, low (h .smask), low (h .mode), low (h .step), h .pwmx, h .pwmy,
    low (h .angx), low (h .angy), low (h .laser), low (h .servo)⟩

/-- RESULT holds the value of a zero-extended byte, or of a zero-extended 16-bit value (R26). -/
@[simp] theorem toNat_zext32_byte (v : Byte) : (zext32 v).toNat = v.toNat := by
  have := v.isLt; simp [zext32]; omega

@[simp] theorem toNat_zext32_half (v : Half) : (zext32 v).toNat = v.toNat := by
  have := v.isLt; simp [zext32]; omega

/-- RESULT holds the value of a sign-extended angle (R26). -/
theorem toInt_sext32 {a : Int} (h : -2 ^ 31 ≤ a) (h' : a < 2 ^ 31) : (sext32 a).toInt = a := by
  rw [sext32, BitVec.toInt_ofInt, Int.bmod_eq_of_le] <;> norm_num at * <;> omega

/-- What an accepted parameter record says, clause by clause (R8). -/
theorem constraints_iff (P : Params) : P.constraints = true ↔
    P.frameLen = P.payloadLen + 2 ∧ P.angMin < P.angMax ∧ P.wireOffset = -P.angMin ∧ P.xMinUs < P.xMaxUs
    ∧ P.yMinUs < P.yMaxUs ∧ 0 ≤ P.angMax - P.angMin ∧ P.angMax - P.angMin ≤ 255 ∧ P.hdrCmd ≠ P.hdrTlm
    ∧ P.frameLen ≤ 255 ∧ -32768 ≤ P.angMin ∧ P.angMax ≤ 32767 := by
  simp only [Params.constraints, Bool.and_eq_true, decide_eq_true_eq, and_assoc]

end Sys2Proof.Machine
end

