-- ==== Sys2Proof/Laws/Codec.lean ====
section
/-! SUPPORT. What the CRC function, the frame operations and the conversions do, one lemma each. -/

namespace Sys2Proof.Machine

/-! ### The CRC (R70, R71) -/

theorem crcFold_append (P : Params) (c : Half) (m n : List Byte) :
    crcFold P c (m ++ n) = crcFold P (crcFold P c m) n := by simp [crcFold]

@[simp] theorem crcFold_nil (P : Params) (c : Half) : crcFold P c [] = c := rfl

@[simp] theorem crcFold_cons (P : Params) (c : Half) (b : Byte) (m : List Byte) :
    crcFold P c (b :: m) = crcFold P (crcStep P c b) m := rfl

/-- The shift is linear over exclusive-or. -/
theorem crcShift_xor (poly c d : Half) : crcShift poly (c ^^^ d) = crcShift poly c ^^^ crcShift poly d := by
  simp only [crcShift, BitVec.getLsbD_xor]
  cases c.getLsbD 15 <;> cases d.getLsbD 15 <;>
    (simp; try (apply BitVec.eq_of_getLsbD_eq; intro k hk; simp [Bool.xor_comm, Bool.xor_left_comm]))
  all_goals
    by_cases h : k = 0
    · simp [h]
    · simp [h]; cases c.getLsbD (k - 1) <;> cases d.getLsbD (k - 1) <;> simp

theorem crcShifts_xor (poly : Half) : ∀ (n : Nat) (c d : Half),
    crcShifts poly n (c ^^^ d) = crcShifts poly n c ^^^ crcShifts poly n d
  | 0, _, _ => rfl
  | n + 1, c, d => by simp only [crcShifts, crcShift_xor]; exact crcShifts_xor poly n _ _

/-- With an odd polynomial (0x1021 is one) the shift loses nothing. -/
theorem crcShift_eq_zero {poly x : Half} (hp : poly.getLsbD 0 = true) (h : crcShift poly x = 0) : x = 0 := by
  have h0 : (crcShift poly x).getLsbD 0 = false := by rw [h]; rfl
  have hm : x.getLsbD 15 = false := by
    cases hx : x.getLsbD 15 with
    | false => rfl
    | true => rw [crcShift, if_pos hx, BitVec.getLsbD_xor, BitVec.getLsbD_shiftLeft, hp] at h0; simp at h0
  apply BitVec.eq_of_getLsbD_eq
  intro k hk
  by_cases hk15 : k = 15
  · subst hk15; simpa using hm
  · have hb : (crcShift poly x).getLsbD (k + 1) = false := by rw [h]; simp
    rw [crcShift, if_neg (by simp only [hm]; decide), BitVec.getLsbD_shiftLeft,
      decide_eq_true (show k + 1 < 16 by omega)] at hb
    simpa using hb

theorem crcShifts_eq_zero {poly : Half} (hp : poly.getLsbD 0 = true) : ∀ (n : Nat) {x : Half},
    crcShifts poly n x = 0 → x = 0
  | 0, _, h => h
  | n + 1, _, h => crcShift_eq_zero hp (crcShifts_eq_zero hp n h)

/-! ### Frames (R52, R100 to R102) -/

@[simp] theorem length_padPayload (n : Nat) (bs : List Byte) : (padPayload n bs).length = n := by
  simp only [padPayload, List.length_take, List.length_append, List.length_replicate]
  omega

/-- A payload is the named bytes as far as they fit, then zeros (R57, R100). -/
theorem getD_padPayload (n : Nat) (bs : List Byte) (k : Nat) :
    (padPayload n bs).getD k 0 = if k < n then bs.getD k 0 else 0 := by
  simp only [padPayload, List.getD_eq_getElem?_getD, List.getElem?_take, List.getElem?_append, List.getElem?_replicate]
  by_cases hk : k < n
  · rw [if_pos hk, if_pos hk]
    split
    · rfl
    · next h =>
      rw [List.getElem?_eq_none (by omega : bs.length ≤ k)]
      split <;> rfl
  · rw [if_neg hk, if_neg hk]
    rfl

@[simp] theorem length_packCmd (P : Params) (cf : CmdBank) : (packCmd P cf).length = P.payloadLen :=
  length_padPayload _ _

@[simp] theorem length_packTlm (P : Params) (tf : TlmBank) : (packTlm P tf).length = P.payloadLen :=
  length_padPayload _ _

/-- Inside the payload the unpack functions read FB (R100). -/
theorem payloadByte_of_lt {P : Params} {i : Nat} (h : i < P.payloadLen) (m : Memory) (old : Byte) :
    payloadByte P m i old = m.read i := if_pos h

/-- A byte that the payload does not hold stays as it was. -/
theorem payloadByte_of_le {P : Params} {i : Nat} (h : P.payloadLen ≤ i) (m : Memory) (old : Byte) :
    payloadByte P m i old = old := if_neg (by omega)

theorem payloadHalf_of_lt {P : Params} {i : Nat} (h : i + 1 < P.payloadLen) (m : Memory) (old : Half) :
    payloadHalf P m i old = m.read (i + 1) ++ m.read i := by
  rw [payloadHalf, payloadByte_of_lt h, payloadByte_of_lt (by omega)]

@[simp] theorem length_crcBytes (P : Params) (c : Half) : (crcBytes P c).length = 2 := by
  simp only [crcBytes]; cases P.crcOrder <;> rfl

/-- The two halves of a 16-bit value put together again (R35). -/
@[simp] theorem highByte_append_lowByte (v : Half) : highByte v ++ lowByte v = v := by
  apply BitVec.eq_of_toNat_eq
  have := v.isLt
  simp only [highByte, lowByte, BitVec.toNat_append, BitVec.extractLsb'_toNat, Nat.shiftRight_eq_div_pow]
  rw [← Nat.shiftLeft_add_eq_or_of_lt (by omega : v.toNat / 2 ^ 0 % 2 ^ 8 < 2 ^ 8), Nat.shiftLeft_eq]
  omega

/-- What reads in FB after an encode: the payload, its CRC after it, every byte beyond the frame as before. -/
theorem read_frameOf (P : Params) (p : List Byte) {m : Memory} (hm : m.wf = true) (hp : p.length = P.payloadLen)
    (k : Nat) :
    (frameOf P p m).read k =
      if k < P.payloadLen then p.getD k 0
      else if k < P.payloadLen + 2 then (crcBytes P (crc16 P p)).getD (k - P.payloadLen) 0
      else m.read k := by
  rw [frameOf, Memory.read_writeBytes _ _ _ (Memory.wf_writeBytes _ _ hm), Memory.read_writeBytes _ _ _ hm,
    length_crcBytes, hp]
  by_cases h1 : k < P.payloadLen
  · rw [if_neg (by omega), if_pos (by omega), if_pos h1, Nat.sub_zero]
  · by_cases h2 : k < P.payloadLen + 2
    · rw [if_pos (by omega), if_neg h1, if_pos h2]
    · rw [if_neg (by omega), if_neg (by omega), if_neg h1, if_neg h2]

theorem wf_frameOf (P : Params) (p : List Byte) {m : Memory} (hm : m.wf = true) : (frameOf P p m).wf = true :=
  Memory.wf_writeBytes _ _ (Memory.wf_writeBytes _ _ hm)

theorem below_frameOf (P : Params) (p : List Byte) {m : Memory} {n : Nat} (hp : p.length = P.payloadLen)
    (hn : P.payloadLen + 2 ≤ n) (hm : m.below n = true) : (frameOf P p m).below n = true :=
  Memory.below_writeBytes _ _ (by simpa using hn) (Memory.below_writeBytes _ _ (by omega) hm)

/-- The CRC of an encoded frame is the CRC of its payload. -/
theorem frameCrc_frameOf (P : Params) (p : List Byte) {m : Memory} (hm : m.wf = true) (hp : p.length = P.payloadLen) :
    frameCrc P (frameOf P p m) = crc16 P p := by
  rw [frameCrc]
  congr 1
  rw [← hp]
  refine Memory.bytes_eq_of_getD p 0 fun k hk => ?_
  rw [Nat.zero_add, read_frameOf P p hm hp, if_pos (by omega)]

/-- The CRC stored in an encoded frame is the CRC of its payload, in either byte order. -/
theorem crcRx_frameOf (P : Params) (p : List Byte) {m : Memory} (hm : m.wf = true) (hp : p.length = P.payloadLen) :
    crcRx P (frameOf P p m) = crc16 P p := by
  have e0 : (frameOf P p m).read P.payloadLen = (crcBytes P (crc16 P p)).getD 0 0 := by
    rw [read_frameOf P p hm hp, if_neg (by omega), if_pos (by omega), Nat.sub_self]
  have e1 : (frameOf P p m).read (P.payloadLen + 1) = (crcBytes P (crc16 P p)).getD 1 0 := by
    rw [read_frameOf P p hm hp, if_neg (by omega), if_pos (by omega), Nat.add_sub_cancel_left]
  simp only [crcRx, e0, e1, crcBytes]
  cases P.crcOrder <;> simp

/-- What an encode leaves in each register (R101, R102). -/
@[simp] theorem encodeFrame_params (p : List Byte) (s : State) : (encodeFrame p s).params = s.params := rfl
@[simp] theorem encodeFrame_fb (p : List Byte) (s : State) : (encodeFrame p s).fb = frameOf s.params p s.fb := rfl
@[simp] theorem encodeFrame_len (p : List Byte) (s : State) :
    (encodeFrame p s).len = BitVec.ofNat 8 s.params.frameLen := rfl
@[simp] theorem encodeFrame_crc (p : List Byte) (s : State) : (encodeFrame p s).crc = crc16 s.params p := rfl
@[simp] theorem encodeFrame_result (p : List Byte) (s : State) :
    (encodeFrame p s).result = zext32 (crc16 s.params p) := rfl
@[simp] theorem encodeFrame_status (p : List Byte) (s : State) : (encodeFrame p s).status = s.status := rfl
@[simp] theorem encodeFrame_cf (p : List Byte) (s : State) : (encodeFrame p s).cf = s.cf := rfl
@[simp] theorem encodeFrame_tf (p : List Byte) (s : State) : (encodeFrame p s).tf = s.tf := rfl
@[simp] theorem encodeFrame_inputs (p : List Byte) (s : State) : (encodeFrame p s).inputs = s.inputs := rfl

/-- What a decode leaves in each register whatever its outcome (R104, R105). -/
@[simp] theorem recordCheck_params (k : FrameCheck) (s : State) : (recordCheck k s).params = s.params := rfl
@[simp] theorem recordCheck_fb (k : FrameCheck) (s : State) : (recordCheck k s).fb = s.fb := rfl
@[simp] theorem recordCheck_len (k : FrameCheck) (s : State) : (recordCheck k s).len = s.len := rfl
@[simp] theorem recordCheck_crc (k : FrameCheck) (s : State) : (recordCheck k s).crc = k.c := rfl
@[simp] theorem recordCheck_result (k : FrameCheck) (s : State) : (recordCheck k s).result = zext32 k.c := rfl
@[simp] theorem recordCheck_status (k : FrameCheck) (s : State) : (recordCheck k s).status = checkedStatus s k := rfl
@[simp] theorem recordCheck_cf (k : FrameCheck) (s : State) : (recordCheck k s).cf = s.cf := rfl
@[simp] theorem recordCheck_tf (k : FrameCheck) (s : State) : (recordCheck k s).tf = s.tf := rfl
@[simp] theorem recordCheck_inputs (k : FrameCheck) (s : State) : (recordCheck k s).inputs = s.inputs := rfl

/-- What loading a bank leaves in each register (R104, R105). -/
@[simp] theorem loadCmd_params (s : State) : (loadCmd s).params = s.params := rfl
@[simp] theorem loadCmd_fb (s : State) : (loadCmd s).fb = s.fb := rfl
@[simp] theorem loadCmd_len (s : State) : (loadCmd s).len = s.len := rfl
@[simp] theorem loadCmd_crc (s : State) : (loadCmd s).crc = s.crc := rfl
@[simp] theorem loadCmd_result (s : State) : (loadCmd s).result = s.result := rfl
@[simp] theorem loadCmd_status (s : State) : (loadCmd s).status = s.status := rfl
@[simp] theorem loadCmd_cf (s : State) : (loadCmd s).cf = unpackCmd s.params s.fb s.cf := rfl
@[simp] theorem loadCmd_tf (s : State) : (loadCmd s).tf = s.tf := rfl
@[simp] theorem loadCmd_inputs (s : State) : (loadCmd s).inputs = s.inputs := rfl
@[simp] theorem loadTlm_params (s : State) : (loadTlm s).params = s.params := rfl
@[simp] theorem loadTlm_fb (s : State) : (loadTlm s).fb = s.fb := rfl
@[simp] theorem loadTlm_len (s : State) : (loadTlm s).len = s.len := rfl
@[simp] theorem loadTlm_crc (s : State) : (loadTlm s).crc = s.crc := rfl
@[simp] theorem loadTlm_result (s : State) : (loadTlm s).result = s.result := rfl
@[simp] theorem loadTlm_status (s : State) : (loadTlm s).status = s.status := rfl
@[simp] theorem loadTlm_cf (s : State) : (loadTlm s).cf = s.cf := rfl
@[simp] theorem loadTlm_tf (s : State) : (loadTlm s).tf = unpackTlm s.params s.fb s.tf := rfl
@[simp] theorem loadTlm_inputs (s : State) : (loadTlm s).inputs = s.inputs := rfl

/-! ### STATUS (R27, R91, R104, R142) -/

/-- The fields that a decode writes read back, ILL and bit 7 as before (R104, R105). -/
theorem statusDecoded_fields (st : Byte) (e : DecodeErr) (l c m d : Bool) :
    statusErr (statusDecoded st e l c m d) = e.code ∧ statusLenOk (statusDecoded st e l c m d) = l
    ∧ statusCrcOk (statusDecoded st e l c m d) = c ∧ statusSatMatch (statusDecoded st e l c m d) = m
    ∧ statusDvalid (statusDecoded st e l c m d) = d ∧ statusIll (statusDecoded st e l c m d) = statusIll st
    ∧ statusReserved (statusDecoded st e l c m d) = statusReserved st := by
  cases e <;> cases l <;> cases c <;> cases m <;> cases d <;> revert st <;> decide +kernel

/-- Setting ILL changes bit 6 alone (R142). -/
theorem statusSetIll_bit (st : Byte) (k : Nat) (hk : k < 8) :
    (statusSetIll st).getLsbD k = (decide (k = 6) || st.getLsbD k) := by
  revert k; revert st; decide +kernel

/-- Clearing ILL changes bit 6 alone (R91). -/
theorem statusClearIll_bit (st : Byte) (k : Nat) (hk : k < 8) :
    (statusClearIll st).getLsbD k = (decide (k ≠ 6) && st.getLsbD k) := by
  revert k; revert st; decide +kernel

/-! ### Conversions (R120 to R124) -/

theorem clamp_bounds (v lo hi : Int) (h : lo ≤ hi) : lo ≤ clamp v lo hi ∧ clamp v lo hi ≤ hi := by
  unfold clamp; split
  · omega
  · split <;> omega

theorem clamp_of_mem {v lo hi : Int} (h1 : lo ≤ v) (h2 : v ≤ hi) : clamp v lo hi = v := by
  unfold clamp; rw [if_neg (by omega), if_neg (by omega)]

theorem clamp_mono {v w : Int} (lo hi : Int) (h : lo ≤ hi) (hv : v ≤ w) : clamp v lo hi ≤ clamp w lo hi := by
  unfold clamp; split <;> split <;> (try split) <;> (try split) <;> omega

/-- The rounded quotient of `k * r` by `d` lies in 0 to `r` for `k` in 0 to `d`, under both roundings. -/
theorem roundedDiv_bounds (m : MapRounding) {k r d : Int} (hd : 0 < d) (hr : 0 ≤ r) (h0 : 0 ≤ k) (h1 : k ≤ d) :
    0 ≤ roundedDiv m (k * r) d ∧ roundedDiv m (k * r) d ≤ r := by
  have a0 : 0 ≤ k * r := mul_nonneg h0 hr
  have a1 : k * r ≤ d * r := mul_le_mul_of_nonneg_right h1 hr
  cases m with
  | floor =>
    refine ⟨Int.ediv_nonneg a0 hd.le, ?_⟩
    exact Int.ediv_le_of_le_mul hd (by linarith [mul_comm d r])
  | nearest =>
    refine ⟨Int.ediv_nonneg (by linarith) (by linarith), ?_⟩
    have : (2 * (k * r) + d) / (2 * d) < r + 1 := Int.ediv_lt_of_lt_mul (by linarith) (by nlinarith)
    simp only [roundedDiv]
    omega

/-- The rounded quotient does not decrease with its dividend. -/
theorem roundedDiv_mono (m : MapRounding) {a b d : Int} (hd : 0 < d) (h : a ≤ b) :
    roundedDiv m a d ≤ roundedDiv m b d := by
  cases m with
  | floor => exact Int.ediv_le_ediv hd h
  | nearest => exact Int.ediv_le_ediv (by linarith) (by linarith)

/-- The pulse range of an axis under an accepted record: not empty, and inside 16 bits (R8, R122). -/
theorem usRange_bounds {P : Params} (h : P.constraints = true) (axis : Axis) :
    0 < usRange P axis ∧ 0 ≤ minUs P axis ∧ maxUs P axis < 65536 := by
  have hc := (constraints_iff P).1 h
  have hx := P.xMaxUs.isLt
  have hy := P.yMaxUs.isLt
  simp only [BitVec.lt_def] at hc
  cases axis <;> simp only [usRange, minUs, maxUs, u16] <;> omega

/-- The StatusMask byte, bit by bit (R53, R109). -/
theorem statusMask_bits (n : BitVec 4) (st : Byte) :
    (∀ k, k < 4 → (statusMask n st).getLsbD k = n.getLsbD k) ∧ (statusMask n st).getLsbD 4 = statusLenOk st
    ∧ (statusMask n st).getLsbD 5 = statusCrcOk st ∧ (statusMask n st).getLsbD 6 = false
    ∧ (statusMask n st).getLsbD 7 = false := by
  unfold statusMask
  generalize statusLenOk st = a
  generalize statusCrcOk st = b
  revert a b n
  decide +kernel

end Sys2Proof.Machine
end

