-- ==== Sys2Proof/Laws/Decode.lean ====
section
/-! SUPPORT. A command word is its three fields (30_encoding.md R40), and words under a mask go field by field. -/

namespace Sys2Proof

@[simp] theorem opField_wordOf (op a : Byte) (d : Half) : opField (wordOf op a d) = op := by
  simp only [opField, wordOf]
  apply BitVec.eq_of_toNat_eq
  simp only [BitVec.extractLsb'_toNat, BitVec.toNat_append, Nat.shiftRight_eq_div_pow]
  have := a.isLt; have := d.isLt; have := op.isLt
  rw [← Nat.shiftLeft_add_eq_or_of_lt (by omega : d.toNat < 2 ^ 16),
    ← Nat.shiftLeft_add_eq_or_of_lt (by omega : a.toNat < 2 ^ 8)]
  simp only [Nat.shiftLeft_eq]
  omega

@[simp] theorem aField_wordOf (op a : Byte) (d : Half) : aField (wordOf op a d) = a := by
  simp only [aField, wordOf]
  apply BitVec.eq_of_toNat_eq
  simp only [BitVec.extractLsb'_toNat, BitVec.toNat_append, Nat.shiftRight_eq_div_pow]
  have := a.isLt; have := d.isLt; have := op.isLt
  rw [← Nat.shiftLeft_add_eq_or_of_lt (by omega : d.toNat < 2 ^ 16),
    ← Nat.shiftLeft_add_eq_or_of_lt (by omega : a.toNat < 2 ^ 8)]
  simp only [Nat.shiftLeft_eq]
  omega

@[simp] theorem dField_wordOf (op a : Byte) (d : Half) : dField (wordOf op a d) = d := by
  simp only [dField, wordOf]
  apply BitVec.eq_of_toNat_eq
  simp only [BitVec.extractLsb'_toNat, BitVec.toNat_append, Nat.shiftRight_eq_div_pow]
  have := a.isLt; have := d.isLt; have := op.isLt
  rw [← Nat.shiftLeft_add_eq_or_of_lt (by omega : d.toNat < 2 ^ 16),
    ← Nat.shiftLeft_add_eq_or_of_lt (by omega : a.toNat < 2 ^ 8)]
  simp only [Nat.shiftLeft_eq]
  omega

/-- A word is {OP, A, D} (R40). -/
theorem wordOf_fields (w : Word) : wordOf (opField w) (aField w) (dField w) = w := by
  simp only [opField, aField, dField, wordOf]
  apply BitVec.eq_of_toNat_eq
  simp only [BitVec.extractLsb'_toNat, BitVec.toNat_append, Nat.shiftRight_eq_div_pow]
  have := w.isLt
  rw [← Nat.shiftLeft_add_eq_or_of_lt (by omega : w.toNat / 2 ^ 0 % 2 ^ 16 < 2 ^ 16),
    ← Nat.shiftLeft_add_eq_or_of_lt (by omega : w.toNat / 2 ^ 16 % 2 ^ 8 < 2 ^ 8)]
  simp only [Nat.shiftLeft_eq]
  omega

/-- Words are equal exactly when their fields are. -/
theorem wordOf_inj (op op' a a' : Byte) (d d' : Half) :
    wordOf op a d = wordOf op' a' d' ↔ op = op' ∧ a = a' ∧ d = d' := by
  constructor
  · intro h
    exact ⟨by simpa using congrArg opField h, by simpa using congrArg aField h, by simpa using congrArg dField h⟩
  · rintro ⟨rfl, rfl, rfl⟩
    rfl

/-- A mask acts field by field. -/
theorem wordOf_and (op m1 a m2 : Byte) (d m3 : Half) :
    wordOf op a d &&& wordOf m1 m2 m3 = wordOf (op &&& m1) (a &&& m2) (d &&& m3) := by
  apply BitVec.eq_of_getLsbD_eq
  intro k _
  simp only [wordOf, BitVec.getLsbD_and, BitVec.getLsbD_append]
  split <;> [skip; split] <;> simp

/-- The decoder on a word given by its fields. -/
@[simp] theorem decode_wordOf (op a : Byte) (d : Half) : decode (wordOf op a d) = decodeFields op a d := by
  simp [decode]

/-- A byte in a D field reads back. -/
@[simp] theorem low_append_zero (b : Byte) : (0#8 ++ b).extractLsb' 0 8 = b := by
  revert b; decide +kernel

@[simp] theorem high_append_zero (b : Byte) : (0#8 ++ b).extractLsb' 8 8 = 0#8 := by
  revert b; decide +kernel

/-- A field selector reads back from its A byte (R41). -/
theorem bankOf_selectorByte (bank : Bank) (id : BitVec 4) : bankOf (selectorByte bank id) = bank := by
  cases bank <;> revert id <;> decide +kernel

theorem id_selectorByte (bank : Bank) (id : BitVec 4) : (selectorByte bank id).extractLsb' 0 4 = id := by
  cases bank <;> revert id <;> decide +kernel

theorem zero_selectorByte (bank : Bank) (id : BitVec 4) : (selectorByte bank id).extractLsb' 4 3 = 0#3 := by
  cases bank <;> revert id <;> decide +kernel

/-- Bits of the D field are bits of the word. -/
theorem extract_dField (w : Word) (lo n : Nat) (h : lo + n ≤ 16) :
    (dField w).extractLsb' lo n = w.extractLsb' lo n := by
  apply BitVec.eq_of_getLsbD_eq; intro k hk
  simp [dField, BitVec.getLsbD_extractLsb', hk]; omega

/-- Bits of the A field are bits 16 and up of the word. -/
theorem extract_aField (w : Word) (lo n : Nat) (h : lo + n ≤ 8) :
    (aField w).extractLsb' lo n = w.extractLsb' (16 + lo) n := by
  apply BitVec.eq_of_getLsbD_eq; intro k hk
  simp [aField, BitVec.getLsbD_extractLsb', hk, Nat.add_assoc]; omega

theorem getLsbD_aField (w : Word) (k : Nat) (h : k < 8) : (aField w).getLsbD k = w.getLsbD (16 + k) := by
  simp [aField, h]

/-- A bit field is zero exactly when its number is. -/
theorem extract_eq_zero {m : Nat} (w : BitVec m) (lo n : Nat) :
    w.extractLsb' lo n = 0 ↔ w.toNat / 2 ^ lo % 2 ^ n = 0 := by
  rw [← BitVec.toNat_inj]; simp [BitVec.extractLsb'_toNat, Nat.shiftRight_eq_div_pow]

end Sys2Proof
end

