-- ==== Sys2Proof/Laws/PerInstr.lean ====
section
/-! SUPPORT. Per constructor of Instr: the opcode map reads the command back from the fields its encoding gives. -/

namespace Sys2Proof.Laws.FieldsDecode

/-- The decoder's opcode map, given a command's OP, A and D, answers that command (R41, R42). -/
def Statement (i : Instr) : Prop := decodeFields i.op i.a i.d = .command i

theorem nop : Statement .nop := rfl
theorem crcInit : Statement .crcInit := rfl
theorem crcByte (b : Byte) : Statement (.crcByte b) := by
  simp [Statement, decodeFields, Instr.op, Instr.a, Instr.d, formatB]
theorem crcRead : Statement .crcRead := rfl
theorem crcFrame : Statement .crcFrame := rfl
theorem fbClear : Statement .fbClear := rfl
theorem fbPush (b : Byte) : Statement (.fbPush b) := by
  simp [Statement, decodeFields, Instr.op, Instr.a, Instr.d, formatB]
theorem fbWrite (i b : Byte) : Statement (.fbWrite i b) := by
  simp [Statement, decodeFields, Instr.op, Instr.a, Instr.d, formatIB]
theorem fbRead (i : Byte) : Statement (.fbRead i) := by
  simp [Statement, decodeFields, Instr.op, Instr.a, Instr.d, formatIZ]
theorem fbSetlen (b : Byte) : Statement (.fbSetlen b) := by
  simp [Statement, decodeFields, Instr.op, Instr.a, Instr.d, formatB]
theorem fbGetlen : Statement .fbGetlen := rfl
theorem fldWr (bank : Bank) (id : BitVec 4) (v : Half) : Statement (.fldWr bank id v) := by
  simp [Statement, decodeFields, Instr.op, Instr.a, Instr.d, formatFH, bankOf_selectorByte, id_selectorByte,
    zero_selectorByte]
theorem fldRd (bank : Bank) (id : BitVec 4) : Statement (.fldRd bank id) := by
  simp [Statement, decodeFields, Instr.op, Instr.a, Instr.d, formatFZ, bankOf_selectorByte, id_selectorByte,
    zero_selectorByte]
theorem statRd : Statement .statRd := rfl
theorem statClr : Statement .statClr := rfl
theorem encCmd : Statement .encCmd := rfl
theorem encTlm : Statement .encTlm := rfl
theorem decCmd : Statement .decCmd := rfl
theorem decTlm : Statement .decTlm := rfl
theorem tlmStat (n : BitVec 4) : Statement (.tlmStat n) := by
  revert n; simp only [Statement]; decide +kernel
theorem a2w (v : Half) : Statement (.a2w v) := by
  simp [Statement, decodeFields, Instr.op, Instr.a, Instr.d, formatH]
theorem w2a (b : Byte) : Statement (.w2a b) := by
  simp [Statement, decodeFields, Instr.op, Instr.a, Instr.d, formatB]
theorem a2p (axis : Axis) (v : Half) : Statement (.a2p axis v) := by
  cases axis <;> simp [Statement, decodeFields, Instr.op, Instr.a, Instr.d, formatXH, axisByte]
theorem p2a (axis : Axis) (v : Half) : Statement (.p2a axis v) := by
  cases axis <;> simp [Statement, decodeFields, Instr.op, Instr.a, Instr.d, formatXH, axisByte]

end Sys2Proof.Laws.FieldsDecode
end

