-- ==== Sys2Proof/Laws/Step.lean ====
section
/-! SUPPORT. Everything a step, a port sample and a list of commands can do, said once. -/

namespace Sys2Proof.Machine

/-- Under an accepted record a step takes the next port sample (R8, R20). -/
theorem step_of_accepted {s : State} (h : Accepted s) : step s = takeSample s :=
  if_pos h

/-- Where no port sample is to come the block stands still. -/
theorem takeSample_nil {s : State} (h : s.inputs = []) : takeSample s = .next s := by
  simp [takeSample, h, complete]

/-- The next port sample is run on the state without it. -/
theorem takeSample_cons {s : State} {p : PortSample} {rest : List PortSample} (h : s.inputs = p :: rest) :
    takeSample s = runSample p (s.setInputs rest) := by
  simp [takeSample, h]

/-- Everything a step that completes has done: the record is accepted, and it stood still or ran one port sample. -/
theorem step_cases {s t : State} (h : step s = .next t) :
    Accepted s ∧ ((s.inputs = [] ∧ t = s) ∨
      ∃ p rest, s.inputs = p :: rest ∧ runSample p (s.setInputs rest) = .next t) := by
  unfold step at h
  split at h
  · next hc =>
    refine ⟨hc, ?_⟩
    unfold takeSample at h
    split at h
    · next e => exact .inl ⟨e, ((complete_eq_next _ _).1 h).symm⟩
    · next p rest e => exact .inr ⟨p, rest, e, h⟩
  · cases h

/-- Everything a port sample that completes has done: reset, a command, an illegal word, or nothing. -/
theorem runSample_cases {p : PortSample} {s t : State} (h : runSample p s = .next t) :
    (p.rst = true ∧ t = resetBlock s)
    ∨ (p.rst = false ∧ p.cmdValid = true ∧ ∃ i, decode p.cmd = .command i ∧ exec i s = .next t)
    ∨ (p.rst = false ∧ p.cmdValid = true ∧ (∃ why, decode p.cmd = .illegal why)
        ∧ t = s.setStatus (statusSetIll s.status))
    ∨ (p.rst = false ∧ p.cmdValid = false ∧ t = s) := by
  unfold runSample at h
  split at h
  · next hr => exact .inl ⟨hr, ((complete_eq_next _ _).1 h).symm⟩
  · next hr =>
    have hr' : p.rst = false := by simpa using hr
    split at h
    · next hv =>
      unfold runWord at h
      split at h
      · next i hd => exact .inr (.inl ⟨hr', hv, i, hd, h⟩)
      · next why hd => exact .inr (.inr (.inl ⟨hr', hv, ⟨why, hd⟩, ((raiseIll_eq_next _ _).1 h).symm⟩))
    · next hv => exact .inr (.inr (.inr ⟨hr', by simpa using hv, ((complete_eq_next _ _).1 h).symm⟩))

/-- A list of commands runs piece by piece. -/
theorem execAll_append {xs ys : List Instr} : ∀ {s t : State}, execAll xs s = .next t →
    execAll (xs ++ ys) s = execAll ys t := by
  induction xs with
  | nil =>
    intro s t h
    simp only [execAll, Host.Outcome.next.injEq] at h
    simp [h]
  | cons x xs ih =>
    intro s t h
    simp only [execAll, List.cons_append] at h ⊢
    split at h
    · exact ih h
    · cases h
    · cases h

end Sys2Proof.Machine
end

