-- ==== Sys2Proof/Tests/Slice0.lean ====
section
/-! SUPPORT. The model's own tests. Every expected value is the spec's: the vectors of spec/95_test_vectors.md by id,
or a rule's own numbers. Then one witness for each statement that has hypotheses. -/

open Sys2Proof Sys2Proof.Machine Sys2Proof.Spec

namespace Sys2Proof.Tests

set_option Elab.async false

/-- The next state of an outcome, if it is one. -/
def nextOf : Host.Outcome State Fault Refusal → Option State
  | .next t => some t
  | .fault _ => none
  | .refused _ => none

/-- The instruction of a decoded word, if it is one. -/
def commandOf : Decoded → Option Instr
  | .command i => some i
  | .illegal _ => none

/-- The state after reset, FB_CLEAR and one FB_PUSH a byte, for at most 24 bytes. -/
def received (bs : List Byte) : State :=
  { State.reset with fb := Memory.writeBytes [] 0 bs, len := BitVec.ofNat 8 bs.length }

/-- The default record with other choices where the vectors name them. -/
def beRecord : Params := { Config.defaultParams with crcOrder := .be }
def perCheckRecord : Params := { Config.defaultParams with flagPolicy := .perCheck }
def rejectRecord : Params := { Config.defaultParams with satIdPolicy := .reject }
def nearestRecord : Params := { Config.defaultParams with mapRounding := .nearest }

/-- A record that breaks R8, and two that meet it with a payload shorter than the layouts. -/
def brokenRecord : Params := { Config.defaultParams with hdrTlm := 0x37 }
def shortRecord : Params := { Config.defaultParams with payloadLen := 21, frameLen := 23 }
def tinyRecord : Params := { Config.defaultParams with payloadLen := 10, frameLen := 12 }

/-- A record at the limits of R8: the longest frame, the widest angles, the longest pulses. -/
def wideRecord : Params :=
  { Config.defaultParams with
    payloadLen := 253, frameLen := 255, angMin := -32768, angMax := -32513, wireOffset := 32768
    xMinUs := 0, xMaxUs := 0xFFFF, yMinUs := 0xFFFE, yMaxUs := 0xFFFF }

/-- The fields and the frame of V-ENC-1. -/
def cf1 : CmdBank := ⟨0x01, 0x04, 0xFF, 0xFF, 0x01, 0x01, 0xFFFF, 0xFFFF, 0xFF, 0xFF⟩
def frame1 : List Byte :=
  [0x37, 0x25, 0x01, 0x04, 0xFF, 0xFF, 0x01, 0x01, 0xFF, 0xFF, 0xFF, 0xFF, 0xFF, 0xFF, 0, 0, 0, 0, 0, 0, 0, 0, 0x41, 0x8B]

/-- The fields and the frame of V-ENC-4. -/
def tf4 : TlmBank := ⟨5, 1, 0xE240, 0x0001, 0x33, 2, 3, 1250, 1600, 0xEC, 0x00, 1, 1⟩
def frame4 : List Byte :=
  [0x38, 0x25, 0x05, 0x01, 0x40, 0xE2, 0x01, 0x00, 0x33, 0x02, 0x03, 0xE2, 0x04, 0x40, 0x06, 0xEC, 0, 1, 1, 0, 0, 0, 0x91, 0xB7]

/-- The frames of a 10-byte payload under log entry 5: the first ten bytes of V-ENC-1 and V-ENC-4 and their CRC (worked out
from R70 and R71 apart from the model). -/
def tinyFrame1 : List Byte := [0x37, 0x25, 0x01, 0x04, 0xFF, 0xFF, 0x01, 0x01, 0xFF, 0xFF, 0xDF, 0xB5]
def tinyFrame4 : List Byte := [0x38, 0x25, 0x05, 0x01, 0x40, 0xE2, 0x01, 0x00, 0x33, 0x02, 0x90, 0xD4]

/-! ### WellFormed refuses each kind of ill-formed term -/

theorem test_wf_refuses_index_24 :
    Instr.wf Config.defaultParams (.fbWrite 24 0) = false ∧ Instr.wf Config.defaultParams (.fbRead 24) = false := by decide
theorem test_wf_refuses_no_such_field :
    Instr.wf Config.defaultParams (.fldWr .cmd 11 0) = false ∧ Instr.wf Config.defaultParams (.fldWr .tlm 13 0) = false
    ∧ Instr.wf Config.defaultParams (.fldRd .cmd 11) = false ∧ Instr.wf Config.defaultParams (.fldRd .tlm 13) = false := by
  decide
theorem test_wf_refuses_writing_nochg : Instr.wf Config.defaultParams (.fldWr .cmd 10 0) = false := by decide
theorem test_wf_refuses_wide_value :
    Instr.wf Config.defaultParams (.fldWr .cmd 8 0x100) = false ∧ Instr.wf Config.defaultParams (.fldWr .tlm 9 0x100) = false := by
  decide
theorem test_wf_accepts_legal_neighbours :
    Instr.wf Config.defaultParams (.fbWrite 23 0) = true ∧ Instr.wf Config.defaultParams (.fbRead 23) = true
    ∧ Instr.wf Config.defaultParams (.fldRd .cmd 10) = true ∧ Instr.wf Config.defaultParams (.fldWr .cmd 6 0xFFFF) = true
    ∧ Instr.wf Config.defaultParams (.fldWr .tlm 12 0xFF) = true := by decide

/-! ### Decoding: each constructor by a word written out as OP, A, D bits (R40 to R42; words of R45 and 95_test_vectors.md) -/

theorem test_decode_format_z :
    ([0x00000000, 0x01000000, 0x03000000, 0x04000000, 0x10000000, 0x15000000, 0x1A000000, 0x1B000000, 0x20000000,
      0x21000000, 0x22000000, 0x23000000] : List Word).map (fun w => commandOf (decode w))
    = [some .nop, some .crcInit, some .crcRead, some .crcFrame, some .fbClear, some .fbGetlen, some .statRd,
       some .statClr, some .encCmd, some .encTlm, some .decCmd, some .decTlm] := by decide
theorem test_decode_bits_of_dec_cmd : decode 0b00100010000000000000000000000000 = .command .decCmd := by decide
theorem test_decode_bits_of_crc_byte : decode 0b00000010000000000000000010000001 = .command (.crcByte 0x81) := by decide
theorem test_decode_bits_of_fld_wr :
    decode 0b00011000100010000000011001000000 = .command (.fldWr .tlm 8 1600) := by decide
theorem test_decode_bits_of_a2p : decode 0b00110010000000011111111111101100 = .command (.a2p .y 0xFFEC) := by decide
theorem test_decode_format_b :
    ([0x02000001, 0x11000037, 0x140000C8, 0x3100001C] : List Word).map (fun w => commandOf (decode w))
    = [some (.crcByte 0x01), some (.fbPush 0x37), some (.fbSetlen 200), some (.w2a 0x1C)] := by decide
theorem test_decode_format_ib_iz : decode 0x121700AB = .command (.fbWrite 23 0xAB)
    ∧ decode 0x13160000 = .command (.fbRead 22) := by decide
theorem test_decode_format_fh_fz : decode 0x1806270F = .command (.fldWr .cmd 6 9999)
    ∧ decode 0x188C0001 = .command (.fldWr .tlm 12 1) ∧ decode 0x190A0000 = .command (.fldRd .cmd 10)
    ∧ decode 0x19880000 = .command (.fldRd .tlm 8) := by decide
theorem test_decode_format_h_xh_n4 : decode 0x3000FFF4 = .command (.a2w 0xFFF4)
    ∧ decode 0x32010028 = .command (.a2p .y 40) ∧ decode 0x330003E8 = .command (.p2a .x 1000)
    ∧ decode 0x2400000F = .command (.tlmStat 15) := by decide
theorem test_encode_words : ([.fbWrite 23 0xAB, .fldRd .tlm 8, .p2a .y 1350, .tlmStat 3] : List Instr).map encode
    = [0x121700AB, 0x19880000, 0x33010546, 0x24000003] := by decide
theorem test_decode_refuses : ([0x00000001, 0x05000000, 0x18400000, 0x32020000] : List Word).map decode
    = [.illegal .mustBeZero, .illegal .unassignedOpcode, .illegal .badSelector, .illegal .badAxis] := by decide

/-- No two rows of the opcode table overlap: under both masks their matches differ. -/
theorem test_opcode_rows_do_not_overlap :
    opcodeTable.Pairwise fun r q => r.pattern &&& (r.mask &&& q.mask) ≠ q.pattern &&& (r.mask &&& q.mask) := by
  decide +kernel
theorem test_opcode_table_has_24_rows : opcodeTable.length = 24 := by decide

/-- Section 2.6: every listed word sets ILL and changes nothing else. -/
def illegalState : State :=
  { received frame1 with crc := 0x8B41, result := 0x8B41, cf := cf1 }
theorem test_illegal_words_bits : (([0x00000001, 0x05000000, 0x16000000, 0x25000000, 0x34000000, 0xFF000000,
    0x22000001, 0x20010000, 0x02000100, 0x02010000, 0x12170100, 0x13000001, 0x14000100, 0x18400000, 0x19000001,
    0x24000010, 0x30010000, 0x31000100, 0x32020000, 0x33800000, 0x1B000001] : List Word).all
    fun w => nextOf (runWord w illegalState) == some (illegalState.setStatus 0x40)) = true := by decide +kernel
theorem test_illegal_words_operands : (([0x12180000, 0x13180000, 0x180B0000, 0x188D0000, 0x180A0000, 0x18080100,
    0x18890100, 0x198D0000] : List Word).all
    fun w => nextOf (runWord w illegalState) == some (illegalState.setStatus 0x40)) = true := by decide +kernel

/-! ### CRC commands (section 2.1) -/

theorem test_crc_check_string : crc16 Config.defaultParams [0x31, 0x32, 0x33, 0x34, 0x35, 0x36, 0x37, 0x38, 0x39] = 0x31C3 := by
  decide +kernel
theorem test_crc_single_bytes :
    ([0x00, 0x01, 0x80, 0xFF] : List Byte).map (fun b => crc16 Config.defaultParams [b]) = [0x0000, 0x1021, 0x9188, 0x1EF0] := by
  decide +kernel
theorem test_crc_init : (nextOf (exec .crcInit (State.reset.setCrc 0x1234))).map State.crc = some 0x0000 := by decide
theorem test_crc_byte : (nextOf (exec (.crcByte 0x00) (State.reset.setCrc 0x1021))).map State.crc = some 0x3331 := by
  decide +kernel
theorem test_crc_read : (nextOf (exec .crcRead (State.reset.setCrc 0x31C3))).map State.result = some 0x000031C3 := by decide
theorem test_crc_frame :
    (nextOf (exec .crcFrame (received frame1))).map (fun t => (t.crc, t.result)) = some (0x8B41, 0x00008B41) := by
  decide +kernel

/-! ### Frame buffer, field and status commands (section 2.5) -/

theorem test_nop : nextOf (exec .nop State.reset) = some State.reset := by decide
theorem test_fb_clear : (nextOf (exec .fbClear (received frame1))).map (fun t => (t.fb, t.len)) = some ([], 0) := by decide
theorem test_fb_push : (nextOf (exec (.fbPush 0x37) State.reset)).map (fun t => (t.fb, t.len)) = some ([(0, 0x37)], 1) := by
  decide
theorem test_fb_push_saturates :
    (nextOf (exec (.fbPush 0x37) (State.reset.setLen 255))).map (fun t => (t.fb, t.len)) = some ([], 255) := by decide
theorem test_fb_write : (nextOf (exec (.fbWrite 23 0xAB) State.reset)).map (fun t => (t.fb, t.len)) = some ([(23, 0xAB)], 0) := by
  decide
theorem test_fb_read : (nextOf (exec (.fbRead 23) (received frame1))).map State.result = some 0x0000008B := by decide +kernel
theorem test_fb_setlen : (nextOf (exec (.fbSetlen 200) State.reset)).map State.len = some 200 := by decide
theorem test_fb_getlen : (nextOf (exec .fbGetlen (received frame1))).map State.result = some 0x00000018 := by decide
theorem test_fld_wr_raw_pwm : (nextOf (exec (.fldWr .cmd 6 9999) State.reset)).map (·.cf.pwmx) = some 0x270F := by decide
theorem test_fld_wr_servo : (nextOf (exec (.fldWr .tlm 12 1) State.reset)).map (·.tf.servo) = some 1 := by decide
theorem test_fld_rd_nochg :
    (nextOf (exec (.fldRd .cmd 10) { State.reset with cf := cf1 })).map State.result = some 0x000001E6 := by decide
theorem test_fld_rd_angle_zero_extends :
    (nextOf (exec (.fldRd .tlm 9) { State.reset with tf := tf4 })).map State.result = some 0x000000EC := by decide
theorem test_stat_rd : (nextOf (exec .statRd (State.reset.setStatus 0x3C))).map State.result = some 0x0000003C := by decide
theorem test_stat_clr : (nextOf (exec .statClr (State.reset.setStatus 0x7C))).map State.status = some 0x3C := by decide

/-! ### Encoders and decoders (sections 2.2 to 2.4) -/

theorem test_enc_cmd : (nextOf (exec .encCmd { State.reset with cf := cf1 })).map
    (fun t => (t.fb.bytes 0 24, t.len, t.crc, t.result)) = some (frame1, 24, 0x8B41, 0x00008B41) := by decide +kernel
theorem test_enc_cmd_big_endian_crc : (nextOf (exec .encCmd { State.reset with cf := cf1, params := beRecord })).map
    (fun t => (t.fb.read 22, t.fb.read 23, t.crc)) = some (0x8B, 0x41, 0x8B41) := by decide +kernel
theorem test_enc_tlm : (nextOf (exec .encTlm { State.reset with tf := tf4 })).map
    (fun t => (t.fb.bytes 0 24, t.len, t.crc, t.result)) = some (frame4, 24, 0xB791, 0x0000B791) := by decide +kernel
theorem test_dec_cmd : (nextOf (exec .decCmd (received frame1))).map
    (fun t => (t.status, t.result, t.cf)) = some (0x3C, 0x00008B41, cf1) := by decide +kernel
/-- V-DEC-5 under `per_check`. -/
theorem test_dec_cmd_crc_error : (nextOf (exec .decCmd
    { received (frame1.set 22 0x42) with params := perCheckRecord })).map
    (fun t => (t.status, t.result, t.cf)) = some (0x17, 0x00008B41, CmdBank.zero) := by decide +kernel
theorem test_dec_tlm : (nextOf (exec .decTlm (received frame4))).map
    (fun t => (t.status, t.result, t.tf)) = some (0x3C, 0x0000B791, tf4) := by decide +kernel
/-- V-DEC-4. -/
theorem test_dec_tlm_header_error : (nextOf (exec .decTlm (received frame1))).map
    (fun t => (t.status, t.result, t.tf)) = some (0x12, 0x00008B41, TlmBank.zero) := by decide +kernel
/-- Log entry 5: a payload of 10 bytes, which holds C_PWMX and not C_PWMY. -/
theorem test_short_payload_frame :
    (frameOf tinyRecord (packCmd tinyRecord cf1) []).bytes 0 13 = tinyFrame1 ++ [0] := by decide +kernel
theorem test_short_payload_decode : (nextOf (exec .decCmd { received tinyFrame1 with params := tinyRecord, cf := { cf1 with pwmx := 0, pwmy := 0x1234 } })).map
    (fun t => (t.status, t.cf.laser, t.cf.pwmx, t.cf.pwmy)) = some (0x3C, 0x01, 0xFFFF, 0x1234) := by decide +kernel
theorem test_tlm_stat : (nextOf (exec (.tlmStat 3) (State.reset.setStatus 0x3C))).map (·.tf.smask) = some 0x33 := by decide
theorem test_tlm_stat_per_check : (nextOf (exec (.tlmStat 0) (State.reset.setStatus 0x17))).map (·.tf.smask) = some 0x10 := by
  decide

/-! ### Conversions (section 2.7) -/

theorem test_a2w : (nextOf (exec (.a2w 0xFFF4) State.reset)).map State.result = some 0x0000001C := by decide
theorem test_a2w_clamps : (nextOf (exec (.a2w 0x8000) State.reset)).map State.result = some 0x00000000 := by decide
theorem test_w2a : (nextOf (exec (.w2a 0x1C) State.reset)).map State.result = some 0xFFFFFFF4 := by decide
theorem test_w2a_clamps : (nextOf (exec (.w2a 0xFF) State.reset)).map State.result = some 0x00000028 := by decide
/-- P2 step 34. -/
theorem test_a2p : (nextOf (exec (.a2p .y 20) State.reset)).map State.result = some 0x0000073A := by decide
/-- R129, the row of -1. -/
theorem test_a2p_floor : (nextOf (exec (.a2p .x 0xFFFF) State.reset)).map State.result = some 1487 := by decide
theorem test_p2a : (nextOf (exec (.p2a .x 1487) State.reset)).map State.result = some 0xFFFFFFFE := by decide
theorem test_p2a_nearest :
    (nextOf (exec (.p2a .x 1494) { State.reset with params := nearestRecord })).map State.result = some 0 := by decide

/-- Log entry 19: R120's formula at the widest span of R8. -/
theorem test_a2w_widest_span : a2w wideRecord (-32513) = 0xFF ∧ a2w wideRecord (-32514) = 0xFE := by decide

/-! ### A step (section 2.8, R20, R161) -/

theorem test_step_runs_the_word : (nextOf (step (State.reset.withFetchWord 32 0x3000FFF4))).map
    (fun t => (t.result, t.inputs)) = some (0x0000001C, []) := by decide
theorem test_step_reset_cancels : nextOf (step { illegalState with inputs := [resetSample true 0x20000000] })
    = some State.reset := by decide +kernel

/-! ### Witnesses: a concrete state and operands that meet the hypotheses of each statement -/

/-- For CrcInitLoadsInitialValue, CrcReadAppliesFinalXor, CrcFrameCoversThePayload, NopChangesNothing,
FbClearEmptiesTheBuffer, FbGetlenReadsTheCount, StatRdCopiesStatus, StatClrClearsIllOnly, EncCmdBuildsTheCommandFrame,
EncTlmBuildsTheTelemetryFrame, DecCmdChecksAndLoads, DecTlmChecksAndLoads: words of each opcode, legal and not, at both
ends of the must-be-zero bits. -/
theorem witness_encoding_z : ∀ op ∈ ([0x00, 0x01, 0x03, 0x04, 0x10, 0x15, 0x1A, 0x1B, 0x20, 0x21, 0x22, 0x23] : List Byte),
    ∃ w v u : Word, (w.extractLsb' 24 8 = op ∧ BitsZ w) ∧ (v.extractLsb' 24 8 = op ∧ ¬ BitsZ v)
      ∧ (u.extractLsb' 24 8 = op ∧ ¬ BitsZ u) := by
  intro op h
  refine ⟨op ++ 0#24, op ++ 1#24, op ++ 0x800000#24, ?_⟩
  revert op
  unfold BitsZ
  decide +kernel

/-- For CrcByteFoldsOneByte, FbPushAppendsAndCounts, FbSetlenSetsTheCount, WireByteToAngle. -/
theorem witness_encoding_b : ∀ op ∈ ([0x02, 0x11, 0x14, 0x31] : List Byte),
    ∃ w v u : Word, (w.extractLsb' 24 8 = op ∧ BitsB w) ∧ (v.extractLsb' 24 8 = op ∧ ¬ BitsB v)
      ∧ (u.extractLsb' 24 8 = op ∧ ¬ BitsB u) := by
  intro op h
  refine ⟨op ++ 0x0000FF#24, op ++ 0x000100#24, op ++ 0x800000#24, ?_⟩
  revert op
  unfold BitsB
  decide +kernel

/-- For FbWriteStoresOneByte, FbReadReadsOneByte, FldWrWritesTheSelectedField, FldRdReadsTheSelectedField. -/
theorem witness_encoding_ib_iz_fh_fz :
    (BitVec.extractLsb' 24 8 (0x121700FF : Word) = 0x12 ∧ BitVec.extractLsb' 8 8 (0x121700FF : Word) = 0)
    ∧ (BitVec.extractLsb' 24 8 (0x12170100 : Word) = 0x12 ∧ BitVec.extractLsb' 8 8 (0x12170100 : Word) ≠ 0)
    ∧ (BitVec.extractLsb' 24 8 (0x13170000 : Word) = 0x13 ∧ BitVec.extractLsb' 0 16 (0x13170000 : Word) = 0)
    ∧ (BitVec.extractLsb' 24 8 (0x13000001 : Word) = 0x13 ∧ BitVec.extractLsb' 0 16 (0x13000001 : Word) ≠ 0)
    ∧ (BitVec.extractLsb' 24 8 (0x188FFFFF : Word) = 0x18 ∧ BitVec.extractLsb' 20 3 (0x188FFFFF : Word) = 0)
    ∧ (BitVec.extractLsb' 24 8 (0x18100000 : Word) = 0x18 ∧ BitVec.extractLsb' 20 3 (0x18100000 : Word) ≠ 0)
    ∧ (BitVec.extractLsb' 24 8 (0x198F0000 : Word) = 0x19 ∧ BitVec.extractLsb' 20 3 (0x198F0000 : Word) = 0
      ∧ BitVec.extractLsb' 0 16 (0x198F0000 : Word) = 0)
    ∧ (BitVec.extractLsb' 24 8 (0x19400000 : Word) = 0x19 ∧ BitVec.extractLsb' 20 3 (0x19400000 : Word) ≠ 0) := by
  decide

/-- For TlmStatBuildsTheStatusMask, AngleToWireByte, AngleToPulseWidth, PulseWidthToAngle. -/
theorem witness_encoding_n4_h_xh :
    (BitVec.extractLsb' 24 8 (0x2400000F : Word) = 0x24 ∧ BitVec.extractLsb' 4 20 (0x2400000F : Word) = 0)
    ∧ (BitVec.extractLsb' 24 8 (0x24000010 : Word) = 0x24 ∧ BitVec.extractLsb' 4 20 (0x24000010 : Word) ≠ 0)
    ∧ (BitVec.extractLsb' 24 8 (0x3000FFFF : Word) = 0x30 ∧ BitVec.extractLsb' 16 8 (0x3000FFFF : Word) = 0)
    ∧ (BitVec.extractLsb' 24 8 (0x30010000 : Word) = 0x30 ∧ BitVec.extractLsb' 16 8 (0x30010000 : Word) ≠ 0)
    ∧ (BitVec.extractLsb' 24 8 (0x3201FFFF : Word) = 0x32 ∧ BitVec.extractLsb' 17 7 (0x3201FFFF : Word) = 0)
    ∧ (BitVec.extractLsb' 24 8 (0x32020000 : Word) = 0x32 ∧ BitVec.extractLsb' 17 7 (0x32020000 : Word) ≠ 0)
    ∧ (BitVec.extractLsb' 24 8 (0x3300FFFF : Word) = 0x33 ∧ BitVec.extractLsb' 17 7 (0x3300FFFF : Word) = 0)
    ∧ (BitVec.extractLsb' 24 8 (0x33800000 : Word) = 0x33 ∧ BitVec.extractLsb' 17 7 (0x33800000 : Word) ≠ 0) := by
  decide

theorem witness_CrcStepIsEightShifts : Config.defaultParams.crcPoly = 0x1021 := by decide

theorem witness_CrcIsPolynomialRemainder : Config.defaultParams.crcInit = 0 := by decide

theorem witness_CrcIsAffineOverXor : frame1.length = frame4.length := by decide

/-- A buffer with bytes at both ends of the frame. -/
theorem witness_FbClearEmptiesTheBuffer :
    BufferValid (received frame1).params (received frame1).fb ∧ 23 < (received frame1).params.frameLen
    ∧ (received frame1).params.frameLen ≤ 24 := by
  unfold BufferValid; decide +kernel

/-- LEN below FRAME_LEN, at it, and saturated, over a canonical buffer. -/
theorem witness_FbPushAppendsAndCounts : (received frame1).fb.wf = true
    ∧ (received (frame1.take 23)).len.toNat < (received frame1).params.frameLen
    ∧ ¬ (received frame1).len.toNat < (received frame1).params.frameLen
    ∧ ¬ (State.reset.setLen 255).len.toNat < State.reset.params.frameLen := by decide +kernel

/-- Index 23 is inside, 24 and 255 are outside; also for FbReadReadsOneByte. -/
theorem witness_FbWriteStoresOneByte : (received frame1).fb.wf = true
    ∧ (23 : Byte).toNat < (received frame1).params.frameLen ∧ (received frame1).params.frameLen ≤ (24 : Byte).toNat
    ∧ (received frame1).params.frameLen ≤ (255 : Byte).toNat := by decide +kernel

/-- The first and last ids of both banks, a wide field, a value that fits and one that does not, and ids past the end;
also for FldRdReadsTheSelectedField. -/
theorem witness_FldWrWritesTheSelectedField :
    cmdNames[(0 : BitVec 4).toNat]? = some .pkt ∧ cmdNames[(9 : BitVec 4).toNat]? = some .angy
    ∧ cmdNames[(6 : BitVec 4).toNat]? = some .pwmx ∧ cmdWide .pwmx = true
    ∧ tlmNames[(0 : BitVec 4).toNat]? = some .pkt ∧ tlmNames[(12 : BitVec 4).toNat]? = some .servo
    ∧ tlmNames[(2 : BitVec 4).toNat]? = some .uplo ∧ tlmWide .uplo = true
    ∧ (255 : Half).toNat < 256 ∧ ¬ (cmdWide .angy = true ∨ (256 : Half).toNat < 256)
    ∧ ¬ (tlmWide .servo = true ∨ (256 : Half).toNat < 256)
    ∧ 10 ≤ (10 : BitVec 4).toNat ∧ 11 ≤ (11 : BitVec 4).toNat ∧ 13 ≤ (13 : BitVec 4).toNat := by decide

/-- For EncCmdBuildsTheCommandFrame, EncTlmBuildsTheTelemetryFrame and CodedBytesPassThrough. -/
theorem witness_EncCmdBuildsTheCommandFrame :
    StandardLengths State.reset.params ∧ State.reset.fb.wf = true := by unfold StandardLengths; decide

/-- Each outcome code of the check for the command header, at default lengths. -/
theorem witness_DecCmdChecksAndLoads : StandardLengths (received frame1).params
    ∧ checkCode 0x37 (received frame1) = 0 ∧ checkCode 0x37 (received (frame1.take 23)) = 1
    ∧ checkCode 0x37 (received frame4) = 2 ∧ checkCode 0x37 (received (frame1.set 22 0x42)) = 3
    ∧ checkCode 0x37 { received (frame1.set 1 0x26) with params := rejectRecord } = 2 := by
  unfold StandardLengths; decide +kernel

theorem witness_DecTlmChecksAndLoads : StandardLengths (received frame4).params
    ∧ checkCode 0x38 (received frame4) = 0 ∧ checkCode 0x38 (received (frame4.take 23)) = 1
    ∧ checkCode 0x38 (received frame1) = 2 ∧ checkCode 0x38 (received (frame4.set 23 0xB6)) = 3
    ∧ (received frame4).params.flagPolicy = .clearBoth ∧ perCheckRecord.flagPolicy = .perCheck := by
  unfold StandardLengths; decide +kernel

/-- The V-DEC-11 frame (a reserved byte not 0) for DEC_CMD, and the V-ENC-4 frame for DEC_TLM. -/
theorem witness_ReservedBytesAreZeroAndIgnored :
    (StandardLengths (received frame1).params ∧ (received frame1).fb.wf = true)
    ∧ (∀ bs, bs = ((frame1.set 15 0xAA).set 22 0x00).set 23 0xBD ∨ bs = frame4 →
        (received bs).len = 24 ∧ (received bs).fb.read 1 = (received bs).params.satId
        ∧ payloadCrc (received bs) = storedCrc (received bs))
    ∧ (received frame1).fb.read 0 = (received frame1).params.hdrCmd
    ∧ (received frame4).fb.read 0 = (received frame4).params.hdrTlm := by
  refine ⟨by unfold StandardLengths; decide +kernel, ?_, by decide +kernel, by decide +kernel⟩
  rintro bs (rfl | rfl) <;> decide +kernel

/-- The default record, the longest frame of R8, and payloads at the ends of the clauses: 0, 1 and 2 bytes. -/
theorem witness_EncodeThenDecodeRoundTrips :
    (Accepted (received frame1) ∧ BufferValid (received frame1).params (received frame1).fb
      ∧ (received frame1).params.satIdPolicy = .ignore)
    ∧ (Accepted { State.reset with params := wideRecord } ∧ BufferValid wideRecord State.reset.fb)
    ∧ ([0, 1, 2].all fun n =>
        Params.constraints { Config.defaultParams with payloadLen := n, frameLen := n + 2 }) = true := by
  unfold Accepted BufferValid; decide +kernel

/-- Frames of a 10-byte payload that pass, one that does not, and the shortest frame of R8. -/
theorem witness_FramesOfEveryPayloadLength :
    (Accepted { received tinyFrame1 with params := tinyRecord } ∧ (received tinyFrame1).fb.wf = true)
    ∧ ChecksPass tinyRecord.hdrCmd { received tinyFrame1 with params := tinyRecord }
    ∧ ChecksPass tinyRecord.hdrTlm { received tinyFrame4 with params := tinyRecord }
    ∧ ¬ ChecksPass tinyRecord.hdrTlm { received tinyFrame1 with params := tinyRecord }
    ∧ Params.constraints { Config.defaultParams with payloadLen := 0, frameLen := 2 } = true := by
  unfold Accepted ChecksPass; decide +kernel

/-- The V-ENC-1 and V-ENC-4 frames, their first, second and last bytes, and both satellite-id policies. -/
theorem witness_SingleBitErrorsAreCaught :
    (StandardLengths (received frame1).params ∧ (received frame1).fb.wf = true
      ∧ (received frame1).params.crcPoly = 0x1021 ∧ checkCode (received frame1).params.hdrCmd (received frame1) = 0)
    ∧ (StandardLengths rejectRecord ∧ (received frame4).fb.wf = true
      ∧ rejectRecord.crcPoly = 0x1021 ∧ rejectRecord.satIdPolicy = .reject
      ∧ checkCode rejectRecord.hdrTlm { received frame4 with params := rejectRecord } = 0)
    ∧ (0 : Byte).toNat < 24 ∧ (1 : Byte).toNat < 24 ∧ (23 : Byte).toNat < 24 := by
  unfold StandardLengths; decide +kernel

theorem witness_BigEndianFrameHasZeroResidue :
    StandardLengths beRecord ∧ State.reset.fb.wf = true ∧ beRecord.crcOrder = .be ∧ beRecord.crcXorout = 0 := by
  unfold StandardLengths; decide

/-- For AngleToWireByte, WireByteToAngle, AngleToPulseWidth, PulseWidthToAngle, ConversionsAreMonotoneForEveryRecord. -/
theorem witness_constraints : State.reset.params.constraints = true ∧ wideRecord.constraints = true
    ∧ nearestRecord.constraints = true ∧ State.reset.params.angMax - State.reset.params.angMin < 255
    ∧ wideRecord.angMax - wideRecord.angMin = 255 := by decide

/-- For AngleTableHolds, PulseTableHolds and ConversionsInvertAsStated. -/
theorem witness_AngleTableHolds : (DefaultConversion Config.defaultParams ∧ Config.defaultParams.mapRounding = .floor)
    ∧ (DefaultConversion nearestRecord ∧ nearestRecord.mapRounding = .nearest) := by
  unfold DefaultConversion; decide

theorem witness_EncodeInvertsDecode : decode 0x19880000 = .command (.fldRd .tlm 8) := by decide

theorem witness_DecoderAgreesWithTheOpcodeTable :
    decode 0x3301FFFF = .command (.p2a .y 0xFFFF) ∧ (Instr.row (.p2a .x 0)) ∈ opcodeTable
    ∧ (0x3301FFFF : Word) &&& (Instr.row (.p2a .x 0)).mask = (Instr.row (.p2a .x 0)).pattern := by decide

/-- The two ends of each unassigned range. -/
def unassignedWords : List Word :=
  [0x05000000, 0x0F000000, 0x16000000, 0x17000000, 0x1C000000, 0x1F000000, 0x25000000, 0x2F000000, 0x34000000, 0xFF000000]
theorem witness_UnassignedOpcodesAreIllegal : Accepted State.reset ∧ ∀ k : Fin unassignedWords.length,
    ((0x05 ≤ ((unassignedWords.get k).extractLsb' 24 8).toNat ∧ ((unassignedWords.get k).extractLsb' 24 8).toNat ≤ 0x0F)
    ∨ ((unassignedWords.get k).extractLsb' 24 8).toNat = 0x16 ∨ ((unassignedWords.get k).extractLsb' 24 8).toNat = 0x17
    ∨ (0x1C ≤ ((unassignedWords.get k).extractLsb' 24 8).toNat ∧ ((unassignedWords.get k).extractLsb' 24 8).toNat ≤ 0x1F)
    ∨ (0x25 ≤ ((unassignedWords.get k).extractLsb' 24 8).toNat ∧ ((unassignedWords.get k).extractLsb' 24 8).toNat ≤ 0x2F)
    ∨ 0x34 ≤ ((unassignedWords.get k).extractLsb' 24 8).toNat) := by
  unfold Accepted; decide +kernel

/-- Each clause at the ends of its range: operands that fit, and the first values that do not. -/
theorem witness_AssemblerEmitsLegalWordsOnly :
    assemble Config.defaultParams (.fldWr (.cmd .pwmx) 1500) = some 0x180605DC
    ∧ ((23 : Byte).toNat < Config.defaultParams.frameLen ∧ 22 < Config.defaultParams.frameLen)
    ∧ (cmdNames[(0 : BitVec 4).toNat]? = some .pkt ∧ cmdNames[(9 : BitVec 4).toNat]? = some .angy
      ∧ cmdNames[(7 : BitVec 4).toNat]? = some .pwmy ∧ cmdWide .pwmy = true ∧ cmdWide .angy = false)
    ∧ (tlmNames[(0 : BitVec 4).toNat]? = some .pkt ∧ tlmNames[(12 : BitVec 4).toNat]? = some .servo
      ∧ tlmNames[(3 : BitVec 4).toNat]? = some .uphi ∧ tlmWide .uphi = true ∧ tlmWide .servo = false)
    ∧ (255 : Half).toNat < 256
    ∧ (¬ (-32768 ≤ (32768 : Int) ∧ (32768 : Int) ≤ 32767) ∧ ¬ (-32768 ≤ (-32769 : Int) ∧ (-32769 : Int) ≤ 32767))
    ∧ (¬ (0 ≤ (256 : Int) ∧ (256 : Int) ≤ 255) ∧ ¬ (0 ≤ (-1 : Int) ∧ (-1 : Int) ≤ 255))
    ∧ (¬ (0 ≤ (24 : Int) ∧ (24 : Int) ≤ 255 ∧ (24 : Int) < Config.defaultParams.frameLen))
    ∧ (¬ (0 ≤ (65536 : Int) ∧ (65536 : Int) ≤ 65535) ∧ ¬ (0 ≤ (-1 : Int) ∧ (-1 : Int) ≤ 65535))
    ∧ (¬ (0 ≤ (16 : Int) ∧ (16 : Int) ≤ 15) ∧ ¬ (0 ≤ (-1 : Int) ∧ (-1 : Int) ≤ 15)) := by decide

theorem witness_PseudoInstructionsExpand : frame1.length = 24 ∧ State.reset.params.frameLen = 24
    ∧ BufferValid State.reset.params State.reset.fb := by unfold BufferValid; decide

theorem witness_StepRunsTheDecodedCommand :
    Accepted (received frame1) ∧ decode 0x22000000 = .command .decCmd := by unfold Accepted; decide

/-- A word for each clause of IllegalFor at its boundary, and legal neighbours. -/
def illegalWords : List Word :=
  [0x00000001, 0xFF000000, 0x18100000, 0x33800000, 0x12180000, 0x13FF0000, 0x180B0000, 0x188D0000, 0x198F0000, 0x180A0000,
   0x18000100, 0x18890100]
def legalWords : List Word :=
  [0x12170000, 0x13170000, 0x190A0000, 0x198C0000, 0x3300FFFF, 0x2400000F, 0x1806FFFF, 0x188C00FF]
theorem witness_IllegalCommandsSetIllAndNothingElse : Accepted State.reset
    ∧ (∀ k : Fin illegalWords.length, IllegalFor State.reset.params (illegalWords.get k))
    ∧ (∀ k : Fin legalWords.length, ¬ IllegalFor State.reset.params (legalWords.get k)) := by
  unfold Accepted IllegalFor; decide +kernel
theorem witness_stat_clr_step_clears_ill :
    ∃ t, step (withSample (State.reset.setStatus 0x40) ⟨false, true, 0x1B000000⟩) = .next t
      ∧ statusIll (State.reset.setStatus 0x40).status = true ∧ statusIll t.status = false := by
  refine ⟨_, rfl, ?_⟩
  decide

theorem witness_IllFormedOperandsSetIll : Instr.wf State.reset.params (.fbWrite 24 0) = false
    ∧ Instr.wf State.reset.params (.fldRd .tlm 13) = false ∧ Instr.wf State.reset.params (.fldWr .cmd 10 0) = false
    ∧ Instr.wf State.reset.params (.fldWr .cmd 9 256) = false := by decide

/-- For ResetCancelsAndClears and IdlePortsChangeNothing; and log entry 20: with a sentinel of 0 NOCHG is not 0 after reset. -/
theorem witness_ResetCancelsAndClears : Accepted illegalState ∧ illegalState.params = Config.defaultParams
    ∧ illegalState.inputs = [] ∧ illegalState.params.sentinel8 ≠ 0 ∧ illegalState.params.sentinel16 ≠ 0
    ∧ noChange { Config.defaultParams with sentinel8 := 0 } CmdBank.zero = 0b110011111 := by unfold Accepted; decide

theorem witness_EveryStepCompletesUnderAnAcceptedRecord : Accepted { State.reset with params := wideRecord }
    ∧ Accepted { State.reset with params := tinyRecord } ∧ brokenRecord.constraints = false := by
  unfold Accepted; decide

theorem witness_EveryStepKeepsTheInvariant :
    BlockInvariant State.reset ∧ ∃ t, step (State.reset.withFetchWord 32 0x20000000) = .next t ∧ t ≠ State.reset := by
  refine ⟨?_, _, rfl, ?_⟩
  · unfold BlockInvariant BufferValid StatusConsistent; decide +kernel
  · intro h
    exact absurd (congrArg State.len h) (by decide +kernel)

theorem witness_FieldsHoldValuesOfTheirWidth :
    ∃ t, exec (.fldWr .tlm 3 0xFFFF) State.reset = .next t ∧ statusIll State.reset.status = false
      ∧ statusIll t.status = false := ⟨_, rfl, by decide, by decide⟩

/-- A command that changes each register, one for each clause. -/
theorem witness_OnlyNamedCommandsWriteEachRegister :
    (∃ t, exec (.fbWrite 23 1) State.reset = .next t ∧ t.fb ≠ State.reset.fb)
    ∧ (∃ t, exec (.fbSetlen 255) State.reset = .next t ∧ t.len ≠ State.reset.len)
    ∧ (∃ t, exec (.crcByte 1) State.reset = .next t ∧ t.crc ≠ State.reset.crc)
    ∧ (∃ t, exec (.a2w 0) State.reset = .next t ∧ t.result ≠ State.reset.result)
    ∧ (∃ t, exec (.fldWr .cmd 9 1) State.reset = .next t ∧ t.cf ≠ State.reset.cf)
    ∧ (∃ t, exec (.tlmStat 1) State.reset = .next t ∧ t.tf ≠ State.reset.tf) :=
  ⟨⟨_, rfl, by decide +kernel⟩, ⟨_, rfl, by decide +kernel⟩, ⟨_, rfl, by decide +kernel⟩, ⟨_, rfl, by decide +kernel⟩,
   ⟨_, rfl, by decide +kernel⟩, ⟨_, rfl, by decide +kernel⟩⟩

theorem witness_OnlyDecodesAndResetWriteDecodeOutcomes :
    (∃ t, step (withSample State.reset ⟨false, true, 0x23000000⟩) = .next t
      ∧ t.status.extractLsb' 0 6 ≠ State.reset.status.extractLsb' 0 6)
    ∧ (∃ t, step (withSample (State.reset.setStatus 0x3C) ⟨true, false, 0⟩) = .next t
      ∧ t.status.extractLsb' 0 6 ≠ (State.reset.setStatus 0x3C).status.extractLsb' 0 6) :=
  ⟨⟨_, rfl, by decide +kernel⟩, ⟨_, rfl, by decide +kernel⟩⟩

theorem witness_ReadsHaveNoSideEffect : Instr.wf State.reset.params (.fbRead 23) = true
    ∧ Instr.wf State.reset.params (.fldRd .cmd 10) = true ∧ Instr.wf State.reset.params .statRd = true := by decide

/-- A decode that fails and one that passes. -/
theorem witness_FailedDecodeKeepsFrameAndBanks :
    (∃ t, exec .decCmd (received frame4) = .next t ∧ statusDvalid t.status = false)
    ∧ (∃ t, exec .decTlm (received frame4) = .next t ∧ statusDvalid t.status = true) :=
  ⟨⟨_, rfl, by decide +kernel⟩, ⟨_, rfl, by decide +kernel⟩⟩

theorem witness_ReceivedByteCountDecidesLength : StandardLengths State.reset.params
    ∧ (frame1.take 23).length ≠ 24 ∧ (frame1 ++ [0]).length ≠ 24 := by unfold StandardLengths; decide

theorem witness_CodedBytesPassThrough : (-128 ≤ (-128 : Int) ∧ (-128 : Int) ≤ 127) ∧ (-128 ≤ (127 : Int) ∧ (127 : Int) ≤ 127)
    ∧ scanModeOf 5 = some .manual ∧ scanModeOf 6 = none
    ∧ ((7 : Byte) = 0 ∨ 6 < (7 : Byte).toNat) ∧ (7 : Byte) ≠ 0xFF ∧ (6 < (254 : Byte).toNat) ∧ (254 : Byte) ≠ 0xFF
    ∧ StandardLengths State.reset.params ∧ State.reset.fb.wf = true := by
  unfold StandardLengths; decide

end Sys2Proof.Tests
end

/-! PROOF. The state family: which registers a command may change, what each command does to STATUS and FB, the
invariant of the block, and the obligations about the state (10_state.md). -/

namespace Sys2Proof.Machine

open Sys2Proof.Spec

/-! ### Which registers a command may change (R24 to R30, R34) -/

/-- The registers a command may change; those whose operands are checked at execution name STATUS for ILL (R142). -/
def writesOf : Instr → List Piece
  | .nop => []
  | .crcInit | .crcByte _ => [.crc]
  | .crcFrame => [.crc, .result]
  | .crcRead | .fbGetlen | .statRd | .a2w _ | .w2a _ | .a2p _ _ | .p2a _ _ => [.result]
  | .fbClear | .fbPush _ => [.fb, .len]
  | .fbWrite _ _ => [.fb, .status]
  | .fbRead _ | .fldRd _ _ => [.result, .status]
  | .fbSetlen _ => [.len]
  | .fldWr .cmd _ _ => [.cf, .status]
  | .fldWr .tlm _ _ => [.tf, .status]
  | .statClr => [.status]
  | .encCmd | .encTlm => [.fb, .len, .crc, .result]
  | .decCmd => [.status, .crc, .result, .cf]
  | .decTlm => [.status, .crc, .result, .tf]
  | .tlmStat _ => [.tf]

/-- `t` differs from `s` at most in the registers named in `w`; the parameters and the samples to come are never
named. It is the frame `KeepsBut` with FB kept as data, not only as what it reads. -/
structure ChangesOnly (w : List Piece) (s t : State) : Prop where
  fb : Piece.fb ∉ w → t.fb = s.fb
  len : Piece.len ∉ w → t.len = s.len
  crc : Piece.crc ∉ w → t.crc = s.crc
  result : Piece.result ∉ w → t.result = s.result
  status : Piece.status ∉ w → t.status = s.status
  cf : Piece.cf ∉ w → t.cf = s.cf
  tf : Piece.tf ∉ w → t.tf = s.tf
  params : t.params = s.params
  inputs : t.inputs = s.inputs

namespace ChangesOnly

variable {w : List Piece} {s t e : State}

theorem refl (w : List Piece) (s : State) : ChangesOnly w s s := by
  constructor <;> intros <;> rfl

theorem keepsBut (h : ChangesOnly w s t) : KeepsBut w s t :=
  ⟨fun hw a => by rw [h.fb hw], h.len, h.crc, h.result, h.status, h.cf, h.tf, h.params, h.inputs⟩

theorem setFb (h : ChangesOnly w s t) (v : Memory) (hw : .fb ∈ w := by simp [writesOf]) :
    ChangesOnly w s (t.setFb v) := { h with fb := fun hn => absurd hw hn }

theorem setLen (h : ChangesOnly w s t) (v : Byte) (hw : .len ∈ w := by simp [writesOf]) :
    ChangesOnly w s (t.setLen v) := { h with len := fun hn => absurd hw hn }

theorem setCrc (h : ChangesOnly w s t) (v : Half) (hw : .crc ∈ w := by simp [writesOf]) :
    ChangesOnly w s (t.setCrc v) := { h with crc := fun hn => absurd hw hn }

theorem setResult (h : ChangesOnly w s t) (v : Word) (hw : .result ∈ w := by simp [writesOf]) :
    ChangesOnly w s (t.setResult v) := { h with result := fun hn => absurd hw hn }

theorem setStatus (h : ChangesOnly w s t) (v : Byte) (hw : .status ∈ w := by simp [writesOf]) :
    ChangesOnly w s (t.setStatus v) := { h with status := fun hn => absurd hw hn }

theorem setCf (h : ChangesOnly w s t) (v : CmdBank) (hw : .cf ∈ w := by simp [writesOf]) :
    ChangesOnly w s (t.setCf v) := { h with cf := fun hn => absurd hw hn }

theorem setTf (h : ChangesOnly w s t) (v : TlmBank) (hw : .tf ∈ w := by simp [writesOf]) :
    ChangesOnly w s (t.setTf v) := { h with tf := fun hn => absurd hw hn }

theorem recordCheck (h : ChangesOnly w s t) (k : FrameCheck) (hst : .status ∈ w := by simp [writesOf])
    (hcrc : .crc ∈ w := by simp [writesOf]) (hres : .result ∈ w := by simp [writesOf]) :
    ChangesOnly w s (recordCheck k t) := ((h.setStatus _ hst).setCrc _ hcrc).setResult _ hres

/-- A command that always completes has the frame of the state it completes in. -/
theorem of_complete (he : ChangesOnly w s e) (h : complete e = .next t) : ChangesOnly w s t :=
  (complete_eq_next e t).1 h ▸ he

/-- A command with an operand check has the frame of its effect, if that frame names STATUS. -/
theorem of_whenLegal {legal : Bool} (he : ChangesOnly w s e)
    (h : whenLegal legal s e = .next t) (hw : .status ∈ w := by simp [writesOf]) : ChangesOnly w s t := by
  rcases (whenLegal_eq_next _ _ _ _).1 h with ⟨-, rfl⟩ | ⟨-, rfl⟩
  · exact he
  · exact (refl w s).setStatus _ hw

end ChangesOnly

/-- The selectors of CF name its fields in the order of R28, and NOCHG by id 10 (R87). -/
theorem selectField_cmd (id : BitVec 4) :
    selectField .cmd id = if id = 10 then some .nochg else cmdNames[id.toNat]?.map Field.cmd := by
  revert id; decide

/-- The selectors of TF name its fields in the order of R30 (R87). -/
theorem selectField_tlm (id : BitVec 4) : selectField .tlm id = tlmNames[id.toNat]?.map Field.tlm := by
  revert id; decide

/-- Everything FLD_WR can do: write the field it selects, or be illegal (R88). -/
theorem execFldWr_cases {bank : Bank} {id : BitVec 4} {v : Half} {s t : State}
    (h : exec (.fldWr bank id v) s = .next t) :
    (∃ f, selectField bank id = some f ∧ fieldAccepts f v = true ∧ t = writeField s f v)
    ∨ t = s.setStatus (statusSetIll s.status) := by
  change execFldWr bank id v s = .next t at h
  unfold execFldWr at h
  split at h
  · exact .inr ((raiseIll_eq_next _ _).1 h).symm
  · next f hf =>
    rcases (whenLegal_eq_next _ _ _ _).1 h with ⟨hv, rfl⟩ | ⟨-, rfl⟩
    · exact .inl ⟨f, hf, hv, rfl⟩
    · exact .inr rfl

/-- Everything FLD_RD can do: read the field it selects into RESULT, or be illegal (R89). -/
theorem execFldRd_cases {bank : Bank} {id : BitVec 4} {s t : State} (h : exec (.fldRd bank id) s = .next t) :
    (∃ f, selectField bank id = some f ∧ t = s.setResult (zext32 (readField s f)))
    ∨ t = s.setStatus (statusSetIll s.status) := by
  change execFldRd bank id s = .next t at h
  unfold execFldRd at h
  split at h
  · exact .inr ((raiseIll_eq_next _ _).1 h).symm
  · next f hf => exact .inl ⟨f, hf, ((complete_eq_next _ _).1 h).symm⟩

/-- Everything a command that chooses between two states can do. -/
theorem complete_ite_cases {c : Prop} [Decidable c] {a b t : State} (h : complete (if c then a else b) = .next t) :
    (c ∧ t = a) ∨ (¬ c ∧ t = b) := by
  have ht := ((complete_eq_next _ _).1 h).symm
  split at ht
  · next hc => exact .inl ⟨hc, ht⟩
  · next hc => exact .inr ⟨hc, ht⟩

/-- Everything DEC_CMD can do: record the check, and load CF when every check passes (R104). -/
theorem execDecCmd_cases {s t : State} (h : exec .decCmd s = .next t) :
    ((frameCheck s.params.hdrCmd s).err = .none ∧ t = loadCmd (recordCheck (frameCheck s.params.hdrCmd s) s))
    ∨ ((frameCheck s.params.hdrCmd s).err ≠ .none ∧ t = recordCheck (frameCheck s.params.hdrCmd s) s) :=
  complete_ite_cases h

/-- Everything DEC_TLM can do: record the check, and load TF when every check passes (R105). -/
theorem execDecTlm_cases {s t : State} (h : exec .decTlm s = .next t) :
    ((frameCheck s.params.hdrTlm s).err = .none ∧ t = loadTlm (recordCheck (frameCheck s.params.hdrTlm s) s))
    ∨ ((frameCheck s.params.hdrTlm s).err ≠ .none ∧ t = recordCheck (frameCheck s.params.hdrTlm s) s) :=
  complete_ite_cases h

/-- A field write changes only the bank that the selector names. -/
theorem writeField_changesOnly {bank : Bank} {id : BitVec 4} {f : Field} (hf : selectField bank id = some f)
    (s : State) (v : Half) : ChangesOnly (writesOf (.fldWr bank id v)) s (writeField s f v) := by
  have base := ChangesOnly.refl (writesOf (.fldWr bank id v)) s
  cases bank with
  | cmd =>
    cases f with
    | cmd k => exact base.setCf _
    | nochg => exact base
    | tlm k => rw [selectField_cmd] at hf; split at hf <;> simp at hf
  | tlm =>
    rw [selectField_tlm, Option.map_eq_some_iff] at hf
    obtain ⟨k, -, rfl⟩ := hf
    exact base.setTf _

/-- A command that completes changes no register but those `writesOf` names for it. -/
theorem exec_changesOnly {i : Instr} {s t : State} (h : exec i s = .next t) : ChangesOnly (writesOf i) s t := by
  have base := ChangesOnly.refl (writesOf i) s
  cases i with
  | nop => exact base.of_complete h
  | crcInit | crcByte => exact (base.setCrc _).of_complete h
  | crcFrame => exact ((base.setCrc _).setResult _).of_complete h
  | crcRead | fbGetlen | statRd | a2w | w2a | a2p | p2a => exact (base.setResult _).of_complete h
  | fbClear | fbPush => exact ((base.setFb _).setLen _).of_complete h
  | fbWrite => exact (base.setFb _).of_whenLegal h
  | fbRead => exact (base.setResult _).of_whenLegal h
  | fbSetlen => exact (base.setLen _).of_complete h
  | fldWr bank =>
    rcases execFldWr_cases h with ⟨f, hf, -, rfl⟩ | rfl
    · exact writeField_changesOnly hf s _
    · cases bank <;> exact base.setStatus _
  | fldRd =>
    rcases execFldRd_cases h with ⟨f, -, rfl⟩ | rfl
    · exact base.setResult _
    · exact base.setStatus _
  | statClr => exact (base.setStatus _).of_complete h
  | encCmd | encTlm => exact ((((base.setFb _).setLen _).setCrc _).setResult _).of_complete h
  | decCmd =>
    rcases execDecCmd_cases h with ⟨-, rfl⟩ | ⟨-, rfl⟩
    · exact (base.recordCheck _).setCf _
    · exact base.recordCheck _
  | decTlm =>
    rcases execDecTlm_cases h with ⟨-, rfl⟩ | ⟨-, rfl⟩
    · exact (base.recordCheck _).setTf _
    · exact base.recordCheck _
  | tlmStat => exact (base.setTf _).of_complete h

theorem fb_mem_writesOf {i : Instr} (h : .fb ∈ writesOf i) :
    i = .fbClear ∨ (∃ b, i = .fbPush b) ∨ (∃ j b, i = .fbWrite j b) ∨ i = .encCmd ∨ i = .encTlm := by
  cases i with
  | fldWr bank => cases bank <;> simp [writesOf] at h
  | _ => simp [writesOf] at h ⊢

theorem len_mem_writesOf {i : Instr} (h : .len ∈ writesOf i) :
    i = .fbClear ∨ (∃ b, i = .fbPush b) ∨ (∃ b, i = .fbSetlen b) ∨ i = .encCmd ∨ i = .encTlm := by
  cases i with
  | fldWr bank => cases bank <;> simp [writesOf] at h
  | _ => simp [writesOf] at h ⊢

theorem crc_mem_writesOf {i : Instr} (h : .crc ∈ writesOf i) :
    i = .crcInit ∨ (∃ b, i = .crcByte b) ∨ i = .crcFrame ∨ i = .encCmd ∨ i = .encTlm ∨ i = .decCmd
      ∨ i = .decTlm := by
  cases i with
  | fldWr bank => cases bank <;> simp [writesOf] at h
  | _ => simp [writesOf] at h ⊢

theorem result_mem_writesOf {i : Instr} (h : .result ∈ writesOf i) :
    i = .crcRead ∨ i = .crcFrame ∨ (∃ j, i = .fbRead j) ∨ i = .fbGetlen ∨ (∃ bank id, i = .fldRd bank id)
      ∨ i = .statRd ∨ i = .encCmd ∨ i = .encTlm ∨ i = .decCmd ∨ i = .decTlm ∨ (∃ v, i = .a2w v)
      ∨ (∃ b, i = .w2a b) ∨ (∃ ax v, i = .a2p ax v) ∨ (∃ ax v, i = .p2a ax v) := by
  cases i with
  | fldWr bank => cases bank <;> simp [writesOf] at h
  | _ => simp [writesOf] at h ⊢

theorem cf_mem_writesOf {i : Instr} (h : .cf ∈ writesOf i) : (∃ id v, i = .fldWr .cmd id v) ∨ i = .decCmd := by
  cases i with
  | fldWr bank => cases bank <;> simp [writesOf] at h ⊢
  | _ => simp [writesOf] at h ⊢

theorem tf_mem_writesOf {i : Instr} (h : .tf ∈ writesOf i) :
    (∃ id v, i = .fldWr .tlm id v) ∨ i = .decTlm ∨ ∃ n, i = .tlmStat n := by
  cases i with
  | fldWr bank => cases bank <;> simp [writesOf] at h ⊢
  | _ => simp [writesOf] at h ⊢

/-- Settles O53: a register that differs after a command is one that `writesOf` names, which is one of the commands the
rules name for it. -/
theorem onlyNamedCommandsWriteEachRegister : Obligations.OnlyNamedCommandsWriteEachRegister := by
  intro i s t h
  have hc := exec_changesOnly h
  exact ⟨fun hne => fb_mem_writesOf (not_imp_comm.1 hc.fb hne),
    fun hne => len_mem_writesOf (not_imp_comm.1 hc.len hne),
    fun hne => crc_mem_writesOf (not_imp_comm.1 hc.crc hne),
    fun hne => result_mem_writesOf (not_imp_comm.1 hc.result hne),
    fun hne => cf_mem_writesOf (not_imp_comm.1 hc.cf hne),
    fun hne => tf_mem_writesOf (not_imp_comm.1 hc.tf hne), hc.params, hc.inputs⟩

/-! ### STATUS stays consistent (R27, R91, R106, R142) -/

/-- What a command that completes leaves in STATUS: the same, ILL set, ILL cleared by STAT_CLR, or a decode's record. -/
theorem exec_status_cases {i : Instr} {s t : State} (h : exec i s = .next t) :
    t.status = s.status ∨ t.status = statusSetIll s.status
    ∨ (i = .statClr ∧ t.status = statusClearIll s.status)
    ∨ ((i = .decCmd ∨ i = .decTlm) ∧ ∃ hdr, t.status = checkedStatus s (frameCheck hdr s)) := by
  cases i with
  | fbWrite | fbRead =>
    rcases (whenLegal_eq_next _ _ _ _).1 h with ⟨-, rfl⟩ | ⟨-, rfl⟩
    · exact .inl rfl
    · exact .inr (.inl rfl)
  | fldWr =>
    rcases execFldWr_cases h with ⟨f, -, -, rfl⟩ | rfl
    · exact .inl (writeField_status ..)
    · exact .inr (.inl rfl)
  | fldRd =>
    rcases execFldRd_cases h with ⟨f, -, rfl⟩ | rfl
    · exact .inl rfl
    · exact .inr (.inl rfl)
  | statClr =>
    obtain rfl := (complete_eq_next _ _).1 h
    exact .inr (.inr (.inl ⟨rfl, rfl⟩))
  | decCmd =>
    refine .inr (.inr (.inr ⟨.inl rfl, s.params.hdrCmd, ?_⟩))
    rcases execDecCmd_cases h with ⟨-, rfl⟩ | ⟨-, rfl⟩ <;> rfl
  | decTlm =>
    refine .inr (.inr (.inr ⟨.inr rfl, s.params.hdrTlm, ?_⟩))
    rcases execDecTlm_cases h with ⟨-, rfl⟩ | ⟨-, rfl⟩ <;> rfl
  | _ => exact .inl ((exec_changesOnly h).status (by simp [writesOf]))

/-- A consistent STATUS says nothing of ILL: it stays consistent when every bit but bit 6 is as before. -/
theorem StatusConsistent.of_agree {P : Params} {st st' : Byte} (h : StatusConsistent P st)
    (e : ∀ k, k < 8 → k ≠ 6 → st'.getLsbD k = st.getLsbD k) : StatusConsistent P st' := by
  have herr : statusErr st' = statusErr st := by
    apply BitVec.eq_of_getLsbD_eq
    intro k hk
    simpa [statusErr, hk] using e k (by omega) (by omega)
  have hlen : statusLenOk st' = statusLenOk st := e 2 (by omega) (by omega)
  have hcrc : statusCrcOk st' = statusCrcOk st := e 3 (by omega) (by omega)
  have hsat : statusSatMatch st' = statusSatMatch st := e 4 (by omega) (by omega)
  have hval : statusDvalid st' = statusDvalid st := e 5 (by omega) (by omega)
  have hres : statusReserved st' = statusReserved st := e 7 (by omega) (by omega)
  rwa [StatusConsistent, herr, hlen, hcrc, hsat, hval, hres]

theorem StatusConsistent.setIll {P : Params} {st : Byte} (h : StatusConsistent P st) :
    StatusConsistent P (statusSetIll st) :=
  h.of_agree fun k hk h6 => by simp [statusSetIll_bit st k hk, h6]

theorem StatusConsistent.clearIll {P : Params} {st : Byte} (h : StatusConsistent P st) :
    StatusConsistent P (statusClearIll st) :=
  h.of_agree fun k hk h6 => by simp [statusClearIll_bit st k hk, h6]

/-- STATUS at reset (R160) is consistent under every record. -/
theorem statusConsistent_zero (P : Params) : StatusConsistent P 0 := by
  refine ⟨?_, ?_, ?_, ?_, ?_, fun _ => ?_⟩ <;> decide

theorem DecodeErr.code_injective : Function.Injective DecodeErr.code := by
  intro a b
  cases a <;> cases b <;> decide

/-- The outcome NONE means that the length and the CRC matched (R103). -/
theorem matches_of_decodeErr_none {pol : SatIdPolicy} {lenMatch hdrMatch satMatch crcMatch : Bool}
    (h : decodeErr pol lenMatch hdrMatch satMatch crcMatch = .none) : lenMatch = true ∧ crcMatch = true := by
  unfold decodeErr at h
  split_ifs at h with hl hh hs hc
  exact ⟨by simpa using hl, by simpa using hc⟩

/-- The outcome LENGTH means that the length did not match (R103). -/
theorem lenMatch_of_decodeErr_length {pol : SatIdPolicy} {lenMatch hdrMatch satMatch crcMatch : Bool}
    (h : decodeErr pol lenMatch hdrMatch satMatch crcMatch = .length) : lenMatch = false := by
  unfold decodeErr at h
  split_ifs at h with hl
  simpa using hl

/-- A decode leaves a consistent STATUS whatever it finds, if bit 7 was 0 (R104 to R106). -/
theorem statusConsistent_checkedStatus {s : State} (hdr : Byte) (hres : statusReserved s.status = false) :
    StatusConsistent s.params (checkedStatus s (frameCheck hdr s)) := by
  have hnone : (frameCheck hdr s).err = .none →
      (frameCheck hdr s).lenMatch = true ∧ (frameCheck hdr s).crcMatch = true := matches_of_decodeErr_none
  have hlength : (frameCheck hdr s).err = .length → (frameCheck hdr s).lenMatch = false :=
    lenMatch_of_decodeErr_length
  generalize frameCheck hdr s = k at *
  obtain ⟨herr, hlen, hcrc, -, hval, -, hbit7⟩ := statusDecoded_fields s.status k.err
    (decodeFlags s.params.flagPolicy k.err k.lenMatch k.crcMatch).1
    (decodeFlags s.params.flagPolicy k.err k.lenMatch k.crcMatch).2 k.satMatch (k.err == .none)
  rw [StatusConsistent, checkedStatus, herr, hlen, hcrc, hval, hbit7]
  simp only [DecodeErr.code_injective.eq_iff, beq_iff_eq]
  refine ⟨hres, fun he => ⟨he, ?_⟩, ?_, fun he => ?_, fun he hd => ?_, fun hp => ?_⟩
  · cases s.params.flagPolicy <;> simp [decodeFlags, he, hnone he]
  · cases s.params.flagPolicy <;> simp +contextual [decodeFlags]
  · cases s.params.flagPolicy <;> simp [decodeFlags, he, hlength he]
  · simp [he] at hd
  · simp [hp, decodeFlags]

/-- A command keeps STATUS consistent. -/
theorem exec_statusConsistent {i : Instr} {s t : State} (h : exec i s = .next t)
    (hs : StatusConsistent s.params s.status) : StatusConsistent s.params t.status := by
  rcases exec_status_cases h with e | e | ⟨-, e⟩ | ⟨-, hdr, e⟩
  · exact e ▸ hs
  · exact e ▸ hs.setIll
  · exact e ▸ hs.clearIll
  · exact e ▸ statusConsistent_checkedStatus hdr hs.1

/-! ### FB stays canonical and inside the frame (R23, R34) -/

theorem bufferValid_nil (P : Params) : BufferValid P [] := ⟨Memory.wf_nil, Memory.below_nil _⟩

/-- A byte written inside the frame keeps FB valid. -/
theorem BufferValid.write {P : Params} {m : Memory} (h : BufferValid P m) {a : Nat} (ha : a < P.frameLen) (b : Byte) :
    BufferValid P (m.write a b) :=
  ⟨Memory.wf_write h.1 a b, Memory.below_write ha b h.2⟩

/-- An encoded frame is FRAME_LEN bytes long, so writing one keeps FB valid. -/
theorem BufferValid.frameOf {P : Params} {m : Memory} (h : BufferValid P m) (hP : P.constraints = true)
    {p : List Byte} (hp : p.length = P.payloadLen) : BufferValid P (frameOf P p m) :=
  ⟨wf_frameOf P p h.1, below_frameOf P p hp ((constraints_iff P).1 hP).1.ge h.2⟩

/-- A pushed byte is written inside the frame or dropped (R83). -/
theorem BufferValid.pushedFb {s : State} (h : BufferValid s.params s.fb) (b : Byte) :
    BufferValid s.params (pushedFb s b) := by
  unfold Machine.pushedFb
  split
  · next hlt => exact h.write hlt b
  · exact h

/-- A command keeps FB valid under an accepted record. -/
theorem exec_bufferValid {i : Instr} {s t : State} (h : exec i s = .next t) (hP : s.params.constraints = true)
    (hb : BufferValid s.params s.fb) : BufferValid s.params t.fb := by
  by_cases hw : .fb ∈ writesOf i
  · rcases fb_mem_writesOf hw with rfl | ⟨b, rfl⟩ | ⟨j, b, rfl⟩ | rfl | rfl
    · obtain rfl := (complete_eq_next _ _).1 h
      exact bufferValid_nil _
    · obtain rfl := (complete_eq_next _ _).1 h
      exact hb.pushedFb b
    · rcases (whenLegal_eq_next _ _ _ _).1 h with ⟨hj, rfl⟩ | ⟨-, rfl⟩
      · exact hb.write (of_decide_eq_true hj) b
      · exact hb
    · obtain rfl := (complete_eq_next _ _).1 h
      exact hb.frameOf hP (length_packCmd _ _)
    · obtain rfl := (complete_eq_next _ _).1 h
      exact hb.frameOf hP (length_packTlm _ _)
  · rw [(exec_changesOnly h).fb hw]
    exact hb

/-! ### The invariant of the block -/

/-- Reset establishes the invariant from an accepted record alone (R160, R161). -/
theorem blockInvariant_resetBlock {s : State} (hP : s.params.constraints = true) : BlockInvariant (resetBlock s) :=
  ⟨hP, bufferValid_nil _, statusConsistent_zero _⟩

/-- An illegal word keeps the invariant (R142). -/
theorem BlockInvariant.raiseIll {s : State} (h : BlockInvariant s) :
    BlockInvariant (s.setStatus (statusSetIll s.status)) :=
  ⟨h.1, h.2.1, h.2.2.setIll⟩

/-- The samples to come are no part of the invariant. -/
theorem BlockInvariant.setInputs {s : State} (h : BlockInvariant s) (l : List PortSample) :
    BlockInvariant (s.setInputs l) := h

/-- Every command keeps the invariant. -/
theorem BlockInvariant.exec {i : Instr} {s t : State} (hs : BlockInvariant s) (h : exec i s = .next t) :
    BlockInvariant t := by
  obtain ⟨hP, hb, hst⟩ := hs
  rw [BlockInvariant, (exec_changesOnly h).params]
  exact ⟨hP, exec_bufferValid h hP hb, exec_statusConsistent h hst⟩

/-- Every port sample keeps the invariant. -/
theorem BlockInvariant.runSample {p : PortSample} {s t : State} (hs : BlockInvariant s)
    (h : runSample p s = .next t) : BlockInvariant t := by
  rcases runSample_cases h with ⟨-, rfl⟩ | ⟨-, -, i, -, hi⟩ | ⟨-, -, -, rfl⟩ | ⟨-, -, rfl⟩
  · exact blockInvariant_resetBlock hs.1
  · exact hs.exec hi
  · exact hs.raiseIll
  · exact hs

/-- Settles O50: the reset state is a reset of itself, under the default record. -/
theorem resetMeetsTheInvariant : Obligations.ResetMeetsTheInvariant :=
  blockInvariant_resetBlock (s := State.reset) (by decide)

/-- Settles O51: a step stands still or runs one port sample, and every port sample keeps the invariant. -/
theorem everyStepKeepsTheInvariant : Obligations.EveryStepKeepsTheInvariant := by
  intro s t hs h
  obtain ⟨-, ⟨-, rfl⟩ | ⟨p, rest, -, hrun⟩⟩ := step_cases h
  · exact hs
  · exact (hs.setInputs rest).runSample hrun

/-! ### The widths of the fields (R31, R88) -/

theorem toNat_byteField_lt (b : Byte) : (b.setWidth 16).toNat < 2 ^ 8 := by
  rw [BitVec.toNat_setWidth_of_le (by decide)]
  exact b.isLt

/-- A field of CF reads below 2 to the power of its width (R28). -/
theorem CmdBank.toNat_read_lt (cf : CmdBank) (k : CmdField) :
    (cf.read k).toNat < 2 ^ (if cmdWide k then 16 else 8) := by
  cases k
  case pwmx | pwmy => exact BitVec.isLt _
  all_goals exact toNat_byteField_lt _

/-- A field of TF reads below 2 to the power of its width (R30). -/
theorem TlmBank.toNat_read_lt (tf : TlmBank) (k : TlmField) :
    (tf.read k).toNat < 2 ^ (if tlmWide k then 16 else 8) := by
  cases k
  case uplo | uphi | pwmx | pwmy => exact BitVec.isLt _
  all_goals exact toNat_byteField_lt _

/-- A value whose high byte is 0 is not changed by cutting it to a byte. -/
theorem setWidth_byte_of_high_eq_zero {v : Half} (h : v.extractLsb' 8 8 = 0) : (v.setWidth 8).setWidth 16 = v := by
  rw [extract_eq_zero] at h
  apply BitVec.eq_of_toNat_eq
  have := v.isLt
  simp only [BitVec.toNat_setWidth]
  omega

/-- A value that a field accepts fits its width: cutting it to the width leaves it whole (R88). -/
theorem cut_eq_self_of_fieldAccepts {f : Field} {v : Half} (h : fieldAccepts f v = true) :
    (if f.width = 8 then (v.setWidth 8).setWidth 16 else v) = v := by
  split
  · next hw =>
    refine setWidth_byte_of_high_eq_zero ?_
    cases f with
    | nochg => cases h
    | cmd | tlm => simpa [fieldAccepts, hw] using h
  · rfl

/-- ILL reads 1 once it is set (R142). -/
@[simp] theorem statusIll_statusSetIll (st : Byte) : statusIll (statusSetIll st) = true :=
  (statusSetIll_bit st 6 (by omega)).trans (by simp)

/-- A command that leaves ILL clear was legal, so FLD_WR has written the field its selector names, whole. -/
theorem execFldWr_of_ill_clear {bank : Bank} {id : BitVec 4} {v : Half} {s t : State}
    (h : exec (.fldWr bank id v) s = .next t) (hill : statusIll t.status = false) :
    ∃ f, selectField bank id = some f ∧ fieldAccepts f v = true ∧ readField t f = v := by
  rcases execFldWr_cases h with ⟨f, hf, hv, rfl⟩ | rfl
  · refine ⟨f, hf, hv, ?_⟩
    have hcut := cut_eq_self_of_fieldAccepts hv
    cases f with
    | cmd k => simpa [readField, CmdBank.read_write] using hcut
    | nochg => cases hv
    | tlm k => simpa [readField, TlmBank.read_write] using hcut
  · simp at hill

/-- Settles O52: a field is as wide as its register, and a value that FLD_WR accepts fits the field. -/
theorem fieldsHoldValuesOfTheirWidth : Obligations.FieldsHoldValuesOfTheirWidth := by
  refine ⟨fun s => s.cf.toNat_read_lt, fun s => s.tf.toNat_read_lt, fun bank id v s t h _ hill => ?_⟩
  obtain ⟨f, hf, hv, hread⟩ := execFldWr_of_ill_clear h hill
  refine ⟨?_, ?_⟩ <;> rintro rfl
  · rw [selectField_cmd] at hf
    split at hf
    · cases hf
      cases hv
    · obtain ⟨k, hk, rfl⟩ := Option.map_eq_some_iff.1 hf
      exact ⟨k, hk, hread⟩
  · rw [selectField_tlm] at hf
    obtain ⟨k, hk, rfl⟩ := Option.map_eq_some_iff.1 hf
    exact ⟨k, hk, hread⟩

/-! ### What a step does with the sample at the head (R20, R42) -/

/-- A step takes the sample in front and runs it on the state without it (R20). -/
theorem step_withSample {s : State} (h : Accepted s) (p : PortSample) : step (withSample s p) = runSample p s :=
  (step_of_accepted (s := withSample s p) h).trans (takeSample_cons rfl)

/-- A presented word that decodes to a command is that command's meaning (R42). -/
theorem runWord_of_command {w : Word} {i : Instr} (h : decode w = .command i) (s : State) :
    runWord w s = exec i s := by
  simp [runWord, h]

/-- Settles O44: the step takes the sample, which runs its word, which is the command's meaning. -/
theorem stepRunsTheDecodedCommand : Obligations.StepRunsTheDecodedCommand :=
  fun s _ _ hs hw => (step_withSample hs _).trans (runWord_of_command hw s)

/-- Settles O48: a sample that asserts nothing, and no sample at all, leave the state. -/
theorem idlePortsChangeNothing : Obligations.IdlePortsChangeNothing :=
  ⟨fun _ _ hs => step_withSample hs _, fun _ hs hin => (step_of_accepted hs).trans (takeSample_nil hin)⟩

end Sys2Proof.Machine

/-! PROOF. The memory family: the reading commands change only RESULT (20_memory.md). -/

namespace Sys2Proof.Machine

/-! ### The reading commands (R38) -/

/-- A legal `i` sets RESULT to a value of the state and changes nothing else, and that value is the same whatever RESULT
held before: a read without a side effect. -/
def IsPureRead (i : Instr) : Prop :=
  ∃ v : State → Word, (∀ s r, v (s.setResult r) = v s) ∧
    ∀ s : State, i.wf s.params = true → exec i s = .next (s.setResult (v s))

/-- A read without a side effect completes with only RESULT changed, and read again it answers the same state. -/
theorem IsPureRead.idempotent {i : Instr} (hi : IsPureRead i) {s : State} (hwf : i.wf s.params = true) :
    ∃ t, exec i s = .next t ∧ t = { s with result := t.result } ∧ exec i t = .next t := by
  obtain ⟨v, hv, hexec⟩ := hi
  have hagain := hexec (s.setResult (v s)) hwf
  rw [hv] at hagain
  exact ⟨s.setResult (v s), hexec s hwf, rfl, hagain⟩

theorem isPureRead_fbGetlen : IsPureRead .fbGetlen := ⟨fun s => zext32 s.len, fun _ _ => rfl, fun _ _ => rfl⟩

theorem isPureRead_statRd : IsPureRead .statRd := ⟨fun s => zext32 s.status, fun _ _ => rfl, fun _ _ => rfl⟩

theorem isPureRead_crcRead : IsPureRead .crcRead :=
  ⟨fun s => zext32 (s.crc ^^^ s.params.crcXorout), fun _ _ => rfl, fun _ _ => rfl⟩

/-- A legal FB_READ passes its index check (R85). -/
theorem isPureRead_fbRead (j : Byte) : IsPureRead (.fbRead j) := by
  refine ⟨fun s => zext32 (s.fb.read j.toNat), fun _ _ => rfl, fun s hwf => ?_⟩
  exact (whenLegal_eq_next _ _ _ _).2 (.inl ⟨hwf, rfl⟩)

/-- A valid selector names a field (R87). -/
theorem exists_selectField_of_selectorValid {bank : Bank} {id : BitVec 4} (h : selectorValid bank id = true) :
    ∃ f, selectField bank id = some f := by
  rw [← Option.isSome_iff_exists]
  revert id
  cases bank <;> decide

/-- No field is read from RESULT. -/
@[simp] theorem readField_setResult (s : State) (r : Word) (f : Field) : readField (s.setResult r) f = readField s f := by
  cases f <;> rfl

/-- FLD_RD with a selector that names a field reads it into RESULT (R89). -/
theorem exec_fldRd_of_selectField {bank : Bank} {id : BitVec 4} {f : Field} (hf : selectField bank id = some f)
    (s : State) : exec (.fldRd bank id) s = .next (s.setResult (zext32 (readField s f))) := by
  change execFldRd bank id s = _
  simp [execFldRd, hf]

/-- A legal FLD_RD reads the field its selector names (R89). -/
theorem isPureRead_fldRd {bank : Bank} {id : BitVec 4} (h : selectorValid bank id = true) :
    IsPureRead (.fldRd bank id) := by
  obtain ⟨f, hf⟩ := exists_selectField_of_selectorValid h
  exact ⟨fun s => zext32 (readField s f), fun s r => congrArg zext32 (readField_setResult s r f),
    fun s _ => exec_fldRd_of_selectField hf s⟩

/-- Settles O55: each of the five commands is a read without a side effect. -/
theorem readsHaveNoSideEffect : Obligations.ReadsHaveNoSideEffect := by
  intro i s hi hwf
  refine IsPureRead.idempotent ?_ hwf
  obtain hi | ⟨j, rfl⟩ | ⟨bank, id, rfl⟩ := hi
  · simp only [List.mem_cons, List.not_mem_nil, or_false] at hi
    obtain rfl | rfl | rfl := hi
    · exact isPureRead_fbGetlen
    · exact isPureRead_statRd
    · exact isPureRead_crcRead
  · exact isPureRead_fbRead j
  · exact isPureRead_fldRd hwf

end Sys2Proof.Machine

/-! PROOF. The encoding family, decoder and encoder: a word decodes to a command exactly when it is the command's
encoding, which is when a row of the opcode table matches it (30_encoding.md R40 to R44). -/

namespace Sys2Proof

open Sys2Proof.Spec Sys2Proof.Machine

/-! ### Bit fields that must be zero (R41) -/

/-- A field between zero bits above and below it is masked away exactly when its bits are 0. -/
theorem and_mask_eq_zero_iff {m lo n : Nat} (x : BitVec m) {mask : BitVec m}
    (hmask : ∀ k, k < m → mask.getLsbD k = decide (lo ≤ k ∧ k < lo + n)) :
    x &&& mask = 0 ↔ x.extractLsb' lo n = 0 := by
  constructor
  · intro h
    apply BitVec.eq_of_getLsbD_eq
    intro k hk
    by_cases hm : lo + k < m
    · have hbit := congrArg (fun y => y.getLsbD (lo + k)) h
      simpa [hmask _ hm, hk] using hbit
    · simp [hk, BitVec.getLsbD_of_ge x (lo + k) (by omega)]
  · intro h
    apply BitVec.eq_of_getLsbD_eq
    intro k hk
    by_cases hin : lo ≤ k ∧ k < lo + n
    · have hbit := congrArg (fun y => y.getLsbD (k - lo)) h
      simpa [show k - lo < n by omega, show lo + (k - lo) = k by omega, hmask k hk, hin] using hbit
    · simp [hmask k hk, hin]

/-- A value whose upper bits are 0 is its lower bits, zero-extended. -/
theorem zero_append_low {h l : Nat} {x : BitVec (h + l)} (hz : x.extractLsb' l h = 0) :
    0#h ++ x.extractLsb' 0 l = x := by
  calc 0#h ++ x.extractLsb' 0 l
      = x.extractLsb' l h ++ x.extractLsb' 0 l := congrArg (· ++ x.extractLsb' 0 l) hz.symm
    _ = x.extractLsb' 0 (h + l) := BitVec.extractLsb'_append_extractLsb'_eq_extractLsb' (Nat.zero_add l).symm
    _ = x := BitVec.extractLsb'_eq_self

theorem and_allOnes_eq_zero_iff {n : Nat} (x : BitVec n) : x &&& BitVec.allOnes n = 0 ↔ x = 0 := by
  rw [BitVec.and_allOnes]

/-- The A byte of a field selector is its bank and its id (R41). -/
theorem selectorByte_of_zero {a : Byte} (h : a.extractLsb' 4 3 = 0) :
    selectorByte (bankOf a) (a.extractLsb' 0 4) = a := by
  revert a; decide

/-- The A byte of an axis is its bit 0 (R41). -/
theorem axisByte_of_zero {a : Byte} (h : a.extractLsb' 1 7 = 0) :
    axisByte (if a.getLsbD 0 then .y else .x) = a := by
  revert a; decide

/-! ### What each format reads (R41) -/

variable {op a : Byte} {d : Half} {j : Instr}

theorem formatZ_eq_command {i : Instr} : formatZ a d i = .command j ↔ (a = 0 ∧ d = 0) ∧ i = j := by
  unfold formatZ; split <;> simp_all

theorem formatB_eq_command {i : Byte → Instr} :
    formatB a d i = .command j ↔ (a = 0 ∧ d.extractLsb' 8 8 = 0) ∧ i (d.extractLsb' 0 8) = j := by
  unfold formatB; split <;> simp_all

theorem formatH_eq_command {i : Half → Instr} : formatH a d i = .command j ↔ a = 0 ∧ i d = j := by
  unfold formatH; split <;> simp_all

theorem formatIB_eq_command {i : Byte → Byte → Instr} :
    formatIB a d i = .command j ↔ d.extractLsb' 8 8 = 0 ∧ i a (d.extractLsb' 0 8) = j := by
  unfold formatIB; split <;> simp_all

theorem formatIZ_eq_command {i : Byte → Instr} : formatIZ a d i = .command j ↔ d = 0 ∧ i a = j := by
  unfold formatIZ; split <;> simp_all

theorem formatFH_eq_command {i : Bank → BitVec 4 → Half → Instr} :
    formatFH a d i = .command j ↔ a.extractLsb' 4 3 = 0 ∧ i (bankOf a) (a.extractLsb' 0 4) d = j := by
  unfold formatFH; split <;> simp_all

theorem formatFZ_eq_command {i : Bank → BitVec 4 → Instr} :
    formatFZ a d i = .command j ↔ (a.extractLsb' 4 3 = 0 ∧ d = 0) ∧ i (bankOf a) (a.extractLsb' 0 4) = j := by
  unfold formatFZ; split <;> [split; skip] <;> simp_all

theorem formatXH_eq_command {i : Axis → Half → Instr} :
    formatXH a d i = .command j ↔ a.extractLsb' 1 7 = 0 ∧ i (if a.getLsbD 0 then .y else .x) d = j := by
  unfold formatXH; split <;> simp_all

theorem formatN4_eq_command {i : BitVec 4 → Instr} :
    formatN4 a d i = .command j ↔ (a = 0 ∧ d.extractLsb' 4 12 = 0) ∧ i (d.extractLsb' 0 4) = j := by
  unfold formatN4; split <;> simp_all

/-! ### A word decodes to a command exactly when it is the command's encoding (R42) -/

/-- A command's own fields decode to it. -/
theorem decodeFields_of_instr (i : Instr) : decodeFields i.op i.a i.d = .command i :=
  match i with
  | .nop => Laws.FieldsDecode.nop
  | .crcInit => Laws.FieldsDecode.crcInit
  | .crcByte b => Laws.FieldsDecode.crcByte b
  | .crcRead => Laws.FieldsDecode.crcRead
  | .crcFrame => Laws.FieldsDecode.crcFrame
  | .fbClear => Laws.FieldsDecode.fbClear
  | .fbPush b => Laws.FieldsDecode.fbPush b
  | .fbWrite k b => Laws.FieldsDecode.fbWrite k b
  | .fbRead k => Laws.FieldsDecode.fbRead k
  | .fbSetlen b => Laws.FieldsDecode.fbSetlen b
  | .fbGetlen => Laws.FieldsDecode.fbGetlen
  | .fldWr bank id v => Laws.FieldsDecode.fldWr bank id v
  | .fldRd bank id => Laws.FieldsDecode.fldRd bank id
  | .statRd => Laws.FieldsDecode.statRd
  | .statClr => Laws.FieldsDecode.statClr
  | .encCmd => Laws.FieldsDecode.encCmd
  | .encTlm => Laws.FieldsDecode.encTlm
  | .decCmd => Laws.FieldsDecode.decCmd
  | .decTlm => Laws.FieldsDecode.decTlm
  | .tlmStat n => Laws.FieldsDecode.tlmStat n
  | .a2w v => Laws.FieldsDecode.a2w v
  | .w2a b => Laws.FieldsDecode.w2a b
  | .a2p axis v => Laws.FieldsDecode.a2p axis v
  | .p2a axis v => Laws.FieldsDecode.p2a axis v

/-- Fields that decode to a command are that command's own: no bit of a legal word is dropped. -/
theorem fields_of_decodeFields (h : decodeFields op a d = .command j) : op = j.op ∧ a = j.a ∧ d = j.d := by
  unfold decodeFields at h
  split at h
  case h_1 | h_2 | h_4 | h_5 | h_6 | h_11 | h_14 | h_15 | h_16 | h_17 | h_18 | h_19 =>
    obtain ⟨⟨rfl, rfl⟩, rfl⟩ := formatZ_eq_command.1 h
    exact ⟨rfl, rfl, rfl⟩
  case h_3 | h_7 | h_10 | h_22 =>
    obtain ⟨⟨rfl, hd⟩, rfl⟩ := formatB_eq_command.1 h
    exact ⟨rfl, rfl, (zero_append_low hd).symm⟩
  case h_8 =>
    obtain ⟨hd, rfl⟩ := formatIB_eq_command.1 h
    exact ⟨rfl, rfl, (zero_append_low hd).symm⟩
  case h_9 =>
    obtain ⟨rfl, rfl⟩ := formatIZ_eq_command.1 h
    exact ⟨rfl, rfl, rfl⟩
  case h_12 =>
    obtain ⟨ha, rfl⟩ := formatFH_eq_command.1 h
    exact ⟨rfl, (selectorByte_of_zero ha).symm, rfl⟩
  case h_13 =>
    obtain ⟨⟨ha, rfl⟩, rfl⟩ := formatFZ_eq_command.1 h
    exact ⟨rfl, (selectorByte_of_zero ha).symm, rfl⟩
  case h_20 =>
    obtain ⟨⟨rfl, hd⟩, rfl⟩ := formatN4_eq_command.1 h
    exact ⟨rfl, rfl, (zero_append_low hd).symm⟩
  case h_21 =>
    obtain ⟨rfl, rfl⟩ := formatH_eq_command.1 h
    exact ⟨rfl, rfl, rfl⟩
  case h_23 | h_24 =>
    obtain ⟨ha, rfl⟩ := formatXH_eq_command.1 h
    exact ⟨rfl, (axisByte_of_zero ha).symm, rfl⟩
  case h_25 => cases h

theorem decode_encode (i : Instr) : decode (encode i) = .command i :=
  (decode_wordOf _ _ _).trans (decodeFields_of_instr i)

theorem decode_eq_command_iff {w : Word} {i : Instr} : decode w = .command i ↔ encode i = w := by
  constructor
  · intro h
    obtain ⟨hop, ha, hd⟩ := fields_of_decodeFields h
    rw [encode, ← hop, ← ha, ← hd, wordOf_fields]
  · rintro rfl
    exact decode_encode i

/-- Settles O37: decoding the fields of an encoding gives the command back, constructor by constructor. -/
theorem decodeInvertsEncode : Obligations.DecodeInvertsEncode := decode_encode

/-- Settles O38: the fields of a word that decodes are those of its command. -/
theorem encodeInvertsDecode : Obligations.EncodeInvertsDecode := fun _ _ => decode_eq_command_iff.1

/-! ### The opcode table (R42, spec/opcode_table.json) -/

/-- The row of the table that has an opcode. -/
def rowOfOp (op : Byte) : Option OpcodeRow := opcodeTable.find? fun r => opField r.pattern == op

theorem rowOfOp_op (i : Instr) : rowOfOp i.op = some i.row := by cases i <;> rfl

/-- The opcode of a command determines its row. -/
theorem row_eq_of_op_eq {i j : Instr} (h : i.op = j.op) : i.row = j.row := by
  rw [← Option.some_inj, ← rowOfOp_op, ← rowOfOp_op, h]

theorem row_mem_opcodeTable (i : Instr) : i.row ∈ opcodeTable := List.mem_of_find?_eq_some (rowOfOp_op i)

theorem exists_row_of_mem_opcodeTable {r : OpcodeRow} (h : r ∈ opcodeTable) : ∃ i : Instr, i.row = r := by
  obtain ⟨i, -, hi⟩ := List.mem_map.1 h
  exact ⟨i, hi⟩

/-- The bits of A and of D that must be zero in a command's format (R41). -/
def Instr.aMask : Instr → Byte
  | .fbWrite _ _ | .fbRead _ => 0x00
  | .fldWr _ _ _ | .fldRd _ _ => 0x70
  | .a2p _ _ | .p2a _ _ => 0xFE
  | _ => 0xFF
def Instr.dMask : Instr → Half
  | .crcByte _ | .fbPush _ | .fbWrite _ _ | .fbSetlen _ | .w2a _ => 0xFF00
  | .fldWr _ _ _ | .a2w _ | .a2p _ _ | .p2a _ _ => 0x0000
  | .tlmStat _ => 0xFFF0
  | _ => 0xFFFF

theorem row_mask (i : Instr) : i.row.mask = wordOf 0xFF i.aMask i.dMask := by
  cases i <;> simp only [Instr.row, Instr.aMask, Instr.dMask] <;> decide

theorem row_pattern (i : Instr) : i.row.pattern = wordOf i.op 0 0 := by
  cases i <;> simp only [Instr.row, Instr.op] <;> decide

/-- A word matches a row when it has the row's opcode and its must-be-zero bits are 0. -/
theorem matches_row_iff (w : Word) (i : Instr) : w &&& i.row.mask = i.row.pattern ↔
    opField w = i.op ∧ aField w &&& i.aMask = 0 ∧ dField w &&& i.dMask = 0 := by
  conv_lhs => rw [← wordOf_fields w, row_mask, row_pattern, wordOf_and, wordOf_inj]
  rw [show (0xFF : Byte) = BitVec.allOnes 8 from rfl, BitVec.and_allOnes]

/-- With a command's opcode, fields decode exactly when the must-be-zero bits of its format are 0 (R43). -/
theorem decodeFields_isCommand_iff (i : Instr) (a : Byte) (d : Half) :
    (∃ j, decodeFields i.op a d = .command j) ↔ a &&& i.aMask = 0 ∧ d &&& i.dMask = 0 := by
  have maskA : a &&& 0xFF = 0 ↔ a = 0 := and_allOnes_eq_zero_iff a
  have maskF : a &&& 0x70 = 0 ↔ a.extractLsb' 4 3 = 0 := and_mask_eq_zero_iff a (by decide)
  have maskX : a &&& 0xFE = 0 ↔ a.extractLsb' 1 7 = 0 := and_mask_eq_zero_iff a (by decide)
  have noneA : a &&& 0 = 0 := BitVec.and_zero
  have noneD : d &&& 0 = 0 := BitVec.and_zero
  have maskD : d &&& 0xFFFF = 0 ↔ d = 0 := and_allOnes_eq_zero_iff d
  have maskB : d &&& 0xFF00 = 0 ↔ d.extractLsb' 8 8 = 0 := and_mask_eq_zero_iff d (by decide)
  have maskN4 : d &&& 0xFFF0 = 0 ↔ d.extractLsb' 4 12 = 0 := and_mask_eq_zero_iff d (by decide)
  cases i with
  | nop | crcInit | crcRead | crcFrame | fbClear | fbGetlen | statRd | statClr | encCmd | encTlm | decCmd | decTlm =>
    change (∃ j, formatZ a d _ = .command j) ↔ a &&& 0xFF = 0 ∧ d &&& 0xFFFF = 0
    simp only [formatZ_eq_command, exists_and_left, exists_eq', and_true, maskA, maskD]
  | crcByte | fbPush | fbSetlen | w2a =>
    change (∃ j, formatB a d _ = .command j) ↔ a &&& 0xFF = 0 ∧ d &&& 0xFF00 = 0
    simp only [formatB_eq_command, exists_and_left, exists_eq', and_true, maskA, maskB]
  | fbWrite =>
    change (∃ j, formatIB a d _ = .command j) ↔ a &&& 0 = 0 ∧ d &&& 0xFF00 = 0
    simp only [formatIB_eq_command, exists_and_left, exists_eq', and_true, noneA, maskB, true_and]
  | fbRead =>
    change (∃ j, formatIZ a d _ = .command j) ↔ a &&& 0 = 0 ∧ d &&& 0xFFFF = 0
    simp only [formatIZ_eq_command, exists_and_left, exists_eq', and_true, noneA, maskD, true_and]
  | fldWr =>
    change (∃ j, formatFH a d _ = .command j) ↔ a &&& 0x70 = 0 ∧ d &&& 0 = 0
    simp only [formatFH_eq_command, exists_and_left, exists_eq', and_true, maskF, noneD]
  | fldRd =>
    change (∃ j, formatFZ a d _ = .command j) ↔ a &&& 0x70 = 0 ∧ d &&& 0xFFFF = 0
    simp only [formatFZ_eq_command, exists_and_left, exists_eq', and_true, maskF, maskD]
  | tlmStat =>
    change (∃ j, formatN4 a d _ = .command j) ↔ a &&& 0xFF = 0 ∧ d &&& 0xFFF0 = 0
    simp only [formatN4_eq_command, exists_and_left, exists_eq', and_true, maskA, maskN4]
  | a2w =>
    change (∃ j, formatH a d _ = .command j) ↔ a &&& 0xFF = 0 ∧ d &&& 0 = 0
    simp only [formatH_eq_command, exists_and_left, exists_eq', and_true, maskA, noneD]
  | a2p | p2a =>
    change (∃ j, formatXH a d _ = .command j) ↔ a &&& 0xFE = 0 ∧ d &&& 0 = 0
    simp only [formatXH_eq_command, exists_and_left, exists_eq', and_true, maskX, noneD]

theorem encode_matches_row (i : Instr) : encode i &&& i.row.mask = i.row.pattern := by
  obtain ⟨ha, hd⟩ := (decodeFields_isCommand_iff i i.a i.d).1 ⟨i, decodeFields_of_instr i⟩
  exact (matches_row_iff _ i).2 ⟨opField_wordOf .., by rwa [encode, aField_wordOf], by rwa [encode, dField_wordOf]⟩

/-- Settles O39: rows are told apart by their opcodes, and a row's mask holds the must-be-zero bits of its format. -/
theorem decoderAgreesWithTheOpcodeTable : Obligations.DecoderAgreesWithTheOpcodeTable := by
  constructor
  · intro w i hw
    obtain rfl := decode_eq_command_iff.1 hw
    refine ⟨row_mem_opcodeTable i, fun r hr => ⟨fun hm => ?_, fun e => e ▸ encode_matches_row i⟩⟩
    obtain ⟨j, rfl⟩ := exists_row_of_mem_opcodeTable hr
    have hop := ((matches_row_iff _ j).1 hm).1
    rw [encode, opField_wordOf] at hop
    exact (row_eq_of_op_eq hop).symm
  · intro w r hr hm
    obtain ⟨i, rfl⟩ := exists_row_of_mem_opcodeTable hr
    obtain ⟨hop, hzero⟩ := (matches_row_iff w i).1 hm
    obtain ⟨j, hj⟩ := (decodeFields_isCommand_iff i _ _).2 hzero
    exact ⟨j, by rwa [decode, hop], row_eq_of_op_eq (fields_of_decodeFields hj).1.symm⟩

end Sys2Proof

/-! PROOF. The encoding family, illegal and example words (30_encoding.md R44, R45). -/

namespace Sys2Proof.Machine

open Sys2Proof.Spec

/-! ### Unassigned opcodes (R44) -/

/-- An illegal command has the effect of R142. -/
theorem illegalEffect_setIll (s : State) : IllegalEffect s (s.setStatus (statusSetIll s.status)) :=
  ⟨statusSetIll_bit s.status, ((ChangesOnly.refl _ s).setStatus _ (by simp)).keepsBut⟩

/-- A presented word that is no command has the illegal effect (R142). -/
theorem runWord_of_illegal {w : Word} {why : IllegalWord} (h : decode w = .illegal why) (s : State) :
    runWord w s = .next (s.setStatus (statusSetIll s.status)) := by
  simp [runWord, h]

/-- The opcodes that R44 leaves unassigned. -/
def UnassignedOp (n : Nat) : Prop :=
  (0x05 ≤ n ∧ n ≤ 0x0F) ∨ n = 0x16 ∨ n = 0x17 ∨ (0x1C ≤ n ∧ n ≤ 0x1F) ∨ (0x25 ≤ n ∧ n ≤ 0x2F) ∨ 0x34 ≤ n

theorem not_unassignedOp_op (i : Instr) : ¬ UnassignedOp i.op.toNat := by
  unfold UnassignedOp
  cases i <;> simp [Instr.op]

/-- Settles O40: a word that decoded would have the opcode of its command, which is assigned. -/
theorem unassignedOpcodesAreIllegal : Obligations.UnassignedOpcodesAreIllegal := by
  intro s w hs hop
  refine ⟨_, (step_withSample hs _).trans ?_, illegalEffect_setIll s⟩
  change runWord w s = _
  cases hw : decode w with
  | command i =>
    have hi : opField w = i.op := (fields_of_decodeFields hw).1
    exact absurd (hi ▸ hop) (not_unassignedOp_op i)
  | illegal why => exact runWord_of_illegal hw s

/-! ### The example words (R45) -/

/-- Settles O41: each example word is the encoding of its command. -/
theorem exampleWordsDecode : Obligations.ExampleWordsDecode := by
  simp only [Obligations.ExampleWordsDecode, decode_eq_command_iff]
  decide

end Sys2Proof.Machine

/-! PROOF. The encoding family, frames: what the encoders leave in FB, the reserved bytes, the residue of a big-endian
frame, and the coded bytes (30_encoding.md R50 to R57). -/

namespace Sys2Proof.Machine

open Sys2Proof.Spec

/-! ### Encoded frames, byte by byte (R50, R51) -/

/-- Byte `k` of a packed command payload is byte `k` of the layout of R50. -/
theorem getD_packCmd {P : Params} {k : Nat} (cf : CmdBank) (hk : k < P.payloadLen) :
    (packCmd P cf).getD k 0 = cmdLayout P cf k := by
  rw [packCmd, getD_padPayload, if_pos hk]
  match k with
  | 0 | 1 | 2 | 3 | 4 | 5 | 6 | 7 | 8 | 9 | 10 | 11 | 12 | 13 => rfl
  | _ + 14 => rfl

/-- Byte `k` of a packed telemetry payload is byte `k` of the layout of R51. -/
theorem getD_packTlm {P : Params} {k : Nat} (tf : TlmBank) (hk : k < P.payloadLen) :
    (packTlm P tf).getD k 0 = tlmLayout P tf k := by
  rw [packTlm, getD_padPayload, if_pos hk]
  match k with
  | 0 | 1 | 2 | 3 | 4 | 5 | 6 | 7 | 8 | 9 | 10 | 11 | 12 | 13 | 14 | 15 | 16 | 17 | 18 => rfl
  | _ + 19 => rfl

/-- The bytes of R50 from 14 on are reserved (R57). -/
theorem cmdLayout_reserved (P : Params) (cf : CmdBank) {k : Nat} (hk : 14 ≤ k) : cmdLayout P cf k = 0x00 := by
  obtain ⟨n, rfl⟩ := Nat.exists_eq_add_of_le' hk
  rfl

/-- The bytes of R51 from 19 on are reserved (R57). -/
theorem tlmLayout_reserved (P : Params) (tf : TlmBank) {k : Nat} (hk : 19 ≤ k) : tlmLayout P tf k = 0x00 := by
  obtain ⟨n, rfl⟩ := Nat.exists_eq_add_of_le' hk
  rfl

/-- ENC_CMD leaves the layout of R50 in the payload bytes of FB. -/
theorem exec_encCmd_layout {s : State} (hfb : s.fb.wf = true) :
    ∃ t, exec .encCmd s = .next t ∧ ∀ k, k < s.params.payloadLen → t.fb.read k = cmdLayout s.params s.cf k := by
  refine ⟨_, rfl, fun k hk => ?_⟩
  rw [encodeFrame_fb, read_frameOf _ _ hfb (length_packCmd _ _), if_pos hk, getD_packCmd _ hk]

/-- ENC_TLM leaves the layout of R51 in the payload bytes of FB. -/
theorem exec_encTlm_layout {s : State} (hfb : s.fb.wf = true) :
    ∃ t, exec .encTlm s = .next t ∧ ∀ k, k < s.params.payloadLen → t.fb.read k = tlmLayout s.params s.tf k := by
  refine ⟨_, rfl, fun k hk => ?_⟩
  rw [encodeFrame_fb, read_frameOf _ _ hfb (length_packTlm _ _), if_pos hk, getD_packTlm _ hk]

/-! ### Reserved bytes (R57) -/

/-- The CRC that a decode computes and the one it finds, at the standard lengths (R52, R71). -/
theorem frameCrc_eq_payloadCrc {s : State} (hlen : StandardLengths s.params) :
    frameCrc s.params s.fb = payloadCrc s := by
  rw [frameCrc, payloadCrc, hlen.2, Memory.bytes_zero_eq_map]

theorem crcRx_eq_storedCrc {s : State} (hlen : StandardLengths s.params) : crcRx s.params s.fb = storedCrc s := by
  rewrite [crcRx, storedCrc, hlen.2]
  cases s.params.crcOrder <;> rfl

/-- A frame with the right length, header, satellite id and CRC passes every check (R103); no reserved byte is read but
by the CRC. -/
theorem frameCheck_err_eq_none {s : State} (hstd : StandardLengths s.params) (hlen : s.len = 24) {h : Byte}
    (hhdr : s.fb.read 0 = h) (hsat : s.fb.read 1 = s.params.satId) (hcrc : payloadCrc s = storedCrc s) :
    (frameCheck h s).err = .none := by
  simp [frameCheck, decodeErr, hlen, hstd.1, hhdr, hsat, frameCrc_eq_payloadCrc hstd, crcRx_eq_storedCrc hstd, hcrc]

/-- When every check passes, STATUS records ERR = NONE and DVALID = 1 (R104, R105). -/
theorem checkedStatus_of_err_eq_none {s : State} {k : FrameCheck} (hk : k.err = .none) :
    statusErr (checkedStatus s k) = 0 ∧ statusDvalid (checkedStatus s k) = true := by
  obtain ⟨herr, -, -, -, hval, -, -⟩ := statusDecoded_fields s.status k.err
    (decodeFlags s.params.flagPolicy k.err k.lenMatch k.crcMatch).1
    (decodeFlags s.params.flagPolicy k.err k.lenMatch k.crcMatch).2 k.satMatch (k.err == .none)
  exact ⟨herr.trans (by rw [hk]; rfl), hval.trans (by rw [hk]; rfl)⟩

/-- With a payload of 22 bytes the unpack functions load every named field from FB (R100). -/
theorem cmdLoaded_unpackCmd {P : Params} (hlen : P.payloadLen = 22) (m : Memory) (old : CmdBank) :
    CmdLoaded m (unpackCmd P m old) := by
  simp [CmdLoaded, unpackCmd, payloadByte, payloadHalf, hlen]

theorem tlmLoaded_unpackTlm {P : Params} (hlen : P.payloadLen = 22) (m : Memory) (old : TlmBank) :
    TlmLoaded m (unpackTlm P m old) := by
  simp [TlmLoaded, unpackTlm, payloadByte, payloadHalf, hlen]

/-- DEC_CMD when every check passes (R104). -/
theorem exec_decCmd_of_err_eq_none {s : State} (hk : (frameCheck s.params.hdrCmd s).err = .none) :
    exec .decCmd s = .next (loadCmd (recordCheck (frameCheck s.params.hdrCmd s) s)) :=
  congrArg complete (if_pos hk)

/-- DEC_TLM when every check passes (R105). -/
theorem exec_decTlm_of_err_eq_none {s : State} (hk : (frameCheck s.params.hdrTlm s).err = .none) :
    exec .decTlm s = .next (loadTlm (recordCheck (frameCheck s.params.hdrTlm s) s)) :=
  congrArg complete (if_pos hk)

/-- Settles O24: the layouts end before the reserved bytes, and no check reads one but through the CRC. -/
theorem reservedBytesAreZeroAndIgnored : Obligations.ReservedBytesAreZeroAndIgnored := by
  intro s hstd hfb
  have hpay := hstd.2
  obtain ⟨c, hc, hcRead⟩ := exec_encCmd_layout hfb
  obtain ⟨t, ht, htRead⟩ := exec_encTlm_layout hfb
  refine ⟨⟨c, hc, fun a h14 h21 => ?_⟩, ⟨t, ht, fun a h19 h21 => ?_⟩,
    fun hlen hsat hcrc => ⟨fun hhdr => ?_, fun hhdr => ?_⟩⟩
  · rw [hcRead a (by omega), cmdLayout_reserved _ _ h14]
  · rw [htRead a (by omega), tlmLayout_reserved _ _ h19]
  · have hk := frameCheck_err_eq_none hstd hlen hhdr hsat hcrc
    obtain ⟨herr, hval⟩ := checkedStatus_of_err_eq_none (s := s) hk
    exact ⟨_, exec_decCmd_of_err_eq_none hk, herr, hval, cmdLoaded_unpackCmd hpay _ _⟩
  · have hk := frameCheck_err_eq_none hstd hlen hhdr hsat hcrc
    obtain ⟨herr, hval⟩ := checkedStatus_of_err_eq_none (s := s) hk
    exact ⟨_, exec_decTlm_of_err_eq_none hk, herr, hval, tlmLoaded_unpackTlm hpay _ _⟩

/-! ### The residue of a big-endian frame (R52) -/

/-- While no 1 reaches bit 15, the shifts of R70 are a plain left shift. -/
theorem crcShifts_of_small (poly : Half) : ∀ (n : Nat) {c : Half}, c.toNat * 2 ^ n < 2 ^ 16 →
    crcShifts poly n c = c <<< n
  | 0, c, _ => (BitVec.shiftLeft_zero c).symm
  | n + 1, c, h => by
    have hpow : c.toNat * 2 ^ (n + 1) = c.toNat * 2 * 2 ^ n := by ring
    have hpos : 1 ≤ 2 ^ n := Nat.one_le_two_pow
    have hsmall : c.toNat * 2 < 2 ^ 16 := by nlinarith
    have hbit : c.getLsbD 15 = false := by
      rw [BitVec.getLsbD, Nat.testBit_lt_two_pow (by omega)]
    have hnat : (c <<< 1).toNat = c.toNat * 2 := by
      rw [BitVec.toNat_shiftLeft, Nat.shiftLeft_eq]
      omega
    rw [crcShifts, crcShift, hbit, if_neg (by simp), crcShifts_of_small poly n (by rw [hnat]; omega),
      ← BitVec.shiftLeft_add, Nat.add_comm]

/-- A CRC step over the high byte of the CRC leaves its low byte, shifted up (R70). -/
theorem crcStep_highByte (P : Params) (c : Half) :
    crcStep P c (highByte c) = (lowByte c).setWidth 16 <<< 8 := by
  have hlow : c ^^^ ((highByte c).setWidth 16 <<< 8) = (lowByte c).setWidth 16 := by
    apply BitVec.eq_of_getLsbD_eq
    intro k hk
    by_cases h8 : k < 8
    · simp [highByte, lowByte, h8, hk]
    · simp [highByte, lowByte, h8, hk, show k - 8 < 8 by omega, show 8 + (k - 8) = k by omega]
  rw [crcStep, hlow, crcShifts_of_small]
  rw [BitVec.toNat_setWidth_of_le (by decide)]
  have := (lowByte c).isLt
  omega

/-- A CRC step over a byte that stands in the high byte of the CRC leaves 0 (R70). -/
theorem crcStep_shifted (P : Params) (b : Byte) : crcStep P (b.setWidth 16 <<< 8) b = 0 := by
  rw [crcStep, BitVec.xor_self, crcShifts_of_small _ _ (by simp)]
  exact BitVec.zero_shiftLeft 8

/-- Running `crc16` on over the two bytes of the CRC, high byte first, gives 0 (R52). -/
theorem crc16_append_crc {P : Params} (horder : P.crcOrder = .be) (hxor : P.crcXorout = 0) (p : List Byte) :
    crc16 P (p ++ crcBytes P (crc16 P p)) = 0 := by
  simp only [crc16, crcBytes, horder, hxor, BitVec.ofNat_eq_ofNat, BitVec.xor_zero, crcFold_append, crcFold_cons,
    crcFold_nil, crcStep_highByte, crcStep_shifted]

/-- An encoded frame is its payload with the CRC behind it. -/
theorem frameOf_bytes (P : Params) {p : List Byte} {m : Memory} (hm : m.wf = true) (hp : p.length = P.payloadLen) :
    (frameOf P p m).bytes 0 (P.payloadLen + 2) = p ++ crcBytes P (crc16 P p) := by
  have hlen : (p ++ crcBytes P (crc16 P p)).length = P.payloadLen + 2 := by simp [hp]
  rw [← hlen]
  refine Memory.bytes_eq_of_getD _ 0 fun k hk => ?_
  rw [Nat.zero_add, read_frameOf P p hm hp]
  split
  · next h => rw [List.getD_append _ _ _ _ (by omega)]
  · next h => rw [if_pos (by omega), List.getD_append_right _ _ _ _ (by omega), hp]

/-- The frame that an encode leaves has residue 0 (R52). -/
theorem crc16_encodeFrame {s : State} (hstd : StandardLengths s.params) (hfb : s.fb.wf = true)
    (horder : s.params.crcOrder = .be) (hxor : s.params.crcXorout = 0) {p : List Byte}
    (hp : p.length = s.params.payloadLen) :
    crc16 s.params ((List.range 24).map fun a => (encodeFrame p s).fb.read a) = 0 := by
  rw [← Memory.bytes_zero_eq_map, encodeFrame_fb, show 24 = s.params.payloadLen + 2 by rw [hstd.2],
    frameOf_bytes _ hfb hp, crc16_append_crc horder hxor]

/-- Settles O27: an encoded frame is its payload and the CRC of it, high byte first. -/
theorem bigEndianFrameHasZeroResidue : Obligations.BigEndianFrameHasZeroResidue :=
  fun _ hstd hfb horder hxor =>
    ⟨⟨_, rfl, crc16_encodeFrame hstd hfb horder hxor (length_packCmd _ _)⟩,
      ⟨_, rfl, crc16_encodeFrame hstd hfb horder hxor (length_packTlm _ _)⟩⟩

/-! ### Coded bytes (R54 to R56) -/

/-- A telemetry angle is sent as itself mod 256 (R56). -/
theorem toNat_telemetryAngleByte (a : Int) : ((telemetryAngleByte a).toNat : Int) = a % 256 := by
  rw [telemetryAngleByte, BitVec.toNat_ofInt, Int.toNat_of_nonneg (Int.emod_nonneg a (by decide))]
  rfl

/-- A telemetry angle of 8 signed bits reads back (R56). -/
theorem telemetryAngleOf_telemetryAngleByte {a : Int} (hlo : -128 ≤ a) (hhi : a ≤ 127) :
    telemetryAngleOf (telemetryAngleByte a) = a := by
  rw [telemetryAngleOf, telemetryAngleByte, s8, BitVec.toInt_ofInt]
  exact Int.bmod_eq_of_le (by omega) (by omega)

/-- A T_MODE byte names a scan state exactly when it is the state's ordinal (R54). -/
theorem scanModeOf_eq_some_iff (m : ScanMode) (b : Byte) : scanModeOf b = some m ↔ b = m.code := by
  revert b
  cases m <;> decide

/-- A C_SCRIPT byte outside the table of R55 is ignored. -/
theorem scriptActionOf_unlisted (b : Byte) (h : b = 0 ∨ 6 < b.toNat) (hff : b ≠ 0xFF) :
    scriptActionOf b = .ignored := by
  revert b
  decide

/-- Settles O58: the code tables byte by byte, and the layouts carry the coded bytes as they are stored. -/
theorem codedBytesPassThrough : Obligations.CodedBytesPassThrough := by
  refine ⟨fun a hlo hhi => ⟨telemetryAngleOf_telemetryAngleByte hlo hhi, toNat_telemetryAngleByte a⟩,
    rfl, rfl, rfl, ⟨rfl, rfl, rfl, rfl, rfl, rfl⟩, scanModeOf_eq_some_iff,
    ⟨rfl, rfl, rfl, rfl, rfl, rfl, rfl, scriptActionOf_unlisted⟩, fun s hstd hfb => ?_⟩
  obtain ⟨-, hpay⟩ := hstd
  obtain ⟨c, hc, hcRead⟩ := exec_encCmd_layout hfb
  obtain ⟨t, ht, htRead⟩ := exec_encTlm_layout hfb
  exact ⟨⟨t, ht, htRead 9 (by omega), htRead 15 (by omega), htRead 16 (by omega)⟩, c, hc, hcRead 3 (by omega)⟩

end Sys2Proof.Machine

/-! PROOF. The encoding family, pseudo-instructions: what the three expansions leave (30_encoding.md R46). -/

namespace Sys2Proof.Machine

open Sys2Proof.Spec

/-! ### RXFRAME (R46, R83) -/

/-- A push below FRAME_LEN and below 255 stores its byte at LEN and counts it (R83). -/
theorem exec_fbPush_of_lt {s : State} (hframe : s.len.toNat < s.params.frameLen) (hcount : s.len.toNat < 255)
    (b : Byte) :
    exec (.fbPush b) s = .next ((s.setFb (s.fb.write s.len.toNat b)).setLen (BitVec.ofNat 8 (s.len.toNat + 1))) := by
  change complete _ = _
  rw [pushedFb, if_pos hframe, pushedLen, Nat.min_eq_left (by omega)]
  rfl

/-- Pushes that fit the frame and the count write their bytes one after another from LEN on. -/
theorem execAll_fbPush : ∀ (bs : List Byte) {s : State}, s.len.toNat + bs.length ≤ s.params.frameLen →
    s.len.toNat + bs.length ≤ 255 →
    execAll (bs.map .fbPush) s =
      .next ((s.setFb (s.fb.writeBytes s.len.toNat bs)).setLen (BitVec.ofNat 8 (s.len.toNat + bs.length)))
  | [], s, _, _ => by
    simp only [List.length_nil, Nat.add_zero, BitVec.ofNat_toNat, BitVec.setWidth_eq]
    rfl
  | b :: bs, s, hframe, hcount => by
    rw [List.length_cons] at hframe hcount
    have hlen : (BitVec.ofNat 8 (s.len.toNat + 1)).toNat = s.len.toNat + 1 := by
      rw [BitVec.toNat_ofNat, Nat.mod_eq_of_lt (by omega)]
    rw [List.map_cons, execAll, exec_fbPush_of_lt (by omega) (by omega)]
    dsimp only
    rw [execAll_fbPush bs (by rw [State.setLen_len, hlen, State.setLen_params, State.setFb_params]; omega)
        (by rw [State.setLen_len, hlen]; omega),
      State.setLen_len, hlen, List.length_cons, Nat.add_right_comm, Nat.add_assoc]
    rfl

/-- RXFRAME of a whole frame: FB holds its bytes from index 0 on and nothing else, and LEN counts them. -/
theorem execAll_rxFrame {bs : List Byte} {s : State} (hframe : bs.length ≤ s.params.frameLen)
    (hcount : bs.length ≤ 255) :
    execAll (rxFrame bs) s = .next ((s.setFb (Memory.writeBytes [] 0 bs)).setLen (BitVec.ofNat 8 bs.length)) := by
  have hpush := execAll_fbPush bs (s := (s.setFb []).setLen 0) (by simpa using hframe) (by simpa using hcount)
  exact hpush.trans (by simp [State.setFb, State.setLen])

/-! ### WR_UPTIME (R46, R88) -/

/-- The uptime fields are 16 bits wide, so FLD_WR accepts every value for them (R30, R88). -/
theorem exec_fldWr_uplo (v : Half) (s : State) :
    exec (.fldWr .tlm 2 v) s = .next (s.setTf (s.tf.write .uplo v)) := rfl

theorem exec_fldWr_uphi (v : Half) (s : State) :
    exec (.fldWr .tlm 3 v) s = .next (s.setTf (s.tf.write .uphi v)) := rfl

theorem execAll_wrUptime (v : Word) (s : State) :
    execAll (wrUptime v) s =
      .next (s.setTf ((s.tf.write .uplo (v.extractLsb' 0 16)).write .uphi (v.extractLsb' 16 16))) := by
  simp only [wrUptime, execAll, exec_fldWr_uplo, exec_fldWr_uphi]
  rfl

/-- The two halves of a word put together again. -/
theorem append_halves (v : Word) : v.extractLsb' 16 16 ++ v.extractLsb' 0 16 = v := by
  rw [BitVec.extractLsb'_append_extractLsb'_eq_extractLsb' (by decide)]
  exact BitVec.extractLsb'_eq_self

/-! ### CRC_OVER (R46, R74) -/

/-- Byte after byte CRC_BYTE folds the CRC over a list (R71, R74). -/
theorem execAll_crcByte : ∀ (bs : List Byte) (s : State),
    execAll (bs.map .crcByte) s = .next (s.setCrc (crcFold s.params s.crc bs))
  | [], _ => rfl
  | b :: bs, s => execAll_crcByte bs (s.setCrc (crcStep s.params s.crc b))

theorem execAll_crcOver (bs : List Byte) (s : State) :
    execAll (crcOver bs) s =
      .next ((s.setCrc (crcFold s.params s.params.crcInit bs)).setResult (zext32 (crc16 s.params bs))) :=
  execAll_append (xs := .crcInit :: bs.map .crcByte) (execAll_crcByte bs (s.setCrc s.params.crcInit))

/-- Settles O43: each expansion, run command by command, leaves one state, whose registers are those of R46. -/
theorem pseudoInstructionsExpand : Obligations.PseudoInstructionsExpand := by
  refine ⟨fun bs s hbs hframe hfb => ?_, fun v s => ?_, fun bs s => ?_⟩
  · refine ⟨_, execAll_rxFrame (by omega) (by omega), fun a ha => ?_, fun a ha => ?_, ?_, ?_⟩
    · simp [Memory.read_writeBytes bs 0 a Memory.wf_nil, hbs, ha]
    · have hout : s.fb.read a = 0 := Memory.read_of_below (by omega) hfb.2
      simp [Memory.read_writeBytes bs 0 a Memory.wf_nil, hbs, hout, show ¬ a < 24 by omega]
    · simp [hbs]
    · exact (((ChangesOnly.refl _ s).setFb _ (by simp)).setLen _ (by simp)).keepsBut
  · refine ⟨_, execAll_wrUptime v s, append_halves v, fun j hlo hhi => ?_, ?_⟩
    · simp [TlmBank.read_write, hlo, hhi]
    · exact ((ChangesOnly.refl _ s).setTf _ (by simp)).keepsBut
  · refine ⟨_, execAll_crcOver bs s, toNat_zext32_half _, ?_⟩
    exact (((ChangesOnly.refl _ s).setCrc _ (by simp)).setResult _ (by simp)).keepsBut

end Sys2Proof.Machine

/-! PROOF. The encoding family, assembler: which words it emits and which lines it refuses (30_encoding.md R45). -/

namespace Sys2Proof.Machine

open Sys2Proof.Spec

/-! ### The word of a command is illegal exactly when its operands are (R142) -/

/-- The fields of a command's word, as the statements read them off the word (R40, R41). -/
theorem encode_opBits (i : Instr) : (encode i).extractLsb' 24 8 = i.op := opField_wordOf ..

theorem indexOf_encode (i : Instr) : indexOf (encode i) = i.a := aField_wordOf ..

theorem valueOf_encode (i : Instr) : valueOf (encode i) = i.d := dField_wordOf ..

theorem idBits_encode (i : Instr) : idBits (encode i) = i.a.extractLsb' 0 4 := by
  rw [← indexOf_encode i]
  exact (extract_aField (encode i) 0 4 (by decide)).symm

theorem bankBit_encode (i : Instr) : (encode i).getLsbD 23 = i.a.getLsbD 7 := by
  rw [← indexOf_encode i]
  exact (getLsbD_aField (encode i) 7 (by decide)).symm

theorem bankBit_selectorByte (bank : Bank) (id : BitVec 4) :
    (selectorByte bank id)[7] = decide (bank = .tlm) := by
  cases bank <;> revert id <;> decide

/-- The encoding of a command is one of the words of R142 exactly when an operand of it is out of range. -/
theorem illegalFor_encode_iff (P : Params) (i : Instr) : IllegalFor P (encode i) ↔ i.wf P = false := by
  have hrow : ¬ ∀ r ∈ opcodeTable, encode i &&& r.mask ≠ r.pattern :=
    fun h => h i.row (row_mem_opcodeTable i) (encode_matches_row i)
  rw [IllegalFor, or_iff_right hrow, encode_opBits, indexOf_encode, valueOf_encode, idBits_encode, bankBit_encode]
  cases i with
  | fbWrite | fbRead => simp [Instr.op, Instr.a, Instr.wf]
  | fldRd bank id =>
    cases bank <;> simp [Instr.op, Instr.a, Instr.wf, bankBit_selectorByte, id_selectorByte, selectorValid]
  | fldWr bank id v =>
    cases bank <;>
      simp [Instr.op, Instr.a, Instr.d, Instr.wf, bankBit_selectorByte, id_selectorByte, selectorValid,
        selectorReadOnly, selectorWide] <;> constructor <;> intro h <;> omega
  | _ => simp [Instr.op, Instr.wf]

/-! ### Lines that assemble -/

variable {P : Params} {line : AsmLine} {i : Instr}

theorem assemble_of_fits (hfit : operandsFit line = some i) (hwf : i.wf P = true) :
    assemble P line = some (encode i) := assemble_eq_some.2 ⟨i, hfit, hwf, rfl⟩

/-- A line whose word decodes to its command assembles to that word. -/
theorem assemble_of_decode {w : Word} (hfit : operandsFit line = some i) (hwf : i.wf P = true)
    (hw : decode w = .command i) : assemble P line = some w :=
  assemble_eq_some.2 ⟨i, hfit, hwf, decode_eq_command_iff.1 hw⟩

theorem fieldSelector_cmd {id : BitVec 4} {k : CmdField} (h : cmdNames[id.toNat]? = some k) :
    fieldSelector (.cmd k) = (.cmd, id) := by
  revert id
  cases k <;> decide

theorem fieldSelector_tlm {id : BitVec 4} {k : TlmField} (h : tlmNames[id.toNat]? = some k) :
    fieldSelector (.tlm k) = (.tlm, id) := by
  revert id
  cases k <;> decide

/-- A field name is a valid selector (R87). -/
theorem wf_fldRd_fieldSelector (P : Params) (f : Field) :
    (Instr.fldRd (fieldSelector f).1 (fieldSelector f).2).wf P = true := by
  rcases f with k | - | k
  · cases k <;> rfl
  · rfl
  · cases k <;> rfl

/-- FLD_WR of a named field of CF is legal when the field is wide or the value fits a byte (R88). -/
theorem wf_fldWr_cmd (P : Params) (k : CmdField) (v : Half) :
    (Instr.fldWr (fieldSelector (.cmd k)).1 (fieldSelector (.cmd k)).2 v).wf P = true ↔
      cmdWide k = true ∨ v.toNat < 256 := by
  cases k <;> simp [fieldSelector, Instr.wf, selectorValid, selectorReadOnly, selectorWide, cmdWide]

/-- FLD_WR of a named field of TF is legal when the field is wide or the value fits a byte (R88). -/
theorem wf_fldWr_tlm (P : Params) (k : TlmField) (v : Half) :
    (Instr.fldWr (fieldSelector (.tlm k)).1 (fieldSelector (.tlm k)).2 v).wf P = true ↔
      tlmWide k = true ∨ v.toNat < 256 := by
  cases k <;> simp [fieldSelector, Instr.wf, selectorValid, selectorReadOnly, selectorWide, tlmWide]

/-- A line names a field where a word has its selector. -/
theorem assemble_fldRd (P : Params) (f : Field) :
    assemble P (.fldRd f) = some (encode (.fldRd (fieldSelector f).1 (fieldSelector f).2)) :=
  assemble_of_fits rfl (wf_fldRd_fieldSelector P f)

theorem operandsFit_fldWr (f : Field) (v : Half) :
    operandsFit (.fldWr f v.toNat) = some (.fldWr (fieldSelector f).1 (fieldSelector f).2 v) := by
  simp [operandsFit]

theorem assemble_fldRd_cmd {id : BitVec 4} {k : CmdField} (h : cmdNames[id.toNat]? = some k) :
    assemble P (.fldRd (.cmd k)) = some (encode (.fldRd .cmd id)) := by
  rw [assemble_fldRd, fieldSelector_cmd h]

theorem assemble_fldRd_tlm {id : BitVec 4} {k : TlmField} (h : tlmNames[id.toNat]? = some k) :
    assemble P (.fldRd (.tlm k)) = some (encode (.fldRd .tlm id)) := by
  rw [assemble_fldRd, fieldSelector_tlm h]

theorem assemble_fldWr_cmd {id : BitVec 4} {k : CmdField} (h : cmdNames[id.toNat]? = some k) {v : Half}
    (hv : cmdWide k = true ∨ v.toNat < 256) :
    assemble P (.fldWr (.cmd k) v.toNat) = some (encode (.fldWr .cmd id v)) := by
  rw [assemble_of_fits (operandsFit_fldWr _ v) ((wf_fldWr_cmd P k v).2 hv), fieldSelector_cmd h]

theorem assemble_fldWr_tlm {id : BitVec 4} {k : TlmField} (h : tlmNames[id.toNat]? = some k) {v : Half}
    (hv : tlmWide k = true ∨ v.toNat < 256) :
    assemble P (.fldWr (.tlm k) v.toNat) = some (encode (.fldWr .tlm id v)) := by
  rw [assemble_of_fits (operandsFit_fldWr _ v) ((wf_fldWr_tlm P k v).2 hv), fieldSelector_tlm h]

/-! ### Lines that are refused -/

theorem assemble_of_unfit (h : operandsFit line = none) : assemble P line = none := by
  simp [assemble, h]

/-- An FB_READ line whose index is not below FRAME_LEN, or not a byte, is refused (R85). -/
theorem assemble_fbRead_eq_none {v : Int} (h : ¬ (0 ≤ v ∧ v ≤ 255 ∧ v < P.frameLen)) :
    assemble P (.fbRead v) = none := by
  refine assemble_eq_none.2 fun i hi => ?_
  simp only [operandsFit, Option.map_eq_some_iff, fitsUnsigned_eq_some] at hi
  obtain ⟨b, rfl, rfl⟩ := hi
  have := b.isLt
  simp only [Instr.wf, decide_eq_false_iff_not]
  omega

/-- An FB_WRITE line whose index is not below FRAME_LEN, or not a byte, is refused (R84). -/
theorem assemble_fbWrite_eq_none {v : Int} (h : ¬ (0 ≤ v ∧ v ≤ 255 ∧ v < P.frameLen)) (b : Int) :
    assemble P (.fbWrite v b) = none := by
  refine assemble_eq_none.2 fun i hi => ?_
  simp only [operandsFit, Option.bind_eq_some_iff, Option.map_eq_some_iff, fitsUnsigned_eq_some] at hi
  obtain ⟨j, rfl, c, -, rfl⟩ := hi
  have := j.isLt
  simp only [Instr.wf, decide_eq_false_iff_not]
  omega

/-- Everything an FLD_WR line can name: the field's selector and a value of 16 bits. -/
theorem operandsFit_fldWr_eq_some {f : Field} {v : Int} :
    operandsFit (.fldWr f v) = some i ↔
      ∃ h : Half, v = h.toNat ∧ .fldWr (fieldSelector f).1 (fieldSelector f).2 h = i := by
  simp only [operandsFit, Option.map_eq_some_iff, fitsUnsigned_eq_some]

theorem assemble_fldWr_cmd_eq_none {k : CmdField} (hk : cmdWide k = false) {v : Int} (h : ¬ (0 ≤ v ∧ v ≤ 255)) :
    assemble P (.fldWr (.cmd k) v) = none := by
  refine assemble_eq_none.2 fun i hi => ?_
  obtain ⟨x, rfl, rfl⟩ := operandsFit_fldWr_eq_some.1 hi
  rw [Bool.eq_false_iff, ne_eq, wf_fldWr_cmd, hk, or_iff_right Bool.false_ne_true]
  omega

theorem assemble_fldWr_tlm_eq_none {k : TlmField} (hk : tlmWide k = false) {v : Int} (h : ¬ (0 ≤ v ∧ v ≤ 255)) :
    assemble P (.fldWr (.tlm k) v) = none := by
  refine assemble_eq_none.2 fun i hi => ?_
  obtain ⟨x, rfl, rfl⟩ := operandsFit_fldWr_eq_some.1 hi
  rw [Bool.eq_false_iff, ne_eq, wf_fldWr_tlm, hk, or_iff_right Bool.false_ne_true]
  omega

/-- NOCHG is read-only (R88). -/
theorem assemble_fldWr_nochg (P : Params) (v : Int) : assemble P (.fldWr .nochg v) = none := by
  refine assemble_eq_none.2 fun i hi => ?_
  obtain ⟨x, rfl, rfl⟩ := operandsFit_fldWr_eq_some.1 hi
  rfl

/-! ### What is emitted -/

/-- An assembled word is legal and decodes to the command its line names. -/
theorem assemble_sound {w : Word} (h : assemble P line = some w) :
    ¬ IllegalFor P w ∧ ∃ i, operandsFit line = some i ∧ decode w = .command i := by
  obtain ⟨i, hfit, hwf, rfl⟩ := assemble_eq_some.1 h
  refine ⟨?_, i, hfit, decode_encode i⟩
  rw [illegalFor_encode_iff, hwf]
  exact Bool.noConfusion

/-- The twelve lines without operands. -/
theorem assemble_noOperands (P : Params) :
    assemble P .nop = some (encode .nop) ∧ assemble P .crcInit = some (encode .crcInit)
    ∧ assemble P .crcRead = some (encode .crcRead) ∧ assemble P .crcFrame = some (encode .crcFrame)
    ∧ assemble P .fbClear = some (encode .fbClear) ∧ assemble P .fbGetlen = some (encode .fbGetlen)
    ∧ assemble P .statRd = some (encode .statRd) ∧ assemble P .statClr = some (encode .statClr)
    ∧ assemble P .encCmd = some (encode .encCmd) ∧ assemble P .encTlm = some (encode .encTlm)
    ∧ assemble P .decCmd = some (encode .decCmd) ∧ assemble P .decTlm = some (encode .decTlm) :=
  ⟨rfl, rfl, rfl, rfl, rfl, rfl, rfl, rfl, rfl, rfl, rfl, rfl⟩

/-- A byte operand that fits is encoded as it is. -/
theorem assemble_byteLines (P : Params) (b : Byte) :
    assemble P (.crcByte b.toNat) = some (encode (.crcByte b)) ∧ assemble P (.fbPush b.toNat) = some (encode (.fbPush b))
    ∧ assemble P (.fbSetlen b.toNat) = some (encode (.fbSetlen b))
    ∧ assemble P (.w2a b.toNat) = some (encode (.w2a b)) := by
  refine ⟨?_, ?_, ?_, ?_⟩ <;> exact assemble_of_fits (by simp [operandsFit]) rfl

/-- An index below FRAME_LEN is encoded as it is (R84, R85). -/
theorem assemble_indexLines {j : Byte} (b : Byte) (hj : j.toNat < P.frameLen) :
    assemble P (.fbWrite j.toNat b.toNat) = some (encode (.fbWrite j b))
    ∧ assemble P (.fbRead j.toNat) = some (encode (.fbRead j)) := by
  constructor <;> exact assemble_of_fits (by simp [operandsFit]) (decide_eq_true hj)

/-- An angle of 16 signed bits and a pulse width of 16 bits are encoded as they are (R125 to R128). -/
theorem assemble_conversionLines (P : Params) (axis : Axis) (v : Half) :
    assemble P (.a2w v.toInt) = some (encode (.a2w v)) ∧ assemble P (.a2p axis v.toInt) = some (encode (.a2p axis v))
    ∧ assemble P (.p2a axis v.toNat) = some (encode (.p2a axis v)) := by
  refine ⟨?_, ?_, ?_⟩ <;> exact assemble_of_fits (by simp [operandsFit]) rfl

/-- An angle that is not of 16 signed bits is refused. -/
theorem assemble_angleLines_eq_none {v : Int} (hv : ¬ (-32768 ≤ v ∧ v ≤ 32767)) :
    assemble P (.a2w v) = none ∧ ∀ axis, assemble P (.a2p axis v) = none := by
  refine ⟨?_, fun axis => ?_⟩ <;> exact assemble_of_unfit (by simp [operandsFit, fitsS16_eq_none hv])

/-- A byte operand that is no byte is refused. -/
theorem assemble_byteLines_eq_none {v : Int} (hv : ¬ (0 ≤ v ∧ v ≤ 255)) :
    assemble P (.crcByte v) = none ∧ assemble P (.fbPush v) = none ∧ assemble P (.fbSetlen v) = none
    ∧ assemble P (.w2a v) = none ∧ ∀ j, assemble P (.fbWrite j v) = none := by
  have hnone : fitsUnsigned 8 v = none := fitsUnsigned_eq_none (by omega)
  refine ⟨?_, ?_, ?_, ?_, fun j => ?_⟩ <;> exact assemble_of_unfit (by simp [operandsFit, hnone])

/-- A field value or a pulse width that is not of 16 bits is refused. -/
theorem assemble_halfLines_eq_none {v : Int} (hv : ¬ (0 ≤ v ∧ v ≤ 65535)) :
    (∀ f, assemble P (.fldWr f v) = none) ∧ ∀ axis, assemble P (.p2a axis v) = none := by
  have hnone : fitsUnsigned 16 v = none := fitsUnsigned_eq_none (by omega)
  refine ⟨fun f => ?_, fun axis => ?_⟩ <;> exact assemble_of_unfit (by simp [operandsFit, hnone])

/-- A flag set that is not of 4 bits is refused. -/
theorem assemble_tlmStat_eq_none {v : Int} (hv : ¬ (0 ≤ v ∧ v ≤ 15)) : assemble P (.tlmStat v) = none := by
  have hnone : fitsUnsigned 4 v = none := fitsUnsigned_eq_none (by omega)
  exact assemble_of_unfit (by simp [operandsFit, hnone])

/-- The example lines of R45 give their words, which decode to the commands that the lines name. -/
theorem assemble_exampleLines (hframe : 22 < P.frameLen) :
    assemble P .encCmd = some 0x20000000 ∧ assemble P (.fbPush 0x37) = some 0x11000037
    ∧ assemble P (.a2w (-12)) = some 0x3000FFF4 ∧ assemble P (.fbWrite 3 0x04) = some 0x12030004
    ∧ assemble P (.fbRead 22) = some 0x13160000 ∧ assemble P (.fldWr (.cmd .pwmx) 1500) = some 0x180605DC
    ∧ assemble P (.fldRd (.tlm .pwmy)) = some 0x19880000 ∧ assemble P (.a2p .y 40) = some 0x32010028
    ∧ assemble P (.tlmStat 0b0011) = some 0x24000003 := by
  obtain ⟨hencCmd, hfbPush, ha2w, hfbWrite, hfbRead, hfldWr, hfldRd, ha2p, htlmStat⟩ := exampleWordsDecode
  exact ⟨assemble_of_decode rfl rfl hencCmd, assemble_of_decode rfl rfl hfbPush, assemble_of_decode rfl rfl ha2w,
    assemble_of_decode rfl (decide_eq_true (lt_trans (by decide) hframe)) hfbWrite,
    assemble_of_decode rfl (decide_eq_true hframe) hfbRead, assemble_of_decode rfl rfl hfldWr,
    assemble_of_decode rfl rfl hfldRd, assemble_of_decode rfl rfl ha2p, assemble_of_decode rfl rfl htlmStat⟩

/-- Settles O42: what is emitted is the encoding of a well-formed command, and each kind of line is emitted or refused
by whether its operands fit and its command is well-formed. -/
theorem assemblerEmitsLegalWordsOnly : Obligations.AssemblerEmitsLegalWordsOnly :=
  ⟨fun _ _ _ => assemble_sound, assemble_noOperands, assemble_byteLines, fun _ _ b => assemble_indexLines b,
    fun _ _ _ hk => ⟨assemble_fldRd_cmd hk, fun _ => assemble_fldWr_cmd hk⟩,
    fun _ _ _ hk => ⟨assemble_fldRd_tlm hk, fun _ => assemble_fldWr_tlm hk⟩,
    fun P => assemble_fldRd P .nochg, fun _ _ => assemble_of_fits (by simp [operandsFit]) rfl,
    assemble_conversionLines, fun _ _ => assemble_angleLines_eq_none, fun _ _ => assemble_byteLines_eq_none,
    fun _ _ hv => ⟨assemble_fbRead_eq_none hv, assemble_fbWrite_eq_none hv⟩, fun _ _ => assemble_halfLines_eq_none,
    fun _ _ hv => ⟨fun _ hk => assemble_fldWr_cmd_eq_none hk hv, fun _ hk => assemble_fldWr_tlm_eq_none hk hv⟩,
    assemble_fldWr_nochg, fun _ _ => assemble_tlmStat_eq_none, fun _ => assemble_exampleLines⟩

end Sys2Proof.Machine

/-! PROOF. The CRC family, the CRC commands: `crc_step` on numbers, the words of formats Z and B, what the four commands
leave, and the byte-serial CRC (40_crc.md R70, R71, R73 to R76). -/

namespace Sys2Proof.Machine

open Sys2Proof.Spec

/-! ### `crc_step` on numbers (R70) -/

theorem toNat_crcShift (poly c : Half) : (crcShift poly c).toNat = shiftNumber poly.toNat c.toNat := by
  have hshift : (c <<< 1).toNat = 2 * c.toNat % 2 ^ 16 := by
    rw [BitVec.toNat_shiftLeft, Nat.shiftLeft_eq, pow_one, Nat.mul_comm]
  have hbit : c.getLsbD 15 = true ↔ c.toNat / 2 ^ 15 % 2 = 1 := by
    rw [← BitVec.testBit_toNat, Nat.testBit_eq_decide_div_mod_eq, decide_eq_true_eq]
  rw [crcShift, shiftNumber]
  by_cases htop : c.toNat / 2 ^ 15 % 2 = 1
  · rw [if_pos (hbit.2 htop), if_pos htop, BitVec.toNat_xor, hshift, Nat.xor_mod_two_pow, Nat.mod_eq_of_lt poly.isLt]
  · rw [if_neg (mt hbit.1 htop), if_neg htop, hshift]

theorem toNat_crcShifts (poly : Half) : ∀ (n : Nat) (c : Half),
    (crcShifts poly n c).toNat = Nat.iterate (shiftNumber poly.toNat) n c.toNat
  | 0, _ => rfl
  | n + 1, c => by
    rw [crcShifts, toNat_crcShifts poly n, toNat_crcShift]
    rfl

/-- A byte in the high half of a 16-bit value. -/
theorem toNat_byte_shiftLeft (b : Byte) : (b.setWidth 16 <<< 8).toNat = b.toNat * 2 ^ 8 := by
  have := b.isLt
  rw [BitVec.toNat_shiftLeft, BitVec.toNat_setWidth_of_le (by decide), Nat.shiftLeft_eq, Nat.mod_eq_of_lt (by omega)]

theorem toNat_crcStep (P : Params) (c : Half) (b : Byte) :
    (crcStep P c b).toNat = crcStepNumber P.crcPoly.toNat c.toNat b.toNat := by
  rw [crcStep, toNat_crcShifts, BitVec.toNat_xor, toNat_byte_shiftLeft, crcStepNumber]

/-- Settles O1: a shift of the accumulator is a shift of its number, and `crc_step` iterates it; the worked example is
computed. -/
theorem crcStepIsEightShifts : Obligations.CrcStepIsEightShifts := by
  refine ⟨toNat_crcStep, fun P hpoly => ?_⟩
  rw [crcStep, hpoly]
  decide

/-! ### The words of formats Z and B (R41, R43) -/

theorem bitsZ_iff (w : Word) : BitsZ w ↔ aField w = 0 ∧ dField w = 0 := by
  rw [BitsZ, aField, dField, extract_eq_zero, extract_eq_zero, extract_eq_zero]
  omega

theorem bitsB_iff (w : Word) : BitsB w ↔ aField w = 0 ∧ (dField w).extractLsb' 8 8 = 0 := by
  rw [BitsB, extract_dField w 8 8 (by decide), aField, extract_eq_zero, extract_eq_zero, extract_eq_zero]
  omega

/-- An opcode of format Z reads a word as its command exactly when bits 23:0 are 0. -/
theorem encoding_of_formatZ {op : Byte} {i : Instr} (hop : ∀ a d, decodeFields op a d = formatZ a d i) :
    Encoding op BitsZ fun _ => i := by
  intro w hw
  have hdecode : decode w = formatZ (aField w) (dField w) i := by rw [decode, show opField w = op from hw, hop]
  rw [bitsZ_iff, hdecode, formatZ]
  exact ⟨fun h => if_pos h, fun h => ⟨_, if_neg h⟩⟩

/-- An opcode of format B reads a word as its command with D[7:0] exactly when A and D[15:8] are 0. -/
theorem encoding_of_formatB {op : Byte} {i : Byte → Instr} (hop : ∀ a d, decodeFields op a d = formatB a d i) :
    Encoding op BitsB fun w => i (byteOf w) := by
  intro w hw
  have hdecode : decode w = formatB (aField w) (dField w) i := by rw [decode, show opField w = op from hw, hop]
  have hbyte : byteOf w = (dField w).extractLsb' 0 8 := (extract_dField w 0 8 (by decide)).symm
  rw [bitsB_iff, hdecode, formatB]
  exact ⟨fun h => (if_pos h).trans (congrArg (Decoded.command ∘ i) hbyte.symm), fun h => ⟨_, if_neg h⟩⟩

/-! ### The four commands (R73 to R76) -/

/-- Settles O2: the command writes CRC alone, and its words are of format Z. -/
theorem crcInitLoadsInitialValue : Obligations.CrcInitLoadsInitialValue :=
  ⟨fun _ => ⟨_, rfl, rfl, (exec_changesOnly (i := .crcInit) rfl).keepsBut⟩, encoding_of_formatZ fun _ _ => rfl⟩

/-- Settles O3: the command writes CRC alone, with the number of `crc_step`, and its words are of format B. -/
theorem crcByteFoldsOneByte : Obligations.CrcByteFoldsOneByte :=
  ⟨fun b s => ⟨_, rfl, toNat_crcStep s.params s.crc b, (exec_changesOnly (i := .crcByte b) rfl).keepsBut⟩,
    encoding_of_formatB fun _ _ => rfl⟩

/-- Settles O4: the command writes RESULT alone, and its words are of format Z. -/
theorem crcReadAppliesFinalXor : Obligations.CrcReadAppliesFinalXor := by
  refine ⟨fun s => ⟨_, rfl, ?_, (exec_changesOnly (i := .crcRead) rfl).keepsBut⟩, encoding_of_formatZ fun _ _ => rfl⟩
  rw [State.setResult_result, toNat_zext32_half, BitVec.toNat_xor]

/-- The frame CRC is the CRC of the payload bytes as FB reads (R71). -/
theorem frameCrc_eq_crc16_map (P : Params) (m : Memory) :
    frameCrc P m = crc16 P ((List.range P.payloadLen).map fun a => m.read a) := by
  rw [frameCrc, Memory.bytes_zero_eq_map]

/-- Settles O5: the command writes the frame CRC, which reads FB and not LEN, to CRC and RESULT alone. -/
theorem crcFrameCoversThePayload : Obligations.CrcFrameCoversThePayload :=
  ⟨fun s => ⟨_, rfl, frameCrc_eq_crc16_map s.params s.fb, toNat_zext32_half _,
    (exec_changesOnly (i := .crcFrame) rfl).keepsBut⟩, encoding_of_formatZ fun _ _ => rfl⟩

/-! ### The byte-serial CRC (R46, R71) -/

/-- The fold of `crc_step` over a list, on numbers (R71). -/
theorem toNat_crcFold (P : Params) : ∀ (bs : List Byte) (c : Half),
    (crcFold P c bs).toNat = bs.foldl (fun c b => crcStepNumber P.crcPoly.toNat c b.toNat) c.toNat
  | [], _ => rfl
  | b :: bs, c => by rw [crcFold_cons, toNat_crcFold P bs, toNat_crcStep, List.foldl_cons]

/-- Settles O6: CRC_OVER leaves the fold in CRC and `crc16` in RESULT, and the fold goes step by step on numbers. -/
theorem byteSerialCommandsComputeCrc16 : Obligations.ByteSerialCommandsComputeCrc16 := by
  refine ⟨frameCrc_eq_crc16_map, fun bs s => ⟨_, execAll_crcOver bs s, ?_, toNat_zext32_half _, ?_, ?_⟩⟩
  · rw [crc16, BitVec.toNat_xor, toNat_crcFold]
  · rw [State.setResult_crc, State.setCrc_crc, crc16, BitVec.xor_assoc, BitVec.xor_self, BitVec.xor_zero]
  · exact (((ChangesOnly.refl _ s).setCrc _ (by simp)).setResult _ (by simp)).keepsBut

end Sys2Proof.Machine

/-! PROOF. The CRC family, the algebra of the CRC: linearity over exclusive-or, and the remainder of long division by
x^16 + CRC_POLY (40_crc.md R70, R71). -/

namespace Sys2Proof.Machine

open Sys2Proof.Spec

/-! ### Linearity (R70, R71) -/

theorem byte_shiftLeft_xor (a b : Byte) :
    (a ^^^ b).setWidth 16 <<< 8 = (a.setWidth 16 <<< 8) ^^^ (b.setWidth 16 <<< 8) := by
  rw [BitVec.setWidth_xor, BitVec.shiftLeft_xor_distrib]

/-- A CRC step is linear in the accumulator and the byte together. -/
theorem crcStep_xor (P : Params) (c d : Half) (a b : Byte) :
    crcStep P (c ^^^ d) (a ^^^ b) = crcStep P c a ^^^ crcStep P d b := by
  rw [crcStep, crcStep, crcStep, ← crcShifts_xor, byte_shiftLeft_xor]
  congr 1
  ac_rfl

/-- The CRC of the bytewise exclusive-or of two messages of one length, from the exclusive-or of two accumulators. -/
theorem crcFold_zipWith_xor (P : Params) : ∀ {m n : List Byte} (c d : Half), m.length = n.length →
    crcFold P (c ^^^ d) (List.zipWith (· ^^^ ·) m n) = crcFold P c m ^^^ crcFold P d n
  | [], [], _, _, _ => rfl
  | a :: m, b :: n, c, d, h => by
    rw [List.zipWith_cons_cons, crcFold_cons, crcFold_cons, crcFold_cons, crcStep_xor]
    exact crcFold_zipWith_xor P _ _ (Nat.succ.inj h)

/-- Exclusive-or with as many zero bytes leaves a message. -/
theorem zipWith_xor_zeros : ∀ m : List Byte, List.zipWith (· ^^^ ·) m (List.replicate m.length 0) = m
  | [] => rfl
  | b :: m => by
    rw [List.length_cons, List.replicate_succ, List.zipWith_cons_cons, zipWith_xor_zeros m]
    exact congrArg (· :: m) BitVec.xor_zero

/-- Settles O8: the fold is linear, and the zero message carries the initial value that the other two cancel. -/
theorem crcIsAffineOverXor : Obligations.CrcIsAffineOverXor := by
  intro P m n hlen
  have hxor : (List.zipWith (· ^^^ ·) m n).length = m.length := by simp [hlen]
  have hfold : crcFold P P.crcInit (List.zipWith (· ^^^ ·) m n) =
      crcFold P P.crcInit m ^^^ crcFold P P.crcInit n ^^^ crcFold P P.crcInit (List.replicate m.length 0) := by
    rw [← crcFold_zipWith_xor P _ _ hlen, ← hxor, ← crcFold_zipWith_xor P _ _ (by simp), zipWith_xor_zeros,
      BitVec.xor_self, BitVec.zero_xor]
  simp only [crc16, hfold]
  grind

/-! ### Long division (R70) -/

/-- One step of long division: the bit `b` is shifted in at the right of the remainder `r`. -/
def divisionStep (poly r : Half) (b : Bool) : Half := crcShift poly r ^^^ (BitVec.ofBool b).setWidth 16

/-- A bit written into the place that a shift has freed, by `or` or by exclusive-or. -/
theorem shiftLeft_or_bit (r : Half) (b : Bool) :
    r <<< 1 ||| (if b then 1 else 0 : BitVec 16) = r <<< 1 ^^^ (BitVec.ofBool b).setWidth 16 := by
  apply BitVec.eq_of_getLsbD_eq
  intro k hk
  cases k <;> cases b <;> simp

/-- The long division of the statements goes by `divisionStep`. -/
theorem divisionRemainder_eq_foldl (poly : Half) (bits : List Bool) :
    divisionRemainder poly bits = bits.foldl (divisionStep poly) 0 := by
  rw [divisionRemainder]
  congr 1
  funext r b
  simp only [shiftLeft_or_bit, divisionStep, crcShift]
  split
  · rw [BitVec.xor_assoc, BitVec.xor_assoc, BitVec.xor_comm poly]
  · rfl

/-- A remainder runs through bits of the dividend as so many shifts, apart from the remainder of the bits themselves. -/
theorem foldl_divisionStep (poly : Half) : ∀ (bits : List Bool) (r : Half),
    bits.foldl (divisionStep poly) r = crcShifts poly bits.length r ^^^ bits.foldl (divisionStep poly) 0
  | [], r => BitVec.xor_zero.symm
  | b :: bits, r => by
    have hzero : divisionStep poly 0 b = (BitVec.ofBool b).setWidth 16 := BitVec.zero_xor
    rw [List.foldl_cons, List.foldl_cons, foldl_divisionStep poly bits,
      foldl_divisionStep poly bits (divisionStep poly 0 b), hzero, divisionStep, crcShifts_xor, BitVec.xor_assoc, List.length_cons, crcShifts]

/-- Zero bits at the end of the dividend are plain shifts. -/
theorem foldl_divisionStep_zeros (poly : Half) : ∀ (n : Nat) (r : Half),
    (List.replicate n false).foldl (divisionStep poly) r = crcShifts poly n r
  | 0, _ => rfl
  | n + 1, r => by
    rw [List.replicate_succ, List.foldl_cons, foldl_divisionStep_zeros poly n, crcShifts]
    exact congrArg _ BitVec.xor_zero

/-- While a remainder has room, the next bit of a byte stands below those before it. -/
theorem divisionStep_nextBit (poly : Half) (b : Byte) {k : Nat} (hk : k < 8) :
    divisionStep poly ((b >>> (8 - k)).setWidth 16) (b.getLsbD (7 - k)) = (b >>> (7 - k)).setWidth 16 := by
  have hlt : ((b >>> (8 - k)).setWidth 16).toNat < 2 ^ 8 := by
    rw [BitVec.toNat_setWidth_of_le (by decide)]
    exact BitVec.isLt _
  have hshift : crcShift poly ((b >>> (8 - k)).setWidth 16) = (b >>> (8 - k)).setWidth 16 <<< 1 :=
    crcShifts_of_small poly 1 (by omega)
  rw [divisionStep, hshift]
  apply BitVec.eq_of_getLsbD_eq
  intro j hj
  cases j with
  | zero => simp [show 7 - k < 16 by omega]
  | succ j => simp [hj, show 8 - k + j = 7 - k + (j + 1) by omega]

/-- The first `k` bits of a byte are their own remainder. -/
theorem foldl_divisionStep_firstBits (poly : Half) (b : Byte) : ∀ k, k ≤ 8 →
    ((List.range k).map fun j => b.getLsbD (7 - j)).foldl (divisionStep poly) 0 = (b >>> (8 - k)).setWidth 16
  | 0, _ => by
    have hout : b >>> 8 = 0 := BitVec.ushiftRight_eq_zero (Nat.le_refl 8)
    rw [Nat.sub_zero, hout]
    rfl
  | k + 1, hk => by
    rw [List.range_succ, List.map_append, List.foldl_append, foldl_divisionStep_firstBits poly b k (by omega),
      show 8 - (k + 1) = 7 - k by omega]
    exact divisionStep_nextBit poly b hk

/-- A byte of the dividend: eight shifts of the remainder, and the byte at the right. -/
theorem foldl_divisionStep_bitsOf (poly r : Half) (b : Byte) :
    (bitsOf b).foldl (divisionStep poly) r = crcShifts poly 8 r ^^^ b.setWidth 16 := by
  have hbyte : (bitsOf b).foldl (divisionStep poly) 0 = b.setWidth 16 :=
    (foldl_divisionStep_firstBits poly b 8 (Nat.le_refl 8)).trans (by rw [Nat.sub_self, BitVec.ushiftRight_zero])
  rw [foldl_divisionStep, hbyte]
  rfl

theorem crcShifts_zero (poly : Half) : ∀ n, crcShifts poly n 0 = 0
  | 0 => rfl
  | n + 1 => crcShifts_zero poly n

theorem crcShifts_add (poly : Half) : ∀ (m n : Nat) (c : Half),
    crcShifts poly (m + n) c = crcShifts poly n (crcShifts poly m c)
  | 0, n, c => by rw [Nat.zero_add, crcShifts]
  | m + 1, n, c => by rw [Nat.succ_add, crcShifts, crcShifts, crcShifts_add poly m n]

/-- The accumulator is the remainder so far with 16 more shifts, and a CRC step keeps it so. -/
theorem crcStep_crcShifts (P : Params) (r : Half) (b : Byte) :
    crcStep P (crcShifts P.crcPoly 16 r) b = crcShifts P.crcPoly 16 ((bitsOf b).foldl (divisionStep P.crcPoly) r) := by
  have hbyte : crcShifts P.crcPoly 8 (b.setWidth 16) = b.setWidth 16 <<< 8 := by
    apply crcShifts_of_small
    rw [BitVec.toNat_setWidth_of_le (by decide)]
    have := b.isLt
    omega
  calc crcStep P (crcShifts P.crcPoly 16 r) b
      = crcShifts P.crcPoly 8 (crcShifts P.crcPoly 16 r ^^^ crcShifts P.crcPoly 8 (b.setWidth 16)) := by
        rw [crcStep, hbyte]
    _ = crcShifts P.crcPoly 8 (crcShifts P.crcPoly 8 (crcShifts P.crcPoly 8 r ^^^ b.setWidth 16)) := by
        rw [crcShifts_add P.crcPoly 8 8 r, ← crcShifts_xor]
    _ = crcShifts P.crcPoly 16 ((bitsOf b).foldl (divisionStep P.crcPoly) r) := by
        rw [← crcShifts_add P.crcPoly 8 8, foldl_divisionStep_bitsOf]

theorem crcFold_crcShifts (P : Params) : ∀ (m : List Byte) (r : Half),
    crcFold P (crcShifts P.crcPoly 16 r) m =
      crcShifts P.crcPoly 16 ((m.flatMap bitsOf).foldl (divisionStep P.crcPoly) r)
  | [], _ => rfl
  | b :: m, r => by
    rw [crcFold_cons, crcStep_crcShifts, crcFold_crcShifts P m, List.flatMap_cons, List.foldl_append]

/-- Settles O7: the accumulator is the remainder of the message bits with 16 more shifts, which are the 16 zero bits. -/
theorem crcIsPolynomialRemainder : Obligations.CrcIsPolynomialRemainder := by
  intro P m hinit
  have hzero : crcShifts P.crcPoly 16 0 = P.crcInit := (crcShifts_zero _ 16).trans hinit.symm
  rw [crc16, ← hzero, crcFold_crcShifts, divisionRemainder_eq_foldl, List.foldl_append, foldl_divisionStep_zeros]

end Sys2Proof.Machine

/-! PROOF. The CRC family, error detection: a changed byte of a frame changes one of its two CRCs, and the next decode
fails (40_crc.md R72). -/

namespace Sys2Proof.Machine

open Sys2Proof.Spec

/-! ### A CRC step loses nothing (R70, R72) -/

/-- With an odd polynomial the shifts lose nothing: two CRC steps agree exactly when the same value, the accumulator with
the byte in its high half, goes into them. -/
theorem crcStep_eq_crcStep_iff {P : Params} (hodd : P.crcPoly.getLsbD 0 = true) (c d : Half) (a b : Byte) :
    crcStep P c a = crcStep P d b ↔ c ^^^ (a.setWidth 16 <<< 8) = d ^^^ (b.setWidth 16 <<< 8) := by
  constructor
  · intro h
    have hzero := BitVec.xor_eq_zero_iff.2 h
    rw [crcStep, crcStep, ← crcShifts_xor] at hzero
    exact BitVec.xor_eq_zero_iff.1 (crcShifts_eq_zero hodd 8 hzero)
  · intro h
    rw [crcStep, crcStep, h]

theorem byte_shiftLeft_injective {a b : Byte} (h : a.setWidth 16 <<< 8 = b.setWidth 16 <<< 8) : a = b := by
  have hnat := congrArg BitVec.toNat h
  rw [toNat_byte_shiftLeft, toNat_byte_shiftLeft] at hnat
  exact BitVec.eq_of_toNat_eq (by omega)

/-- With an odd polynomial, different accumulators stay different over a message. -/
theorem crcFold_injective {P : Params} (hodd : P.crcPoly.getLsbD 0 = true) : ∀ (m : List Byte) {c d : Half},
    crcFold P c m = crcFold P d m → c = d
  | [], _, _, h => h
  | b :: m, c, d, h =>
    (BitVec.xor_left_inj _).1 ((crcStep_eq_crcStep_iff hodd c d b b).1 (crcFold_injective hodd m h))

/-- With an odd polynomial, a message with one byte replaced has the same CRC only if the byte is the same (R72). -/
theorem eq_of_crcFold_set {P : Params} (hodd : P.crcPoly.getLsbD 0 = true) {b : Byte} : ∀ {m : List Byte} {c : Half}
    {i : Nat} (hi : i < m.length), crcFold P c (m.set i b) = crcFold P c m → b = m[i]
  | a :: m, c, 0, _, h => byte_shiftLeft_injective
      ((BitVec.xor_right_inj c).1 ((crcStep_eq_crcStep_iff hodd c c b a).1 (crcFold_injective hodd m h)))
  | _ :: _, _, _ + 1, hi, h => eq_of_crcFold_set hodd (Nat.lt_of_succ_lt_succ hi) h

/-! ### The two CRCs of a frame after one byte is written (R52, R71, R84) -/

/-- Two bytes put together tell both. -/
theorem append_bytes_inj {a b c d : Byte} : a ++ b = c ++ d ↔ a = c ∧ b = d := by
  constructor
  · intro h
    have hhigh := congrArg (BitVec.extractLsb' 8 8) h
    rw [BitVec.extractLsb'_append_eq_left, BitVec.extractLsb'_append_eq_left] at hhigh
    subst hhigh
    exact ⟨rfl, (BitVec.append_right_inj a).1 h⟩
  · rintro ⟨rfl, rfl⟩
    rfl

/-- The stored CRC, in either order, is as before exactly when bytes 22 and 23 are. -/
theorem storedCrc_eq_iff {s t : State} (hP : t.params = s.params) :
    storedCrc t = storedCrc s ↔ t.fb.read 22 = s.fb.read 22 ∧ t.fb.read 23 = s.fb.read 23 := by
  rw [storedCrc, storedCrc, hP]
  cases s.params.crcOrder
  · exact append_bytes_inj.trans and_comm
  · exact append_bytes_inj

section

variable {s : State} (hfb : s.fb.wf = true) {i : Nat} (b : Byte)
include hfb

/-- The bytes of FB after a write. -/
theorem map_read_write (n : Nat) :
    ((List.range n).map fun a => (s.fb.write i b).read a) = ((List.range n).map fun a => s.fb.read a).set i b := by
  apply List.ext_getElem
  · simp
  · intro k _ _
    simp [Memory.read_write hfb, List.getElem_set, eq_comm]

theorem payloadCrc_write_of_le (hi : 22 ≤ i) : payloadCrc (s.setFb (s.fb.write i b)) = payloadCrc s := by
  rw [payloadCrc, State.setFb_fb, State.setFb_params, map_read_write hfb, List.set_eq_of_length_le (by simpa),
    payloadCrc]

theorem eq_of_payloadCrc_write (hodd : s.params.crcPoly.getLsbD 0 = true) (hi : i < 22)
    (h : payloadCrc (s.setFb (s.fb.write i b)) = payloadCrc s) : b = s.fb.read i := by
  rw [payloadCrc, State.setFb_fb, State.setFb_params, map_read_write hfb, payloadCrc, crc16, crc16,
    BitVec.xor_left_inj] at h
  have hlen : i < ((List.range 22).map fun a => s.fb.read a).length := by simpa using hi
  rw [eq_of_crcFold_set hodd hlen h, List.getElem_map, List.getElem_range]

theorem storedCrc_write_of_lt (hi : i < 22) : storedCrc (s.setFb (s.fb.write i b)) = storedCrc s := by
  rw [storedCrc_eq_iff (State.setFb_params ..), State.setFb_fb, Memory.read_write hfb, Memory.read_write hfb,
    if_neg (by omega), if_neg (by omega)]
  exact ⟨rfl, rfl⟩

theorem eq_of_storedCrc_write (hi : i = 22 ∨ i = 23) (h : storedCrc (s.setFb (s.fb.write i b)) = storedCrc s) :
    b = s.fb.read i := by
  rw [storedCrc_eq_iff (State.setFb_params ..), State.setFb_fb, Memory.read_write hfb, Memory.read_write hfb] at h
  rcases hi with rfl | rfl
  · exact h.1
  · exact h.2

/-- Writing another byte anywhere in a frame whose CRCs agree makes them differ: one of them changes, the other does
not. -/
theorem payloadCrc_ne_storedCrc_write (hodd : s.params.crcPoly.getLsbD 0 = true) (hcrc : payloadCrc s = storedCrc s)
    (hi : i < 24) (hb : b ≠ s.fb.read i) :
    payloadCrc (s.setFb (s.fb.write i b)) ≠ storedCrc (s.setFb (s.fb.write i b)) := by
  intro h
  apply hb
  by_cases hpay : i < 22
  · rw [storedCrc_write_of_lt hfb b hpay, ← hcrc] at h
    exact eq_of_payloadCrc_write hfb b hodd hpay h
  · rw [payloadCrc_write_of_le hfb b (by omega), hcrc] at h
    exact eq_of_storedCrc_write hfb b (by omega) h.symm

end

/-! ### A decode of a frame that fails a check (R103 to R106) -/

/-- What the outcome code 0 says of a frame. -/
theorem checkCode_eq_zero {h : Byte} {s : State} (hcode : checkCode h s = 0) :
    s.len.toNat = 24 ∧ s.fb.read 0 = h ∧ (s.params.satIdPolicy = .reject → s.fb.read 1 = s.params.satId)
      ∧ payloadCrc s = storedCrc s := by
  unfold checkCode at hcode
  split_ifs at hcode with hlen hhdr hsat hcrc
  case neg =>
    exact ⟨not_not.1 hlen, not_not.1 hhdr, fun hpol => not_not.1 fun hne => hsat ⟨hpol, hne⟩, not_not.1 hcrc⟩
  all_goals exact absurd hcode (by decide)

/-- The outcome of the frame check has the code that the statements give it, at the standard lengths (R103, R141). -/
theorem code_frameCheck_err {s : State} (hstd : StandardLengths s.params) (h : Byte) :
    (frameCheck h s).err.code = checkCode h s := by
  simp only [frameCheck, decodeErr, checkCode, frameCrc_eq_payloadCrc hstd, crcRx_eq_storedCrc hstd, hstd.1]
  split_ifs <;> simp_all [DecodeErr.code]

/-- A decode records its outcome in STATUS.ERR and STATUS.DVALID (R104, R105). -/
theorem statusErr_checkedStatus (s : State) (k : FrameCheck) : statusErr (checkedStatus s k) = k.err.code :=
  (statusDecoded_fields ..).1

theorem statusDvalid_checkedStatus (s : State) (k : FrameCheck) :
    statusDvalid (checkedStatus s k) = (k.err == .none) := by
  obtain ⟨-, -, -, -, hval, -, -⟩ := statusDecoded_fields s.status k.err
    (decodeFlags s.params.flagPolicy k.err k.lenMatch k.crcMatch).1
    (decodeFlags s.params.flagPolicy k.err k.lenMatch k.crcMatch).2 k.satMatch (k.err == .none)
  exact hval

/-- A decode that fails a check only records it. -/
theorem exec_decode_of_err_ne_none {s : State} {d : Instr} {h : Byte}
    (hd : (d = .decCmd ∧ h = s.params.hdrCmd) ∨ (d = .decTlm ∧ h = s.params.hdrTlm))
    (hk : (frameCheck h s).err ≠ .none) : exec d s = .next (recordCheck (frameCheck h s) s) := by
  rcases hd with ⟨rfl, rfl⟩ | ⟨rfl, rfl⟩ <;> exact congrArg complete (if_neg hk)

/-- The outcome code of a valid frame after another byte is written into it: the header and, under `reject`, the
satellite id are checked before the CRC (R103). -/
theorem checkCode_write {s : State} (hfb : s.fb.wf = true) {h b : Byte} {i : Nat} (hcode : checkCode h s = 0)
    (hb : b ≠ s.fb.read i)
    (hcrc : payloadCrc (s.setFb (s.fb.write i b)) ≠ storedCrc (s.setFb (s.fb.write i b))) :
    checkCode h (s.setFb (s.fb.write i b)) = if i = 0 ∨ (i = 1 ∧ s.params.satIdPolicy = .reject) then 2 else 3 := by
  obtain ⟨hlen, rfl, hsat, -⟩ := checkCode_eq_zero hcode
  rw [checkCode, State.setFb_len, State.setFb_fb, State.setFb_params, Memory.read_write hfb, Memory.read_write hfb,
    if_neg (not_not.2 hlen)]
  by_cases h0 : i = 0
  · subst h0
    simp [hb]
  by_cases h1 : i = 1
  · subst h1
    cases hpol : s.params.satIdPolicy
    · simp [hcrc]
    · simp [← hsat hpol, hb]
  · rw [if_neg (Ne.symm h0), if_neg (Ne.symm h1), if_neg (not_not.2 rfl), if_neg fun hne => hne.2 (hsat hne.1),
      if_pos hcrc, if_neg (by tauto)]

/-- A legal FB_WRITE stores its byte (R84). -/
theorem exec_fbWrite_of_lt {s : State} {i : Byte} (hi : i.toNat < s.params.frameLen) (b : Byte) :
    exec (.fbWrite i b) s = .next (s.setFb (s.fb.write i.toNat b)) :=
  (whenLegal_eq_next _ _ _ _).2 (.inl ⟨decide_eq_true hi, rfl⟩)

/-- Flipping one bit of a byte gives another byte. -/
theorem xor_bit_ne (x : Byte) {k : Nat} (hk : k < 8) : x ^^^ (1#8 <<< k) ≠ x := by
  have hbit : (1#8 <<< k).getLsbD k = true := by simp [hk]
  intro h
  have hflip := congrArg (fun y => y.getLsbD k) h
  simp [hbit] at hflip

/-- Settles O26: the flipped byte is another byte, so the two CRCs differ, the outcome code is not 0, and the decode
that records it leaves the banks. -/
theorem singleBitErrorsAreCaught : Obligations.SingleBitErrorsAreCaught := by
  intro s d h hd hstd hfb hpoly hcode i k hi hk
  have hodd : s.params.crcPoly.getLsbD 0 = true := by rw [hpoly]; rfl
  have hb := xor_bit_ne (s.fb.read i.toNat) hk
  generalize s.fb.read i.toNat ^^^ (1#8 <<< k) = b at hb ⊢
  obtain ⟨-, -, -, hvalid⟩ := checkCode_eq_zero hcode
  have hcrc := payloadCrc_ne_storedCrc_write hfb b hodd hvalid hi hb
  have herr := (code_frameCheck_err (s := s.setFb (s.fb.write i.toNat b)) hstd h).trans
    (checkCode_write hfb hcode hb hcrc)
  have hbad : (frameCheck h (s.setFb (s.fb.write i.toNat b))).err ≠ .none := by
    intro hnone
    rw [hnone] at herr
    split at herr <;> exact absurd herr (by decide)
  have hindex : ∀ j : Byte, i = j ↔ i.toNat = j.toNat := fun j => BitVec.toNat_inj.symm
  refine ⟨_, _, exec_fbWrite_of_lt (by rw [hstd.1]; exact hi) b, exec_decode_of_err_ne_none hd hbad, hcrc, ?_, rfl, rfl,
    fun hcase => ?_, fun hcase => ?_⟩
  · exact (statusDvalid_checkedStatus ..).trans (beq_false_of_ne hbad)
  · rw [hindex, hindex] at hcase
    exact (statusErr_checkedStatus ..).trans (herr.trans (if_pos hcase))
  · rw [hindex, hindex] at hcase
    exact (statusErr_checkedStatus ..).trans (herr.trans (if_neg hcase))

end Sys2Proof.Machine

/-! PROOF. The buffer family, shared rules: how the opcodes with an index or a selector read their words, and what a
refused command leaves (30_encoding.md R41, 60_exceptions.md R142). -/

namespace Sys2Proof.Machine

open Sys2Proof.Spec

/-! ### The words of formats IB, IZ, FH and FZ (R41, R43) -/

/-- An opcode whose words decode to its command on a condition, and are illegal without it, is read by that
condition. -/
theorem encoding_of_ite {op : Byte} {legal : Word → Prop} [DecidablePred legal] {cmd : Word → Instr}
    {why : Word → IllegalWord}
    (h : ∀ w, opField w = op → decode w = if legal w then .command (cmd w) else .illegal (why w)) :
    Encoding op legal cmd := by
  intro w hw
  rw [h w hw]
  exact ⟨fun hl => if_pos hl, fun hl => ⟨_, if_neg hl⟩⟩

theorem decode_of_opField {op : Byte} {w : Word} (hw : opField w = op) :
    decode w = decodeFields op (aField w) (dField w) := by
  rw [decode, hw]

theorem byteOf_eq (w : Word) : byteOf w = (dField w).extractLsb' 0 8 := (extract_dField w 0 8 (by decide)).symm

theorem idBits_eq (w : Word) : idBits w = (aField w).extractLsb' 0 4 := (extract_aField w 0 4 (by decide)).symm

theorem bankBit_eq (w : Word) : bankBit w = bankOf (aField w) := by
  rw [bankBit, bankOf, getLsbD_aField w 7 (by decide)]

/-- An opcode of format IB reads a word as its command with A and D[7:0] exactly when D[15:8] is 0. -/
theorem encoding_of_formatIB {op : Byte} {i : Byte → Byte → Instr}
    (hop : ∀ a d, decodeFields op a d = formatIB a d i) :
    Encoding op (fun w => w.extractLsb' 8 8 = 0) fun w => i (indexOf w) (byteOf w) :=
  encoding_of_ite (why := fun _ => .mustBeZero) fun w hw => by
    rw [decode_of_opField hw, hop, byteOf_eq, ← extract_dField w 8 8 (by decide)]
    rfl

/-- An opcode of format IZ reads a word as its command with A exactly when D is 0. -/
theorem encoding_of_formatIZ {op : Byte} {i : Byte → Instr} (hop : ∀ a d, decodeFields op a d = formatIZ a d i) :
    Encoding op (fun w => w.extractLsb' 0 16 = 0) fun w => i (indexOf w) :=
  encoding_of_ite (why := fun _ => .mustBeZero) fun w hw => by
    rw [decode_of_opField hw, hop]
    rfl

/-- An opcode of format FH reads a word as its command with the selector and D exactly when A[6:4] is 0. -/
theorem encoding_of_formatFH {op : Byte} {i : Bank → BitVec 4 → Half → Instr}
    (hop : ∀ a d, decodeFields op a d = formatFH a d i) :
    Encoding op (fun w => w.extractLsb' 20 3 = 0) fun w => i (bankBit w) (idBits w) (valueOf w) :=
  encoding_of_ite (why := fun _ => .badSelector) fun w hw => by
    rw [decode_of_opField hw, hop, idBits_eq, bankBit_eq, ← extract_aField w 4 3 (by decide)]
    rfl

/-- An opcode of format FZ reads a word as its command with the selector exactly when A[6:4] and D are 0. -/
theorem encoding_of_formatFZ {op : Byte} {i : Bank → BitVec 4 → Instr}
    (hop : ∀ a d, decodeFields op a d = formatFZ a d i) :
    Encoding op (fun w => w.extractLsb' 20 3 = 0 ∧ w.extractLsb' 0 16 = 0) fun w => i (bankBit w) (idBits w) :=
  encoding_of_ite (why := fun w => if w.extractLsb' 20 3 = 0 then .mustBeZero else .badSelector) fun w hw => by
    rw [decode_of_opField hw, hop, idBits_eq, bankBit_eq, ← extract_aField w 4 3 (by decide), formatFZ, dField]
    split_ifs <;> tauto

/-! ### Refused commands (R142) -/

/-- A command that raises ILL has the illegal effect. -/
theorem exists_illegalEffect {i : Instr} {s : State} (h : exec i s = raiseIll s) :
    ∃ t, exec i s = .next t ∧ IllegalEffect s t := ⟨_, h, illegalEffect_setIll s⟩

end Sys2Proof.Machine

/-! PROOF. The buffer family, the field commands: what FLD_WR and FLD_RD do for every selector (41_buffer.md R87 to
R89). -/

namespace Sys2Proof.Machine

open Sys2Proof.Spec

/-! ### Which field a selector names (R87) -/

/-- A name of R28 is selected by its id: NOCHG stands behind the last name. -/
theorem selectField_cmd_of_name {id : BitVec 4} {k : CmdField} (h : cmdNames[id.toNat]? = some k) :
    selectField .cmd id = some (.cmd k) := by
  have h10 : id ≠ 10 := by
    rintro rfl
    cases h
  rw [selectField_cmd, if_neg h10, h, Option.map_some]

/-- A name of R30 is selected by its id. -/
theorem selectField_tlm_of_name {id : BitVec 4} {k : TlmField} (h : tlmNames[id.toNat]? = some k) :
    selectField .tlm id = some (.tlm k) := by
  rw [selectField_tlm, h, Option.map_some]

theorem selectField_cmd_of_le {id : BitVec 4} (h : 11 ≤ id.toNat) : selectField .cmd id = none := by
  have h10 : id ≠ 10 := by
    rintro rfl
    simp at h
  rw [selectField_cmd, if_neg h10, List.getElem?_eq_none (Nat.le_of_succ_le h), Option.map_none]

theorem selectField_tlm_of_le {id : BitVec 4} (h : 13 ≤ id.toNat) : selectField .tlm id = none := by
  rw [selectField_tlm, List.getElem?_eq_none h, Option.map_none]

/-! ### FLD_WR (R88) -/

/-- FLD_WR with a selector that names a field writes it if the field accepts the value. -/
theorem exec_fldWr_of_selectField {bank : Bank} {id : BitVec 4} {f : Field} (hf : selectField bank id = some f)
    (v : Half) (s : State) :
    exec (.fldWr bank id v) s = whenLegal (fieldAccepts f v) s (writeField s f v) := by
  change execFldWr bank id v s = _
  simp [execFldWr, hf]

theorem exec_fldWr_of_selectField_eq_none {bank : Bank} {id : BitVec 4} (hf : selectField bank id = none) (v : Half)
    (s : State) : exec (.fldWr bank id v) s = raiseIll s := by
  change execFldWr bank id v s = _
  simp [execFldWr, hf]

/-- A value has no bit above the low byte exactly when it is below 256. -/
theorem high_eq_zero_iff (v : Half) : v.extractLsb' 8 8 = 0 ↔ v.toNat < 256 := by
  have := v.isLt
  rw [extract_eq_zero]
  omega

/-- A field that is not NOCHG accepts what fits its width. -/
theorem fieldAccepts_iff {f : Field} (hf : f ≠ .nochg) (v : Half) :
    fieldAccepts f v = true ↔ (f.width = 8 → v.toNat < 256) := by
  cases f with
  | nochg => exact absurd rfl hf
  | cmd | tlm => simp [fieldAccepts, ← high_eq_zero_iff, imp_iff_not_or]

theorem fieldAccepts_cmd (k : CmdField) (v : Half) :
    fieldAccepts (.cmd k) v = true ↔ cmdWide k = true ∨ v.toNat < 256 := by
  rw [fieldAccepts_iff Field.noConfusion]
  cases k <;> simp [Field.width, cmdWide]

theorem fieldAccepts_tlm (k : TlmField) (v : Half) :
    fieldAccepts (.tlm k) v = true ↔ tlmWide k = true ∨ v.toNat < 256 := by
  rw [fieldAccepts_iff Field.noConfusion]
  cases k <;> simp [Field.width, tlmWide]

/-- FLD_WR of a value that the selected field accepts. -/
theorem exec_fldWr_of_accepts {bank : Bank} {id : BitVec 4} {f : Field} {v : Half}
    (hf : selectField bank id = some f) (hv : fieldAccepts f v = true) (s : State) :
    exec (.fldWr bank id v) s = .next (writeField s f v) := by
  rw [exec_fldWr_of_selectField hf, hv, whenLegal_true]

/-- FLD_WR of a value that the selected field does not accept is illegal. -/
theorem exec_fldWr_of_not_accepts {bank : Bank} {id : BitVec 4} {f : Field} {v : Half}
    (hf : selectField bank id = some f) (hv : ¬ fieldAccepts f v = true) (s : State) :
    exec (.fldWr bank id v) s = raiseIll s := by
  rw [exec_fldWr_of_selectField hf, eq_false_of_ne_true hv, whenLegal_false]

/-- An accepted value reads back whole from its field of CF, and every other field is as before. -/
theorem CmdBank.read_write_of_accepts {k : CmdField} {v : Half} (hv : fieldAccepts (.cmd k) v = true) (cf : CmdBank) :
    (cf.write k v).read k = v ∧ ∀ j, j ≠ k → (cf.write k v).read j = cf.read j := by
  refine ⟨?_, fun j hj => ?_⟩
  · rw [read_write, if_pos rfl, cut_eq_self_of_fieldAccepts hv]
  · rw [read_write, if_neg hj]

/-- An accepted value reads back whole from its field of TF, and every other field is as before. -/
theorem TlmBank.read_write_of_accepts {k : TlmField} {v : Half} (hv : fieldAccepts (.tlm k) v = true) (tf : TlmBank) :
    (tf.write k v).read k = v ∧ ∀ j, j ≠ k → (tf.write k v).read j = tf.read j := by
  refine ⟨?_, fun j hj => ?_⟩
  · rw [read_write, if_pos rfl, cut_eq_self_of_fieldAccepts hv]
  · rw [read_write, if_neg hj]

/-- FLD_WR to CF from id 10 on is illegal: NOCHG is read-only, and no field stands behind it. -/
theorem exec_fldWr_cmd_of_le {id : BitVec 4} (h : 10 ≤ id.toNat) (v : Half) (s : State) :
    exec (.fldWr .cmd id v) s = raiseIll s := by
  rcases h.eq_or_lt with h10 | h11
  · obtain rfl : id = 10 := BitVec.eq_of_toNat_eq h10.symm
    rfl
  · exact exec_fldWr_of_selectField_eq_none (selectField_cmd_of_le h11) v s

/-- Settles O16: a named field is written if it accepts the value, which is when the value fits, and every other
selector, or value, is refused. -/
theorem fldWrWritesTheSelectedField : Obligations.FldWrWritesTheSelectedField := by
  refine ⟨fun id v s k hk => ?_, fun id v s k hk => ?_, fun id v s h => ?_, fun id v s h => ?_,
    encoding_of_formatFH fun _ _ => rfl⟩
  · have hf := selectField_cmd_of_name hk
    rw [← fieldAccepts_cmd]
    refine ⟨fun hv => ?_, fun hv => exists_illegalEffect (exec_fldWr_of_not_accepts hf hv s)⟩
    obtain ⟨hread, hother⟩ := CmdBank.read_write_of_accepts hv s.cf
    exact ⟨_, exec_fldWr_of_accepts hf hv s, hread, hother, ((ChangesOnly.refl _ s).setCf _ (by simp)).keepsBut⟩
  · have hf := selectField_tlm_of_name hk
    rw [← fieldAccepts_tlm]
    refine ⟨fun hv => ?_, fun hv => exists_illegalEffect (exec_fldWr_of_not_accepts hf hv s)⟩
    obtain ⟨hread, hother⟩ := TlmBank.read_write_of_accepts hv s.tf
    exact ⟨_, exec_fldWr_of_accepts hf hv s, hread, hother, ((ChangesOnly.refl _ s).setTf _ (by simp)).keepsBut⟩
  · exact exists_illegalEffect (exec_fldWr_cmd_of_le h v s)
  · exact exists_illegalEffect (exec_fldWr_of_selectField_eq_none (selectField_tlm_of_le h) v s)

/-! ### FLD_RD (R29, R89) -/

theorem exec_fldRd_of_selectField_eq_none {bank : Bank} {id : BitVec 4} (hf : selectField bank id = none)
    (s : State) : exec (.fldRd bank id) s = raiseIll s := by
  change execFldRd bank id s = _
  simp [execFldRd, hf]

/-- FLD_RD of a selected field leaves its value in RESULT and changes nothing else. -/
theorem exec_fldRd_result {bank : Bank} {id : BitVec 4} {f : Field} (hf : selectField bank id = some f) (s : State) :
    ∃ t, exec (.fldRd bank id) s = .next t ∧ t.result.toNat = (readField s f).toNat ∧ KeepsBut [.result] s t :=
  ⟨_, exec_fldRd_of_selectField hf s, toNat_zext32_half _, ((ChangesOnly.refl _ s).setResult _ (by simp)).keepsBut⟩

/-- Bit `k` of NOCHG is whether the `k`-th field of R29 equals its sentinel. -/
theorem noChange_bits (P : Params) (cf : CmdBank) :
    (noChange P cf).getLsbD 0 = (cf.script == P.sentinel8) ∧ (noChange P cf).getLsbD 1 = (cf.step == P.sentinel8)
    ∧ (noChange P cf).getLsbD 2 = (cf.tlmp == P.sentinel8) ∧ (noChange P cf).getLsbD 3 = (cf.servo == P.sentinel8)
    ∧ (noChange P cf).getLsbD 4 = (cf.laser == P.sentinel8) ∧ (noChange P cf).getLsbD 5 = (cf.pwmx == P.sentinel16)
    ∧ (noChange P cf).getLsbD 6 = (cf.pwmy == P.sentinel16) ∧ (noChange P cf).getLsbD 7 = (cf.angx == P.sentinel8)
    ∧ (noChange P cf).getLsbD 8 = (cf.angy == P.sentinel8) := by
  simp only [noChange, BitVec.getLsbD_append, BitVec.getLsbD_ofBool]
  simp

/-- The bits of NOCHG in RESULT. -/
theorem getLsbD_zext32_nochg (s : State) (k : Nat) :
    (zext32 (readField s .nochg)).getLsbD k = (noChange s.params s.cf).getLsbD k := by
  simp only [zext32, readField, BitVec.getLsbD_setWidth]
  by_cases hk : k < 9
  · simp [show k < 16 by omega, show k < 32 by omega]
  · simp [BitVec.getLsbD_of_ge _ k (show 9 ≤ k by omega)]

/-- Settles O17: a named field and NOCHG are read into RESULT, and every other selector is refused. -/
theorem fldRdReadsTheSelectedField : Obligations.FldRdReadsTheSelectedField := by
  refine ⟨fun id s k hk => exec_fldRd_result (selectField_cmd_of_name hk) s,
    fun id s k hk => exec_fldRd_result (selectField_tlm_of_name hk) s, fun s => ?_,
    fun id s h => exists_illegalEffect (exec_fldRd_of_selectField_eq_none (selectField_cmd_of_le h) s),
    fun id s h => exists_illegalEffect (exec_fldRd_of_selectField_eq_none (selectField_tlm_of_le h) s),
    encoding_of_formatFZ fun _ _ => rfl⟩
  refine ⟨_, exec_fldRd_of_selectField (f := .nochg) rfl s, ?_⟩
  obtain ⟨h0, h1, h2, h3, h4, h5, h6, h7, h8⟩ := noChange_bits s.params s.cf
  simp only [State.setResult_result, getLsbD_zext32_nochg]
  exact ⟨h0, h1, h2, h3, h4, h5, h6, h7, h8, fun k hk => BitVec.getLsbD_of_ge _ k hk,
    ((ChangesOnly.refl _ s).setResult _ (by simp)).keepsBut⟩

end Sys2Proof.Machine

/-! PROOF. The buffer family, the buffer and status commands, and the reception of any number of bytes (41_buffer.md R80
to R86, R90, R91; 70_reset_and_hazards.md R163). -/

namespace Sys2Proof.Machine

open Sys2Proof.Spec

/-! ### FB_PUSH (R83) -/

/-- FB after a push: the byte at index LEN below FRAME_LEN, every other byte as before. -/
theorem read_pushedFb {s : State} (hfb : s.fb.wf = true) (b : Byte) (a : Nat) :
    (pushedFb s b).read a =
      if s.len.toNat < s.params.frameLen ∧ a = s.len.toNat then b else s.fb.read a := by
  unfold pushedFb
  split
  · next hlt => simp only [Memory.read_write hfb, hlt, true_and]
  · next hge => rw [if_neg fun h => hge h.1]

/-- The count of a push saturates at 255. -/
theorem toNat_pushedLen (len : Byte) : (pushedLen len).toNat = min (len.toNat + 1) 255 := by
  rw [pushedLen, BitVec.toNat_ofNat, Nat.mod_eq_of_lt (by omega)]

/-- A push from FRAME_LEN on drops its byte and counts it. -/
theorem exec_fbPush_of_le {s : State} (hfull : s.params.frameLen ≤ s.len.toNat) (b : Byte) :
    exec (.fbPush b) s = .next (s.setLen (pushedLen s.len)) := by
  change complete _ = _
  rw [pushedFb, if_neg hfull.not_gt]
  rfl

/-! ### Receiving any number of bytes (R24, R83, R163) -/

/-- Pushes into a full frame only count. -/
theorem execAll_fbPush_of_le : ∀ (bs : List Byte) {s : State}, s.params.frameLen ≤ s.len.toNat →
    execAll (bs.map .fbPush) s = .next (s.setLen (BitVec.ofNat 8 (min (s.len.toNat + bs.length) 255)))
  | [], s, _ => by
    have := s.len.isLt
    rw [List.length_nil, Nat.add_zero, Nat.min_eq_left (by omega), BitVec.ofNat_toNat, BitVec.setWidth_eq]
    rfl
  | b :: bs, s, hfull => by
    have := s.len.isLt
    have hlen := toNat_pushedLen s.len
    rw [List.map_cons, execAll, exec_fbPush_of_le hfull]
    dsimp only
    rw [execAll_fbPush_of_le bs (by rw [State.setLen_len, State.setLen_params, hlen]; omega), State.setLen_len, hlen,
      List.length_cons, show min (min (s.len.toNat + 1) 255 + bs.length) 255 = min (s.len.toNat + (bs.length + 1)) 255
        by omega]
    rfl

/-- RXFRAME of any number of bytes: FB holds those that fit the frame, and LEN counts them all up to 255. -/
theorem execAll_rxFrame_saturating (bs : List Byte) {s : State} (hframe : s.params.frameLen ≤ 255) :
    execAll (rxFrame bs) s = .next ((s.setFb (Memory.writeBytes [] 0 (bs.take s.params.frameLen))).setLen
      (BitVec.ofNat 8 (min bs.length 255))) := by
  by_cases hfit : bs.length ≤ s.params.frameLen
  · rw [List.take_of_length_le hfit, Nat.min_eq_left (by omega), execAll_rxFrame hfit (by omega)]
  · have hcount : (bs.take s.params.frameLen).length = s.params.frameLen := List.length_take_of_le (by omega)
    have hlen : (BitVec.ofNat 8 s.params.frameLen).toNat = s.params.frameLen := by
      rw [BitVec.toNat_ofNat, Nat.mod_eq_of_lt (by omega)]
    have hsplit : rxFrame bs = rxFrame (bs.take s.params.frameLen) ++ (bs.drop s.params.frameLen).map .fbPush := by
      rw [rxFrame, rxFrame, List.cons_append, ← List.map_append, List.take_append_drop]
    rw [hsplit, execAll_append (execAll_rxFrame hcount.le (by omega)), hcount,
      execAll_fbPush_of_le _ (by simp [hlen]), State.setLen_len, hlen, List.length_drop,
      Nat.add_sub_cancel' (by omega)]
    rfl

/-- A count other than FRAME_LEN fails the length check, which stands first (R103). -/
theorem frameCheck_err_eq_length {s : State} (hlen : s.len.toNat ≠ s.params.frameLen) (h : Byte) :
    (frameCheck h s).err = .length := by
  simp [frameCheck, decodeErr, hlen]

/-- A decode of a frame of the wrong length reports LENGTH and keeps both banks (R103 to R105). -/
theorem exec_decode_of_len_ne {s : State} {d : Instr} (hd : d = .decCmd ∨ d = .decTlm)
    (hlen : s.len.toNat ≠ s.params.frameLen) :
    ∃ u, exec d s = .next u ∧ statusErr u.status = DecodeErr.length.code ∧ u.cf = s.cf ∧ u.tf = s.tf := by
  obtain ⟨h, hdh⟩ : ∃ h, (d = .decCmd ∧ h = s.params.hdrCmd) ∨ (d = .decTlm ∧ h = s.params.hdrTlm) := by
    simpa [exists_or] using hd
  have herr := frameCheck_err_eq_length hlen h
  refine ⟨_, exec_decode_of_err_ne_none hdh (by simp [herr]), ?_, rfl, rfl⟩
  exact (statusErr_checkedStatus ..).trans (congrArg DecodeErr.code herr)

/-- Settles O57: the bytes that fit are written, all are counted up to 255, and the saturated count is 24 only for 24
bytes. -/
theorem receivedByteCountDecidesLength : Obligations.ReceivedByteCountDecidesLength := by
  intro bs s hstd
  have hframe := hstd.1
  have hlen : (BitVec.ofNat 8 (min bs.length 255)).toNat = min bs.length 255 := by
    rw [BitVec.toNat_ofNat, Nat.mod_eq_of_lt (by omega)]
  refine ⟨_, execAll_rxFrame_saturating bs (by omega), hlen, fun a ha => ?_, fun hcount d hd => ?_⟩
  · rw [State.setLen_fb, State.setFb_fb, Memory.read_writeBytes _ 0 a Memory.wf_nil, hframe]
    by_cases hin : a < bs.length
    · rw [if_pos (by simp; omega)]
      simp [ha]
    · rw [if_neg (by simp; omega), List.getD_eq_default _ _ (by omega), Memory.read_nil]
  · exact exec_decode_of_len_ne hd (by rw [State.setLen_len, hlen, State.setLen_params, State.setFb_params]; omega)

/-! ### The buffer and status commands (R80 to R86, R90, R91) -/

/-- Settles O9: the command completes in the state itself, and its words are of format Z. -/
theorem nopChangesNothing : Obligations.NopChangesNothing :=
  ⟨fun s => ⟨s, rfl, rfl, (ChangesOnly.refl _ s).keepsBut⟩, encoding_of_formatZ fun _ _ => rfl⟩

/-- Settles O10: the empty buffer reads 0x00 everywhere, as every valid buffer does from FRAME_LEN on. -/
theorem fbClearEmptiesTheBuffer : Obligations.FbClearEmptiesTheBuffer :=
  ⟨fun _ hfb => ⟨_, rfl, fun a _ => Memory.read_nil a, fun _ ha => (Memory.read_of_below ha hfb.2).symm, rfl,
    (exec_changesOnly (i := .fbClear) rfl).keepsBut⟩, encoding_of_formatZ fun _ _ => rfl⟩

/-- Settles O11: the command writes LEN alone, and its words are of format B. -/
theorem fbSetlenSetsTheCount : Obligations.FbSetlenSetsTheCount :=
  ⟨fun b _ => ⟨_, rfl, rfl, (exec_changesOnly (i := .fbSetlen b) rfl).keepsBut⟩, encoding_of_formatB fun _ _ => rfl⟩

/-- Settles O12: what a pushed byte does to FB and to LEN, and its words are of format B. -/
theorem fbPushAppendsAndCounts : Obligations.FbPushAppendsAndCounts := by
  refine ⟨fun b s hfb => ⟨_, rfl, fun hlt => ?_, fun a ha => ?_, toNat_pushedLen s.len,
    (exec_changesOnly (i := .fbPush b) rfl).keepsBut⟩, encoding_of_formatB fun _ _ => rfl⟩
  · exact (read_pushedFb hfb b _).trans (if_pos ⟨hlt, rfl⟩)
  · exact (read_pushedFb hfb b a).trans (if_neg ha)

/-- FB_WRITE refuses an index from FRAME_LEN on (R84). -/
theorem exec_fbWrite_of_le {s : State} {i : Byte} (hi : s.params.frameLen ≤ i.toNat) (b : Byte) :
    exec (.fbWrite i b) s = raiseIll s := if_neg (by simp [hi])

/-- FB_READ refuses an index from FRAME_LEN on (R85). -/
theorem exec_fbRead_of_le {s : State} {i : Byte} (hi : s.params.frameLen ≤ i.toNat) :
    exec (.fbRead i) s = raiseIll s := if_neg (by simp [hi])

/-- A legal FB_READ reads its byte (R85). -/
theorem exec_fbRead_of_lt {s : State} {i : Byte} (hi : i.toNat < s.params.frameLen) :
    exec (.fbRead i) s = .next (s.setResult (zext32 (s.fb.read i.toNat))) := if_pos (decide_eq_true hi)

/-- Settles O13: below FRAME_LEN the byte is stored, from FRAME_LEN on the command is refused, and its words are of
format IB. -/
theorem fbWriteStoresOneByte : Obligations.FbWriteStoresOneByte := by
  refine ⟨fun i b s hfb => ⟨fun hi => ?_, fun hi => exists_illegalEffect (exec_fbWrite_of_le hi b)⟩,
    encoding_of_formatIB fun _ _ => rfl⟩
  refine ⟨_, exec_fbWrite_of_lt hi b, ?_, fun a ha => ?_, ((ChangesOnly.refl _ s).setFb _ (by simp)).keepsBut⟩
  · exact (Memory.read_write hfb ..).trans (if_pos rfl)
  · exact (Memory.read_write hfb ..).trans (if_neg ha)

/-- Settles O14: below FRAME_LEN the byte is read into RESULT, from FRAME_LEN on the command is refused, and its words
are of format IZ. -/
theorem fbReadReadsOneByte : Obligations.FbReadReadsOneByte :=
  ⟨fun _ s => ⟨fun hi => ⟨_, exec_fbRead_of_lt hi, toNat_zext32_byte _,
    ((ChangesOnly.refl _ s).setResult _ (by simp)).keepsBut⟩, fun hi => exists_illegalEffect (exec_fbRead_of_le hi)⟩,
    encoding_of_formatIZ fun _ _ => rfl⟩

/-- Settles O15: the command writes the value of LEN to RESULT alone, and its words are of format Z. -/
theorem fbGetlenReadsTheCount : Obligations.FbGetlenReadsTheCount :=
  ⟨fun s => ⟨_, rfl, toNat_zext32_byte s.len, (exec_changesOnly (i := .fbGetlen) rfl).keepsBut⟩,
    encoding_of_formatZ fun _ _ => rfl⟩

/-- Settles O18: the command writes the value of STATUS to RESULT alone, and its words are of format Z. -/
theorem statRdCopiesStatus : Obligations.StatRdCopiesStatus :=
  ⟨fun s => ⟨_, rfl, toNat_zext32_byte s.status, (exec_changesOnly (i := .statRd) rfl).keepsBut⟩,
    encoding_of_formatZ fun _ _ => rfl⟩

/-- Settles O19: the command clears bit 6 of STATUS and writes nothing else, and its words are of format Z. -/
theorem statClrClearsIllOnly : Obligations.StatClrClearsIllOnly :=
  ⟨fun s => ⟨_, rfl, statusClearIll_bit s.status, (exec_changesOnly (i := .statClr) rfl).keepsBut⟩,
    encoding_of_formatZ fun _ _ => rfl⟩

end Sys2Proof.Machine

/-! PROOF. The codec family, encoders: the frame that ENC_CMD and ENC_TLM build for every payload length (42_codec.md
R100 to R102). -/

namespace Sys2Proof.Machine

open Sys2Proof.Spec

/-! ### The two CRCs of a frame of any length (R52, R71) -/

theorem crcRx_eq_storedOfLength (s : State) : crcRx s.params s.fb = storedOfLength s := by
  rewrite [crcRx, storedOfLength]
  cases s.params.crcOrder <;> rfl

theorem frameCrc_eq_crcOfLength (s : State) : frameCrc s.params s.fb = crcOfLength s :=
  frameCrc_eq_crc16_map s.params s.fb

/-- At the standard lengths the two CRCs are those of R50 and R51. -/
theorem crcOfLength_eq_payloadCrc {s : State} (hstd : StandardLengths s.params) : crcOfLength s = payloadCrc s := by
  rw [crcOfLength, payloadCrc, hstd.2]

theorem storedOfLength_eq_storedCrc {s : State} (hstd : StandardLengths s.params) :
    storedOfLength s = storedCrc s := by
  rw [← crcRx_eq_storedOfLength, crcRx_eq_storedCrc hstd]

/-! ### What an encode builds (R101, R102) -/

/-- A list with the elements of a layout is the laid-out list. -/
theorem eq_map_range_of_getD {p : List Byte} {layout : Nat → Byte} (h : ∀ k, k < p.length → p.getD k 0 = layout k) :
    p = (List.range p.length).map layout := by
  apply List.ext_getElem
  · simp
  · intro k hk _
    rw [List.getElem_map, List.getElem_range, ← h k hk, List.getD_eq_getElem _ _ hk]

/-- Encoding a payload builds its frame, when the frame is the payload with two bytes behind it and its length fits
LEN. -/
theorem frameBuiltOfLength_encodeFrame {s : State} (hfb : s.fb.wf = true)
    (hframe : s.params.frameLen = s.params.payloadLen + 2) (hmax : s.params.frameLen ≤ 255) {p : List Byte}
    {layout : Nat → Byte} (hp : p.length = s.params.payloadLen)
    (hlayout : ∀ k, k < s.params.payloadLen → p.getD k 0 = layout k) :
    FrameBuiltOfLength layout s (encodeFrame p s) := by
  have hlist : (List.range s.params.payloadLen).map layout = p := by
    rw [← hp] at hlayout ⊢
    exact (eq_map_range_of_getD hlayout).symm
  rw [FrameBuiltOfLength, hlist]
  refine ⟨fun a ha => ?_, ?_, fun a ha => ?_, ?_, rfl, toNat_zext32_half _, ?_⟩
  · rw [encodeFrame_fb, read_frameOf _ _ hfb hp, if_pos ha, hlayout a ha]
  · rw [← crcRx_eq_storedOfLength]
    exact crcRx_frameOf _ _ hfb hp
  · rw [encodeFrame_fb, read_frameOf _ _ hfb hp, if_neg (by omega), if_neg (by omega)]
  · rw [encodeFrame_len, BitVec.toNat_ofNat, Nat.mod_eq_of_lt (by omega)]
  · exact (((((ChangesOnly.refl _ s).setFb _ (by simp)).setLen _ (by simp)).setCrc _ (by simp)).setResult _
      (by simp)).keepsBut

/-- ENC_CMD builds the layout of R50, as far as it fits the payload. -/
theorem exec_encCmd_builds {s : State} (hfb : s.fb.wf = true)
    (hframe : s.params.frameLen = s.params.payloadLen + 2) (hmax : s.params.frameLen ≤ 255) :
    ∃ t, exec .encCmd s = .next t ∧ FrameBuiltOfLength (cmdLayout s.params s.cf) s t :=
  ⟨_, rfl, frameBuiltOfLength_encodeFrame hfb hframe hmax (length_packCmd _ _) fun _ => getD_packCmd s.cf⟩

/-- ENC_TLM builds the layout of R51, as far as it fits the payload. -/
theorem exec_encTlm_builds {s : State} (hfb : s.fb.wf = true)
    (hframe : s.params.frameLen = s.params.payloadLen + 2) (hmax : s.params.frameLen ≤ 255) :
    ∃ t, exec .encTlm s = .next t ∧ FrameBuiltOfLength (tlmLayout s.params s.tf) s t :=
  ⟨_, rfl, frameBuiltOfLength_encodeFrame hfb hframe hmax (length_packTlm _ _) fun _ => getD_packTlm s.tf⟩

/-- Building a frame keeps the banks and the parameters. -/
theorem keeps_of_frameBuiltOfLength {layout : Nat → Byte} {s t : State} (hb : FrameBuiltOfLength layout s t) :
    t.cf = s.cf ∧ t.tf = s.tf ∧ t.params = s.params := by
  obtain ⟨-, -, -, -, -, -, -, -, -, -, -, hcf, htf, hparams, -⟩ := hb
  exact ⟨hcf (by simp), htf (by simp), hparams⟩

/-- A frame of the standard lengths is built as R101 and R102 print it. -/
theorem frameBuilt_of_frameBuiltOfLength {layout : Nat → Byte} {s t : State} (h : FrameBuiltOfLength layout s t)
    (hstd : StandardLengths s.params) : FrameBuilt layout s t := by
  obtain ⟨-, -, hparams⟩ := keeps_of_frameBuiltOfLength h
  rw [FrameBuiltOfLength, hstd.1, hstd.2] at h
  obtain ⟨hread, hstored, hbeyond, hlen, hcrc, hresult, hkeeps⟩ := h
  rw [storedOfLength_eq_storedCrc (hparams ▸ hstd)] at hstored
  exact ⟨hread, hstored, hbeyond, BitVec.eq_of_toNat_eq hlen, hcrc, hresult, hkeeps⟩

/-- Settles O20: the frame of any length that ENC_CMD builds, at the standard lengths; its words are of format Z. -/
theorem encCmdBuildsTheCommandFrame : Obligations.EncCmdBuildsTheCommandFrame := by
  refine ⟨fun s hstd hfb => ?_, encoding_of_formatZ fun _ _ => rfl⟩
  obtain ⟨hframe, hpay⟩ := hstd
  obtain ⟨t, ht, hbuilt⟩ := exec_encCmd_builds hfb (by omega) (by omega)
  exact ⟨t, ht, frameBuilt_of_frameBuiltOfLength hbuilt ⟨hframe, hpay⟩⟩

/-- Settles O21: the frame of any length that ENC_TLM builds, at the standard lengths; its words are of format Z. -/
theorem encTlmBuildsTheTelemetryFrame : Obligations.EncTlmBuildsTheTelemetryFrame := by
  refine ⟨fun s hstd hfb => ?_, encoding_of_formatZ fun _ _ => rfl⟩
  obtain ⟨hframe, hpay⟩ := hstd
  obtain ⟨t, ht, hbuilt⟩ := exec_encTlm_builds hfb (by omega) (by omega)
  exact ⟨t, ht, frameBuilt_of_frameBuiltOfLength hbuilt ⟨hframe, hpay⟩⟩

end Sys2Proof.Machine

/-! PROOF. The codec family, decoders: what DEC_CMD and DEC_TLM record and load for every payload length (42_codec.md
R100, R103 to R107). -/

namespace Sys2Proof.Machine

open Sys2Proof.Spec

/-! ### The frame check (R103, R106) -/

/-- The outcome of the frame check is NONE exactly when every check passes (R103). -/
theorem frameCheck_err_eq_none_iff {h : Byte} {s : State} : (frameCheck h s).err = .none ↔ ChecksPass h s := by
  simp only [frameCheck, decodeErr, ChecksPass, frameCrc_eq_crcOfLength, crcRx_eq_storedOfLength]
  split_ifs <;> simp_all

/-- The code of the outcome is 0 exactly when every check passes, at the standard lengths. -/
theorem checkCode_eq_zero_iff {h : Byte} {s : State} (hstd : StandardLengths s.params) :
    checkCode h s = 0 ↔ ChecksPass h s := by
  rw [← frameCheck_err_eq_none_iff, ← DecodeErr.code_injective.eq_iff, code_frameCheck_err hstd]
  rfl

/-- A frame of the right length with another header has the outcome HEADER (R103). -/
theorem frameCheck_err_eq_header {h : Byte} {s : State} (hlen : s.len.toNat = s.params.frameLen)
    (hhdr : s.fb.read 0 ≠ h) : (frameCheck h s).err = .header := by
  simp [frameCheck, decodeErr, hlen, hhdr]

/-- The fields of the STATUS that a decode leaves (R104 to R106). -/
theorem checkedStatus_fields (s : State) (k : FrameCheck) :
    statusErr (checkedStatus s k) = k.err.code
    ∧ statusLenOk (checkedStatus s k) = (decodeFlags s.params.flagPolicy k.err k.lenMatch k.crcMatch).1
    ∧ statusCrcOk (checkedStatus s k) = (decodeFlags s.params.flagPolicy k.err k.lenMatch k.crcMatch).2
    ∧ statusSatMatch (checkedStatus s k) = k.satMatch ∧ statusDvalid (checkedStatus s k) = (k.err == .none)
    ∧ statusIll (checkedStatus s k) = statusIll s.status
    ∧ statusReserved (checkedStatus s k) = statusReserved s.status := statusDecoded_fields ..

/-- When every check passes, both flag policies set both flags (R106). -/
theorem decodeFlags_of_checksPass {h : Byte} {s : State} (hpass : ChecksPass h s) :
    decodeFlags s.params.flagPolicy (frameCheck h s).err (frameCheck h s).lenMatch (frameCheck h s).crcMatch
      = (true, true) := by
  have herr := frameCheck_err_eq_none_iff.2 hpass
  obtain ⟨hlen, hcrc⟩ : (frameCheck h s).lenMatch = true ∧ (frameCheck h s).crcMatch = true :=
    matches_of_decodeErr_none herr
  cases s.params.flagPolicy <;> simp [decodeFlags, herr, hlen, hcrc]

/-! ### What a decode does (R104, R105) -/

/-- A decode for the header `h` from `s` to `t`: the check is recorded, and the bank is unpacked from FB exactly when
every check passes. -/
structure Decodes {β : Type} (h : Byte) (bank : State → β) (unpack : Params → Memory → β → β) (s t : State) : Prop where
  status : t.status = checkedStatus s (frameCheck h s)
  crc : t.crc = crcOfLength s
  result : t.result.toNat = (crcOfLength s).toNat
  loads : ChecksPass h s → bank t = unpack s.params s.fb (bank s)
  keeps : ¬ ChecksPass h s → bank t = bank s

section

variable {β : Type} {h : Byte} {bank : State → β} {unpack : Params → Memory → β → β} {s t : State}

/-- A command that records the check, and loads the bank when every check passes, decodes. -/
theorem decodes_of_cases {load : State → State}
    (hcases : ((frameCheck h s).err = .none ∧ t = load (recordCheck (frameCheck h s) s))
      ∨ ((frameCheck h s).err ≠ .none ∧ t = recordCheck (frameCheck h s) s))
    (hload : ∀ r, (load r).status = r.status ∧ (load r).crc = r.crc ∧ (load r).result = r.result)
    (hunpack : ∀ r, bank (load r) = unpack r.params r.fb (bank r)) (hbank : ∀ k, bank (recordCheck k s) = bank s) :
    Decodes h bank unpack s t := by
  have hcrc := frameCrc_eq_crcOfLength s
  have hresult := (toNat_zext32_half (frameCrc s.params s.fb)).trans (congrArg BitVec.toNat hcrc)
  rcases hcases with ⟨hk, rfl⟩ | ⟨hk, rfl⟩
  · obtain ⟨hst, hc, hr⟩ := hload (recordCheck (frameCheck h s) s)
    refine ⟨hst, hc.trans hcrc, hr ▸ hresult, fun _ => ?_, fun hn => absurd (frameCheck_err_eq_none_iff.1 hk) hn⟩
    rw [hunpack, hbank]
    rfl
  · exact ⟨rfl, hcrc, hresult, fun hp => absurd (frameCheck_err_eq_none_iff.2 hp) hk, fun _ => hbank _⟩

theorem exec_decCmd_decodes (s : State) :
    ∃ t, exec .decCmd s = .next t ∧ Decodes s.params.hdrCmd State.cf unpackCmd s t
      ∧ KeepsBut [.status, .crc, .result, .cf] s t := by
  obtain ⟨t, ht⟩ : ∃ t, exec .decCmd s = .next t := ⟨_, rfl⟩
  exact ⟨t, ht, decodes_of_cases (execDecCmd_cases ht) (fun _ => ⟨rfl, rfl, rfl⟩) (fun _ => rfl) fun _ => rfl,
    (exec_changesOnly ht).keepsBut⟩

theorem exec_decTlm_decodes (s : State) :
    ∃ t, exec .decTlm s = .next t ∧ Decodes s.params.hdrTlm State.tf unpackTlm s t
      ∧ KeepsBut [.status, .crc, .result, .tf] s t := by
  obtain ⟨t, ht⟩ : ∃ t, exec .decTlm s = .next t := ⟨_, rfl⟩
  exact ⟨t, ht, decodes_of_cases (execDecTlm_cases ht) (fun _ => ⟨rfl, rfl, rfl⟩) (fun _ => rfl) fun _ => rfl,
    (exec_changesOnly ht).keepsBut⟩

/-- STATUS.ERR after a decode is NONE exactly when every check passes. -/
theorem Decodes.statusErr_eq_none_iff (hd : Decodes h bank unpack s t) :
    statusErr t.status = DecodeErr.none.code ↔ ChecksPass h s := by
  rw [hd.status, statusErr_checkedStatus, DecodeErr.code_injective.eq_iff, frameCheck_err_eq_none_iff]

/-- STATUS.SAT_MATCH after a decode is the comparison of byte 1, whatever the outcome (R107). -/
theorem Decodes.statusSatMatch_eq (hd : Decodes h bank unpack s t) :
    statusSatMatch t.status = decide (s.fb.read 1 = s.params.satId) := by
  obtain ⟨-, -, -, hsat, -⟩ := checkedStatus_fields s (frameCheck h s)
  rw [hd.status, hsat]
  rfl

/-- When every check passes, STATUS records NONE and sets LEN_OK, CRC_OK and DVALID under both flag policies. -/
theorem Decodes.status_of_checksPass (hd : Decodes h bank unpack s t) (hpass : ChecksPass h s) :
    statusErr t.status = DecodeErr.none.code ∧ statusLenOk t.status = true ∧ statusCrcOk t.status = true
      ∧ statusDvalid t.status = true := by
  obtain ⟨-, hlenOk, hcrcOk, -, hval, -⟩ := checkedStatus_fields s (frameCheck h s)
  rw [hd.statusErr_eq_none_iff, hd.status, hlenOk, hcrcOk, hval, decodeFlags_of_checksPass hpass,
    frameCheck_err_eq_none_iff.2 hpass]
  exact ⟨hpass, rfl, rfl, rfl⟩

/-- At the standard lengths a decode records the outcome code and the flags that the rules print (R104 to R107). -/
theorem Decodes.checkRecorded (hd : Decodes h bank unpack s t) (hstd : StandardLengths s.params) :
    CheckRecorded h s t := by
  obtain ⟨herr, hlenOk, hcrcOk, hsat, hval, hill, hres⟩ := checkedStatus_fields s (frameCheck h s)
  have hcode := code_frameCheck_err hstd h
  have hnone : ((frameCheck h s).err == .none) = decide (checkCode h s = 0) := by
    rw [Bool.eq_iff_iff, beq_iff_eq, decide_eq_true_iff, checkCode_eq_zero_iff hstd, frameCheck_err_eq_none_iff]
  rw [CheckRecorded, hd.status, hd.crc, hd.result, crcOfLength_eq_payloadCrc hstd, herr, hlenOk, hcrcOk, hsat, hval]
  refine ⟨hcode, rfl, hnone, fun hpol => ?_, fun hpol => ?_, hill, hres, rfl, rfl⟩
  · rw [hpol]
    exact ⟨hnone, hnone⟩
  · rw [hpol]
    simp [decodeFlags, frameCheck, hstd.1, frameCrc_eq_payloadCrc hstd, crcRx_eq_storedCrc hstd, Bool.beq_eq_decide_eq]

end

/-- Settles O22: DEC_CMD records the check and unpacks CF when it passes; its words are of format Z. -/
theorem decCmdChecksAndLoads : Obligations.DecCmdChecksAndLoads := by
  refine ⟨fun s hstd => ?_, encoding_of_formatZ fun _ _ => rfl⟩
  obtain ⟨t, ht, hd, hkeeps⟩ := exec_decCmd_decodes s
  rw [Ne, checkCode_eq_zero_iff hstd]
  exact ⟨t, ht, hd.checkRecorded hstd, fun hp => hd.loads hp ▸ cmdLoaded_unpackCmd hstd.2 _ _, hd.keeps, hkeeps⟩

/-- Settles O23: DEC_TLM records the check and unpacks TF when it passes; its words are of format Z. -/
theorem decTlmChecksAndLoads : Obligations.DecTlmChecksAndLoads := by
  refine ⟨fun s hstd => ?_, encoding_of_formatZ fun _ _ => rfl⟩
  obtain ⟨t, ht, hd, hkeeps⟩ := exec_decTlm_decodes s
  rw [Ne, checkCode_eq_zero_iff hstd]
  exact ⟨t, ht, hd.checkRecorded hstd, fun hp => hd.loads hp ▸ tlmLoaded_unpackTlm hstd.2 _ _, hd.keeps, hkeeps⟩

/-! ### What unpacking loads (R100) -/

theorem lowByte_append (a b : Byte) : lowByte (a ++ b) = b := BitVec.extractLsb'_append_eq_right

theorem highByte_append (a b : Byte) : highByte (a ++ b) = a := BitVec.extractLsb'_append_eq_left

theorem lowByte_payloadHalf (P : Params) (m : Memory) (i : Nat) (old : Half) :
    lowByte (payloadHalf P m i old) = payloadByte P m i (lowByte old) := lowByte_append _ _

theorem highByte_payloadHalf (P : Params) (m : Memory) (i : Nat) (old : Half) :
    highByte (payloadHalf P m i old) = payloadByte P m (i + 1) (highByte old) := highByte_append _ _

/-- Unpacking a command frame reads named byte `k` of the bank from FB, where the payload holds it (R50, R100). -/
theorem cmdLayout_unpackCmd (P : Params) (m : Memory) (old : CmdBank) : ∀ k, 2 ≤ k → k < 14 →
    cmdLayout P (unpackCmd P m old) k = payloadByte P m k (cmdLayout P old k)
  | 2, _, _ | 3, _, _ | 4, _, _ | 5, _, _ | 6, _, _ | 7, _, _ | 12, _, _ | 13, _, _ => rfl
  | 8, _, _ | 10, _, _ => lowByte_payloadHalf ..
  | 9, _, _ | 11, _, _ => highByte_payloadHalf ..

/-- Unpacking a telemetry frame reads named byte `k` of the bank from FB, where the payload holds it (R51, R100). -/
theorem tlmLayout_unpackTlm (P : Params) (m : Memory) (old : TlmBank) : ∀ k, 2 ≤ k → k < 19 →
    tlmLayout P (unpackTlm P m old) k = payloadByte P m k (tlmLayout P old k)
  | 2, _, _ | 3, _, _ | 8, _, _ | 9, _, _ | 10, _, _ | 15, _, _ | 16, _, _ | 17, _, _ | 18, _, _ => rfl
  | 4, _, _ | 6, _, _ | 11, _, _ | 13, _, _ => lowByte_payloadHalf ..
  | 5, _, _ | 7, _, _ | 12, _, _ | 14, _, _ => highByte_payloadHalf ..
  | _ + 19, _, h => absurd h (by omega)

/-- Settles O59: the encoders build the frame of any length, and the decoders unpack it byte by byte when every check
passes. -/
theorem framesOfEveryPayloadLength : Obligations.FramesOfEveryPayloadLength := by
  intro s hs hfb
  obtain ⟨hframe, -, -, -, -, -, -, -, hmax, -⟩ := (constraints_iff s.params).1 hs
  obtain ⟨c, hc, hcDec, hcKeeps⟩ := exec_decCmd_decodes s
  obtain ⟨t, ht, htDec, htKeeps⟩ := exec_decTlm_decodes s
  refine ⟨exec_encCmd_builds hfb hframe hmax, exec_encTlm_builds hfb hframe hmax,
    ⟨c, hc, hcDec.crc, hcDec.result, hcDec.statusErr_eq_none_iff, fun hp k h2 h14 => ?_, hcDec.keeps, hcKeeps⟩,
    ⟨t, ht, htDec.crc, htDec.result, htDec.statusErr_eq_none_iff, fun hp k h2 h19 => ?_, htDec.keeps, htKeeps⟩⟩
  · rw [hcDec.loads hp]
    exact cmdLayout_unpackCmd _ _ _ k h2 h14
  · rw [htDec.loads hp]
    exact tlmLayout_unpackTlm _ _ _ k h2 h19

end Sys2Proof.Machine

/-! PROOF. The codec family, round trips: what a decode makes of an encoded frame (42_codec.md R108), and the StatusMask
command (R109). -/

namespace Sys2Proof.Machine

open Sys2Proof.Spec

/-! ### Banks from their layout (R50, R51) -/

theorem half_ext {v w : Half} (hlow : lowByte v = lowByte w) (hhigh : highByte v = highByte w) : v = w := by
  rw [← highByte_append_lowByte v, hlow, hhigh, highByte_append_lowByte]

/-- A command bank is given by the named bytes of its layout. -/
theorem CmdBank.ext_layout {P : Params} {a b : CmdBank}
    (h : ∀ k, 2 ≤ k → k < 14 → cmdLayout P a k = cmdLayout P b k) : a = b := by
  have hbyte : ∀ k : Fin 12, cmdLayout P a (k + 2) = cmdLayout P b (k + 2) := fun k => h _ (by omega) (by omega)
  cases a
  cases b
  rw [CmdBank.mk.injEq]
  exact ⟨hbyte 0, hbyte 1, hbyte 2, hbyte 3, hbyte 4, hbyte 5, half_ext (hbyte 6) (hbyte 7),
    half_ext (hbyte 8) (hbyte 9), hbyte 10, hbyte 11⟩

/-- A telemetry bank is given by the named bytes of its layout. -/
theorem TlmBank.ext_layout {P : Params} {a b : TlmBank}
    (h : ∀ k, 2 ≤ k → k < 19 → tlmLayout P a k = tlmLayout P b k) : a = b := by
  have hbyte : ∀ k : Fin 17, tlmLayout P a (k + 2) = tlmLayout P b (k + 2) := fun k => h _ (by omega) (by omega)
  cases a
  cases b
  rw [TlmBank.mk.injEq]
  exact ⟨hbyte 0, hbyte 1, half_ext (hbyte 2) (hbyte 3), half_ext (hbyte 4) (hbyte 5), hbyte 6, hbyte 7, hbyte 8,
    half_ext (hbyte 9) (hbyte 10), half_ext (hbyte 11) (hbyte 12), hbyte 13, hbyte 14, hbyte 15, hbyte 16⟩

/-- A byte is as it was when FB holds its old value wherever the payload reaches it. -/
theorem payloadByte_eq_old {P : Params} {m : Memory} {k : Nat} {old : Byte} (h : k < P.payloadLen → m.read k = old) :
    payloadByte P m k old = old := by
  by_cases hk : k < P.payloadLen
  · rw [payloadByte_of_lt hk, h hk]
  · exact payloadByte_of_le (Nat.le_of_not_lt hk) m old

/-- Unpacking a payload with the layout of a bank gives the bank back (R108). -/
theorem unpackCmd_eq_self {P : Params} {m : Memory} {cf : CmdBank}
    (h : ∀ k, k < P.payloadLen → m.read k = cmdLayout P cf k) : unpackCmd P m cf = cf :=
  CmdBank.ext_layout (P := P) fun k h2 h14 => by
    rw [cmdLayout_unpackCmd P m cf k h2 h14, payloadByte_eq_old (h k)]

theorem unpackTlm_eq_self {P : Params} {m : Memory} {tf : TlmBank}
    (h : ∀ k, k < P.payloadLen → m.read k = tlmLayout P tf k) : unpackTlm P m tf = tf :=
  TlmBank.ext_layout (P := P) fun k h2 h19 => by
    rw [tlmLayout_unpackTlm P m tf k h2 h19, payloadByte_eq_old (h k)]

/-! ### A decode of an encoded frame (R108) -/

section

variable {β : Type} {layout : Nat → Byte} {s t u : State} {h : Byte} {bank : State → β}
  {unpack : Params → Memory → β → β} (hb : FrameBuiltOfLength layout s t) (hd : Decodes h bank unpack t u)
include hb

/-- A built frame passes every check for the header, and under `reject` the satellite id, that FB reads. -/
theorem checksPass_iff_of_frameBuiltOfLength :
    ChecksPass h t ↔ t.fb.read 0 = h ∧ (s.params.satIdPolicy = .reject → t.fb.read 1 = s.params.satId) := by
  obtain ⟨-, -, hparams⟩ := keeps_of_frameBuiltOfLength hb
  obtain ⟨hread, hstored, -, hlen, -⟩ := hb
  have hcrc : crcOfLength t = storedOfLength t := by
    rw [hstored, crcOfLength, hparams]
    exact congrArg _ (List.map_congr_left fun k hk => hread k (List.mem_range.1 hk))
  rw [ChecksPass, hparams]
  exact ⟨fun ⟨_, hhdr, hsat, _⟩ => ⟨hhdr, hsat⟩, fun ⟨hhdr, hsat⟩ => ⟨hlen, hhdr, hsat, hcrc⟩⟩

include hd

/-- The decode of a built frame for its own header: the bank is given back, and with the header (and the satellite id,
where it is checked) inside the payload every check passes. -/
theorem decode_of_own_header (hhdr : layout 0 = h) (hid : layout 1 = s.params.satId) (hbank : bank t = bank s)
    (hunpack : (∀ k, k < s.params.payloadLen → t.fb.read k = layout k) →
      unpack s.params t.fb (bank s) = bank s) :
    bank u = bank s
    ∧ (2 ≤ s.params.payloadLen ∨ (1 ≤ s.params.payloadLen ∧ s.params.satIdPolicy = .ignore) →
        statusErr u.status = DecodeErr.none.code ∧ statusLenOk u.status = true ∧ statusCrcOk u.status = true
        ∧ statusDvalid u.status = true)
    ∧ (2 ≤ s.params.payloadLen → statusSatMatch u.status = true) := by
  obtain ⟨-, -, hparams⟩ := keeps_of_frameBuiltOfLength hb
  have hpass := checksPass_iff_of_frameBuiltOfLength (h := h) hb
  obtain ⟨hread, -⟩ := hb
  refine ⟨?_, fun hlen => ?_, fun hlen => ?_⟩
  · by_cases hp : ChecksPass h t
    · rw [hd.loads hp, hparams, hbank, hunpack hread]
    · rw [hd.keeps hp, hbank]
  · refine hd.status_of_checksPass (hpass.2 ⟨?_, fun hrej => ?_⟩)
    · rw [hread 0 (by omega), hhdr]
    · have h2 : 2 ≤ s.params.payloadLen := hlen.resolve_right fun hign => by simp [hrej] at hign
      rw [hread 1 h2, hid]
  · rw [hd.statusSatMatch_eq, hread 1 hlen, hparams, hid]
    exact decide_eq_true rfl

/-- The decode of a built frame for another header: the bank is kept, and with the header inside the payload the outcome
is HEADER. -/
theorem decode_of_other_header (hhdr : layout 0 ≠ h) (hbank : bank t = bank s)
    (hunpack : s.params.payloadLen = 0 → unpack s.params t.fb (bank s) = bank s) :
    bank u = bank s ∧ (1 ≤ s.params.payloadLen → statusErr u.status = DecodeErr.header.code) := by
  obtain ⟨-, -, hparams⟩ := keeps_of_frameBuiltOfLength hb
  have hpass := checksPass_iff_of_frameBuiltOfLength (h := h) hb
  obtain ⟨hread, -, -, hlen, -⟩ := hb
  have hne : 1 ≤ s.params.payloadLen → t.fb.read 0 ≠ h := fun h1 => by rwa [hread 0 h1]
  refine ⟨?_, fun h1 => ?_⟩
  · by_cases hp : ChecksPass h t
    · have hempty : s.params.payloadLen = 0 := by
        by_contra h0
        exact hne (Nat.pos_of_ne_zero h0) (hpass.1 hp).1
      rw [hd.loads hp, hparams, hbank, hunpack hempty]
    · rw [hd.keeps hp, hbank]
  · rw [hd.status, statusErr_checkedStatus, frameCheck_err_eq_header (by rw [hlen, hparams]) (hne h1)]

end

/-- An empty payload is the same for both banks. -/
theorem packCmd_eq_packTlm {P : Params} (h : P.payloadLen = 0) (cf : CmdBank) (tf : TlmBank) :
    packCmd P cf = packTlm P tf := by
  rw [List.eq_nil_of_length_eq_zero ((length_packCmd P cf).trans h),
    List.eq_nil_of_length_eq_zero ((length_packTlm P tf).trans h)]

/-- Settles O25: a built frame reads its layout, which unpacks to the bank it was packed from, and its header is the one
that the other decode refuses. -/
theorem encodeThenDecodeRoundTrips : Obligations.EncodeThenDecodeRoundTrips := by
  intro s hs hbuf
  obtain ⟨hframe, -, -, -, -, -, -, hhdr, hmax, -⟩ := (constraints_iff s.params).1 hs
  refine ⟨?_, ?_, fun hempty => ⟨_, rfl, ?_⟩⟩
  · obtain ⟨t, ht, hb⟩ := exec_encCmd_builds hbuf.1 hframe hmax
    obtain ⟨hcf, htf, hparams⟩ := keeps_of_frameBuiltOfLength hb
    obtain ⟨u, hu, hown, -⟩ := exec_decCmd_decodes t
    obtain ⟨v, hv, hother, -⟩ := exec_decTlm_decodes t
    rw [hparams] at hown hother
    obtain ⟨hbank, hpass, hsat⟩ := decode_of_own_header hb hown rfl rfl hcf unpackCmd_eq_self
    obtain ⟨hkept, herr⟩ := decode_of_other_header hb hother hhdr htf fun h0 =>
      unpackTlm_eq_self fun k hk => absurd hk (by omega)
    exact ⟨t, u, v, ht, hu, hbank, hpass, hsat, hv, hkept, herr⟩
  · obtain ⟨t, ht, hb⟩ := exec_encTlm_builds hbuf.1 hframe hmax
    obtain ⟨hcf, htf, hparams⟩ := keeps_of_frameBuiltOfLength hb
    obtain ⟨u, hu, hown, -⟩ := exec_decTlm_decodes t
    obtain ⟨v, hv, hother, -⟩ := exec_decCmd_decodes t
    rw [hparams] at hown hother
    obtain ⟨hbank, hpass, hsat⟩ := decode_of_own_header hb hown rfl rfl htf unpackTlm_eq_self
    obtain ⟨hkept, herr⟩ := decode_of_other_header hb hother hhdr.symm hcf fun h0 =>
      unpackCmd_eq_self fun k hk => absurd hk (by omega)
    exact ⟨t, u, v, ht, hu, hbank, hpass, hsat, hv, hkept, herr⟩
  · exact congrArg (fun p => complete (encodeFrame p s)) (packCmd_eq_packTlm hempty s.cf s.tf).symm

/-! ### The StatusMask command (R109) -/

/-- An opcode of format N4 reads a word as its command with D[3:0] exactly when A and D[15:4] are 0. -/
theorem encoding_of_formatN4 {op : Byte} {i : BitVec 4 → Instr} (hop : ∀ a d, decodeFields op a d = formatN4 a d i) :
    Encoding op (fun w => w.extractLsb' 4 20 = 0) fun w => i (w.extractLsb' 0 4) :=
  encoding_of_ite (why := fun _ => .mustBeZero) fun w hw => by
    have hbits : w.extractLsb' 4 20 = 0 ↔ aField w = 0 ∧ (dField w).extractLsb' 4 12 = 0 := by
      rw [extract_dField w 4 12 (by decide), aField, extract_eq_zero, extract_eq_zero, extract_eq_zero]
      omega
    rw [decode_of_opField hw, hop, formatN4, extract_dField w 0 4 (by decide)]
    simp only [hbits]

/-- Writing a zero-extended byte to T_SMASK stores the byte. -/
theorem TlmBank.smask_write (tf : TlmBank) (b : Byte) : (tf.write .smask (b.setWidth 16)).smask = b := by
  simp [TlmBank.write]

/-- Settles O28: the command writes the StatusMask byte to T_SMASK and no other field, and its words are of format
N4. -/
theorem tlmStatBuildsTheStatusMask : Obligations.TlmStatBuildsTheStatusMask := by
  refine ⟨fun n s => ⟨_, rfl, ?_⟩, encoding_of_formatN4 fun _ _ => rfl⟩
  obtain ⟨hflags, hlen, hcrc, h6, h7⟩ := statusMask_bits n s.status
  rw [State.setTf_tf, TlmBank.smask_write]
  refine ⟨hflags, hlen, hcrc, h6, h7, fun j hj => ?_, (exec_changesOnly (i := .tlmStat n) rfl).keepsBut⟩
  rw [TlmBank.read_write, if_neg hj]

end Sys2Proof.Machine

/-! PROOF. The conversion family, shared rules: the words of formats H and XH (30_encoding.md R41, R43), and what R120
to R124 compute under the ranges that R8 gives the conversions. -/

namespace Sys2Proof.Machine

open Sys2Proof.Spec

/-! ### The words of formats H and XH (R41, R43) -/

/-- An opcode of format H reads a word as its command with D exactly when A is 0. -/
theorem encoding_of_formatH {op : Byte} {i : Half → Instr} (hop : ∀ a d, decodeFields op a d = formatH a d i) :
    Encoding op (fun w => w.extractLsb' 16 8 = 0) fun w => i (valueOf w) :=
  encoding_of_ite (why := fun _ => .mustBeZero) fun w hw => by
    rw [decode_of_opField hw, hop]
    rfl

/-- An opcode of format XH reads a word as its command with the axis and D exactly when A[7:1] is 0. -/
theorem encoding_of_formatXH {op : Byte} {i : Axis → Half → Instr}
    (hop : ∀ a d, decodeFields op a d = formatXH a d i) :
    Encoding op (fun w => w.extractLsb' 17 7 = 0) fun w => i (axisBit w) (valueOf w) :=
  encoding_of_ite (why := fun _ => .badAxis) fun w hw => by
    rw [decode_of_opField hw, hop, formatXH, extract_aField w 1 7 (by decide), getLsbD_aField w 0 (by decide)]
    rfl

/-! ### The model's words and the statements' words (R9, R122 to R124) -/

theorem clamp_eq_limited {lo hi : Int} (v : Int) (h : lo ≤ hi) : clamp v lo hi = limited v lo hi := by
  unfold clamp limited
  split_ifs <;> omega

theorem minUs_eq_axisMin (P : Params) (axis : Axis) : minUs P axis = axisMin P axis := by cases axis <;> rfl

theorem maxUs_eq_axisMax (P : Params) (axis : Axis) : maxUs P axis = axisMax P axis := by cases axis <;> rfl

theorem roundedDiv_eq_mapQuotient (P : Params) (n d : Int) : roundedDiv P.mapRounding n d = mapQuotient P n d := by
  unfold roundedDiv mapQuotient
  cases P.mapRounding <;> rfl

theorem clamp_of_le {v lo hi : Int} (hv : v ≤ lo) (h : lo ≤ hi) : clamp v lo hi = lo := by
  rw [clamp_eq_limited v h, limited]
  omega

theorem clamp_of_ge {v lo hi : Int} (hv : hi ≤ v) (h : lo ≤ hi) : clamp v lo hi = hi := by
  rw [clamp_eq_limited v h, limited]
  omega

theorem clamp_eq_clamp_lo {v lo hi : Int} (hv : v ≤ lo) (h : lo ≤ hi) : clamp v lo hi = clamp lo lo hi :=
  (clamp_of_le hv h).trans (clamp_of_le le_rfl h).symm

theorem clamp_eq_clamp_hi {v lo hi : Int} (hv : hi ≤ v) (h : lo ≤ hi) : clamp v lo hi = clamp hi lo hi :=
  (clamp_of_ge hv h).trans (clamp_of_ge le_rfl h).symm

/-- An exact multiple of the divisor has its quotient under both roundings. -/
theorem roundedDiv_mul_self (m : MapRounding) (r : Int) {d : Int} (hd : 0 < d) : roundedDiv m (d * r) d = r := by
  cases m with
  | floor => exact Int.mul_ediv_cancel_left r hd.ne'
  | nearest =>
    change (2 * (d * r) + d) / (2 * d) = r
    rw [Int.ediv_eq_iff_of_pos (by omega)]
    constructor <;> nlinarith

theorem roundedDiv_zero (m : MapRounding) {d : Int} (hd : 0 < d) : roundedDiv m 0 d = 0 := by
  simpa using roundedDiv_mul_self m 0 hd

/-- A number that fits `n` bits is the value of its `n`-bit word. -/
theorem toNat_ofInt_of_bounds {n : Nat} {v : Int} (h0 : 0 ≤ v) (h1 : v < 2 ^ n) :
    ((BitVec.ofInt n v).toNat : Int) = v := by
  rw [BitVec.toNat_ofInt, Int.emod_eq_of_lt h0 (by exact_mod_cast h1), Int.toNat_of_nonneg h0]

/-- Words with the same number are the same word. -/
theorem eq_of_natCast_toNat_eq {n : Nat} {v w : BitVec n} (h : (v.toNat : Int) = w.toNat) : v = w :=
  BitVec.eq_of_toNat_eq (Int.ofNat_inj.1 h)

/-- The angle conversions read an angle through its clamp alone. -/
theorem angle_conversions_congr {P : Params} {a b : Int}
    (h : clamp a P.angMin P.angMax = clamp b P.angMin P.angMax) :
    a2w P a = a2w P b ∧ ∀ axis, a2p P axis a = a2p P axis b := by
  simp only [a2w, a2p, h, implies_true, and_self]

/-- `p2a` reads a pulse width through its clamp alone. -/
theorem p2a_congr {P : Params} {axis : Axis} {p q : Int}
    (h : clamp p (minUs P axis) (maxUs P axis) = clamp q (minUs P axis) (maxUs P axis)) :
    p2a P axis p = p2a P axis q := by
  simp only [p2a, h]

/-! ### What R8 asks of the conversions -/

/-- The clauses of R8 that the conversions rest on: the angle span and the pulse range of each axis are not empty, and
the angles fit their operands. -/
structure ConversionRanges (P : Params) : Prop where
  span_pos : 0 < angSpan P
  span_le : angSpan P ≤ 255
  angMin_ge : -32768 ≤ P.angMin
  angMax_le : P.angMax ≤ 32767
  range_pos : ∀ axis, 0 < usRange P axis

theorem conversionRanges_of_constraints {P : Params} (h : P.constraints = true) : ConversionRanges P := by
  obtain ⟨-, hlt, -, -, -, -, hspan, -, -, hmin, hmax⟩ := (constraints_iff P).1 h
  exact ⟨Int.sub_pos_of_lt hlt, hspan, hmin, hmax, fun axis => (usRange_bounds h axis).1⟩

theorem minUs_nonneg (P : Params) (axis : Axis) : 0 ≤ minUs P axis := by cases axis <;> exact Int.natCast_nonneg _

theorem maxUs_lt (P : Params) (axis : Axis) : maxUs P axis < 2 ^ 16 := by
  cases axis <;> exact Int.ofNat_lt.2 (BitVec.isLt _)

namespace ConversionRanges

variable {P : Params} (hP : ConversionRanges P)
include hP

theorem angMin_le_angMax : P.angMin ≤ P.angMax := Int.sub_nonneg.1 hP.span_pos.le

theorem minUs_le_maxUs (axis : Axis) : minUs P axis ≤ maxUs P axis := Int.sub_nonneg.1 (hP.range_pos axis).le

/-- The offset of a clamped angle lies in 0 to SPAN. -/
theorem angleOffset_bounds (a : Int) :
    0 ≤ clamp a P.angMin P.angMax - P.angMin ∧ clamp a P.angMin P.angMax - P.angMin ≤ angSpan P := by
  obtain ⟨hlo, hhi⟩ := clamp_bounds a P.angMin P.angMax hP.angMin_le_angMax
  exact ⟨Int.sub_nonneg.2 hlo, Int.sub_le_sub_right hhi _⟩

/-- The offset of a clamped pulse width lies in 0 to RANGE. -/
theorem pulseOffset_bounds (axis : Axis) (p : Int) :
    0 ≤ clamp p (minUs P axis) (maxUs P axis) - minUs P axis
    ∧ clamp p (minUs P axis) (maxUs P axis) - minUs P axis ≤ usRange P axis := by
  obtain ⟨hlo, hhi⟩ := clamp_bounds p _ _ (hP.minUs_le_maxUs axis)
  exact ⟨Int.sub_nonneg.2 hlo, Int.sub_le_sub_right hhi _⟩

/-! ### The wire pair (R120, R121) -/

/-- `a2w` does not wrap in 8 bits. -/
theorem toNat_a2w (a : Int) : ((a2w P a).toNat : Int) = clamp a P.angMin P.angMax - P.angMin := by
  obtain ⟨h0, h1⟩ := hP.angleOffset_bounds a
  have := hP.span_le
  exact toNat_ofInt_of_bounds h0 (by omega)

theorem w2a_bounds (b : Byte) : P.angMin ≤ w2a P b ∧ w2a P b ≤ P.angMax := by
  obtain ⟨h0, h1⟩ := clamp_bounds (u8 b) 0 (P.angMax - P.angMin) hP.span_pos.le
  unfold w2a
  omega

theorem w2a_a2w {a : Int} (hlo : P.angMin ≤ a) (hhi : a ≤ P.angMax) : w2a P (a2w P a) = a := by
  rw [w2a, u8, hP.toNat_a2w, clamp_of_mem hlo hhi, clamp_of_mem] <;> omega

/-- The byte that comes back from an angle is the clamped byte. -/
theorem toNat_a2w_w2a (b : Byte) : ((a2w P (w2a P b)).toNat : Int) = clamp b.toNat 0 (angSpan P) := by
  obtain ⟨hlo, hhi⟩ := hP.w2a_bounds b
  rw [hP.toNat_a2w, clamp_of_mem hlo hhi, w2a, add_sub_cancel_right]
  rfl

/-! ### The pulse maps (R123, R124) -/

/-- `a2p` does not wrap in 16 bits. -/
theorem toNat_a2p (axis : Axis) (a : Int) : ((a2p P axis a).toNat : Int)
    = minUs P axis + roundedDiv P.mapRounding ((clamp a P.angMin P.angMax - P.angMin) * usRange P axis) (angSpan P) := by
  obtain ⟨h0, h1⟩ := hP.angleOffset_bounds a
  obtain ⟨hq0, hq1⟩ := roundedDiv_bounds P.mapRounding hP.span_pos (hP.range_pos axis).le h0 h1
  have hmin := minUs_nonneg P axis
  have hmax := maxUs_lt P axis
  refine toNat_ofInt_of_bounds (by omega) ?_
  unfold usRange at *
  omega

theorem p2a_bounds (axis : Axis) (p : Int) : P.angMin ≤ p2a P axis p ∧ p2a P axis p ≤ P.angMax := by
  obtain ⟨h0, h1⟩ := hP.pulseOffset_bounds axis p
  obtain ⟨hq0, hq1⟩ := roundedDiv_bounds P.mapRounding (hP.range_pos axis) hP.span_pos.le h0 h1
  unfold p2a angSpan at *
  omega

theorem a2p_mono (axis : Axis) {a b : Int} (hab : a ≤ b) : (a2p P axis a).toNat ≤ (a2p P axis b).toNat := by
  have hclamp := clamp_mono P.angMin P.angMax hP.angMin_le_angMax hab
  have hquot := roundedDiv_mono P.mapRounding hP.span_pos
    (mul_le_mul_of_nonneg_right (sub_le_sub_right hclamp P.angMin) (hP.range_pos axis).le)
  rw [← Int.ofNat_le, hP.toNat_a2p, hP.toNat_a2p]
  exact add_le_add_right hquot _

theorem p2a_mono (axis : Axis) {p q : Int} (hpq : p ≤ q) : p2a P axis p ≤ p2a P axis q := by
  have hclamp := clamp_mono _ _ (hP.minUs_le_maxUs axis) hpq
  exact add_le_add_right (roundedDiv_mono P.mapRounding (hP.range_pos axis)
    (mul_le_mul_of_nonneg_right (sub_le_sub_right hclamp _) hP.span_pos.le)) _

theorem toNat_a2p_angMin (axis : Axis) : ((a2p P axis P.angMin).toNat : Int) = axisMin P axis := by
  rw [hP.toNat_a2p, clamp_of_le le_rfl hP.angMin_le_angMax, sub_self, zero_mul, roundedDiv_zero _ hP.span_pos, add_zero,
    minUs_eq_axisMin]

theorem toNat_a2p_angMax (axis : Axis) : ((a2p P axis P.angMax).toNat : Int) = axisMax P axis := by
  rw [hP.toNat_a2p, clamp_of_ge le_rfl hP.angMin_le_angMax, ← angSpan, roundedDiv_mul_self _ _ hP.span_pos, usRange,
    add_sub_cancel, maxUs_eq_axisMax]

end ConversionRanges

/-! ### The four commands (R125 to R128) -/

/-- Settles O29: RESULT is the byte of `a2w`, which does not wrap, and the words are of format H. -/
theorem angleToWireByte : Obligations.AngleToWireByte := by
  refine ⟨fun v s hs => ⟨_, rfl, ?_, (exec_changesOnly (i := .a2w v) rfl).keepsBut⟩,
    encoding_of_formatH fun _ _ => rfl⟩
  have hP := conversionRanges_of_constraints hs
  rw [State.setResult_result, toNat_zext32_byte, hP.toNat_a2w, clamp_eq_limited _ hP.angMin_le_angMax, s16]

/-- Settles O30: RESULT is the sign-extended angle of `w2a`, which fits 32 bits, and the words are of format B. -/
theorem wireByteToAngle : Obligations.WireByteToAngle := by
  refine ⟨fun b s hs => ⟨_, rfl, ?_, (exec_changesOnly (i := .w2a b) rfl).keepsBut⟩,
    encoding_of_formatB fun _ _ => rfl⟩
  have hP := conversionRanges_of_constraints hs
  obtain ⟨hlo, hhi⟩ := hP.w2a_bounds b
  have hmin := hP.angMin_ge
  have hmax := hP.angMax_le
  rw [State.setResult_result, toInt_sext32 (by omega) (by omega), w2a,
    clamp_eq_limited _ (Int.sub_nonneg.2 hP.angMin_le_angMax), u8]

/-- Settles O31: RESULT is the pulse width of `a2p`, which does not wrap, and the words are of format XH. -/
theorem angleToPulseWidth : Obligations.AngleToPulseWidth := by
  refine ⟨fun axis v s hs => ⟨_, rfl, ?_, (exec_changesOnly (i := .a2p axis v) rfl).keepsBut⟩,
    encoding_of_formatXH fun _ _ => rfl⟩
  have hP := conversionRanges_of_constraints hs
  rw [State.setResult_result, toNat_zext32_half, hP.toNat_a2p, clamp_eq_limited _ hP.angMin_le_angMax,
    roundedDiv_eq_mapQuotient, usRange, minUs_eq_axisMin, maxUs_eq_axisMax, angSpan, s16]

/-- Settles O32: RESULT is the sign-extended angle of `p2a`, which lies in ANG_MIN to ANG_MAX, and the words are of
format XH. -/
theorem pulseWidthToAngle : Obligations.PulseWidthToAngle := by
  refine ⟨fun axis v s hs => ⟨_, rfl, ?_⟩, encoding_of_formatXH fun _ _ => rfl⟩
  have hP := conversionRanges_of_constraints hs
  obtain ⟨hlo, hhi⟩ := hP.p2a_bounds axis (u16 v)
  have hmin := hP.angMin_ge
  have hmax := hP.angMax_le
  rw [State.setResult_result, toInt_sext32 (by omega) (by omega)]
  refine ⟨?_, hlo, hhi, (exec_changesOnly (i := .p2a axis v) rfl).keepsBut⟩
  rw [p2a, clamp_eq_limited _ (hP.minUs_le_maxUs axis), roundedDiv_eq_mapQuotient, usRange, minUs_eq_axisMin,
    maxUs_eq_axisMax, angSpan, u16]

/-! ### Every accepted record (R120 to R124, R8) -/

/-- Settles O36: the wire pair inverts because neither clamp cuts on the domain, both maps are non-decreasing because
clamping and rounding are, and the byte 0xFF needs a span of 255. -/
theorem conversionsAreMonotoneForEveryRecord : Obligations.ConversionsAreMonotoneForEveryRecord := by
  intro P hc
  have hP := conversionRanges_of_constraints hc
  refine ⟨fun a hlo hhi => hP.w2a_a2w hlo hhi, fun axis a b => hP.a2p_mono axis, fun axis p q => hP.p2a_mono axis,
    fun axis => ⟨hP.toNat_a2p_angMin axis, hP.toNat_a2p_angMax axis⟩, fun hspan a ha => ?_, fun hspan => ?_⟩
  · have hbyte := hP.toNat_a2w a
    obtain ⟨-, hle⟩ := hP.angleOffset_bounds a
    rw [← hbyte, ha, angSpan] at hle
    exact absurd hle (not_le.2 hspan)
  · have hbyte := hP.toNat_a2w P.angMax
    rw [clamp_of_ge le_rfl hP.angMin_le_angMax, hspan] at hbyte
    exact eq_of_natCast_toNat_eq hbyte

end Sys2Proof.Machine

/-! PROOF. The conversion family, the default calibration: the printed tables and the inverses of R129 to R131. -/

namespace Sys2Proof.Machine

open Sys2Proof.Spec

/-! ### The conversions with the default angles and calibration (R6, R129, R130) -/

section

variable {P : Params} (hdef : DefaultConversion P)
include hdef

theorem axisMin_default (axis : Axis) : axisMin P axis = match axis with | .x => 1000 | .y => 1100 := by
  obtain ⟨-, -, hx, -, hy, -⟩ := hdef
  cases axis
  · exact congrArg (fun v : Half => (v.toNat : Int)) hx
  · exact congrArg (fun v : Half => (v.toNat : Int)) hy

theorem axisMax_default (axis : Axis) : axisMax P axis = axisMin P axis + 1000 := by
  rw [axisMin_default hdef]
  obtain ⟨-, -, -, hx, -, hy⟩ := hdef
  cases axis
  · exact congrArg (fun v : Half => (v.toNat : Int)) hx
  · exact congrArg (fun v : Half => (v.toNat : Int)) hy

theorem angSpan_default : angSpan P = 80 := by
  obtain ⟨hmin, hmax, -⟩ := hdef
  rw [angSpan, hmin, hmax]
  rfl

theorem usRange_default (axis : Axis) : usRange P axis = 1000 := by
  rw [usRange, minUs_eq_axisMin, maxUs_eq_axisMax, axisMax_default hdef, add_sub_cancel_left]

theorem conversionRanges_of_default : ConversionRanges P := by
  have ⟨hmin, hmax, _⟩ := hdef
  refine ⟨?_, ?_, ?_, ?_, fun axis => ?_⟩
  · simp [angSpan_default hdef]
  · simp [angSpan_default hdef]
  · simp [hmin]
  · simp [hmax]
  · simp [usRange_default hdef]

/-- The byte of the angle `k` steps above -40. -/
theorem toNat_a2w_default {k : Nat} (hk : k ≤ 80) : (a2w P ((k : Int) - 40)).toNat = k := by
  have hbyte := (conversionRanges_of_default hdef).toNat_a2w ((k : Int) - 40)
  obtain ⟨hmin, hmax, -⟩ := hdef
  rw [hmin, hmax, clamp_of_mem (by omega) (by omega)] at hbyte
  omega

/-- The pulse width of an angle of the domain. -/
theorem toNat_a2p_default (axis : Axis) {a : Int} (hlo : -40 ≤ a) (hhi : a ≤ 40) :
    ((a2p P axis a).toNat : Int) = axisMin P axis + roundedDiv P.mapRounding ((a + 40) * 1000) 80 := by
  rw [(conversionRanges_of_default hdef).toNat_a2p, usRange_default hdef, angSpan_default hdef, minUs_eq_axisMin]
  obtain ⟨hmin, hmax, -⟩ := hdef
  rw [hmin, hmax, clamp_of_mem hlo hhi, sub_neg_eq_add]

/-- The angle of the pulse width `q` above the minimum of its axis. -/
theorem p2a_default (axis : Axis) {q : Int} (hlo : 0 ≤ q) (hhi : q ≤ 1000) :
    p2a P axis (axisMin P axis + q) = -40 + roundedDiv P.mapRounding (q * 80) 1000 := by
  rw [p2a, usRange_default hdef, angSpan_default hdef, minUs_eq_axisMin, maxUs_eq_axisMax, axisMax_default hdef,
    clamp_of_mem (by omega) (by omega), add_sub_cancel_left, hdef.1]

/-- Under floor rounding the width `k` degrees above the lowest angle is half of `25 k` above the minimum (R129). -/
theorem toNat_a2p_default_floor (hround : P.mapRounding = .floor) (axis : Axis) {k : Nat} (hk : k ≤ 80) :
    ((a2p P axis ((k : Int) - 40)).toNat : Int) = axisMin P axis + (25 * k / 2 : Nat) := by
  rw [toNat_a2p_default hdef axis (by omega) (by omega), hround, roundedDiv]
  omega

/-- Under floor rounding the angle `q` microseconds above the minimum is `2 q // 25` above the lowest (R130). -/
theorem p2a_default_floor (hround : P.mapRounding = .floor) (axis : Axis) {q : Nat} (hq : q ≤ 1000) :
    p2a P axis (axisMin P axis + q) = -40 + ((2 * q / 25 : Nat) : Int) := by
  rw [p2a_default hdef axis (by omega) (by omega), hround, roundedDiv]
  omega

end

/-! ### The table of R129 -/

/-- Row `k` of the table of R129, by its formulas. -/
def angleRow (k : Nat) : Int × Nat × Nat × Nat := ((k : Int) - 40, k, 1000 + 25 * k / 2, 1100 + 25 * k / 2)

theorem angleTable_eq_map : angleTable = (List.range 81).map angleRow := by decide

/-- Settles O33: the printed table is the list of the rows by formula, and each formula is that of its conversion. -/
theorem angleTableHolds : Obligations.AngleTableHolds := by
  intro P hdef hround
  have hP := conversionRanges_of_default hdef
  have ⟨hmin, hmax, _⟩ := hdef
  have hwidth := fun axis k hk => toNat_a2p_default_floor hdef hround axis (k := k) hk
  refine ⟨?_, fun row hrow => ?_, fun axis k hk => hwidth axis k hk, fun a ha => ?_, fun a ha => ?_⟩
  · rw [angleTable_eq_map, List.map_map]
    rfl
  · rw [angleTable_eq_map, List.mem_map] at hrow
    obtain ⟨k, hk, rfl⟩ := hrow
    have hk' : k ≤ 80 := Nat.le_of_lt_succ (List.mem_range.1 hk)
    have hx := hwidth .x k hk'
    have hy := hwidth .y k hk'
    rw [axisMin_default hdef] at hx hy
    exact ⟨toNat_a2w_default hdef hk', Int.ofNat_inj.1 hx, Int.ofNat_inj.1 hy⟩
  · rw [← hmin] at ha ⊢
    exact angle_conversions_congr (clamp_eq_clamp_lo ha.le hP.angMin_le_angMax)
  · rw [← hmax] at ha ⊢
    exact angle_conversions_congr (clamp_eq_clamp_hi ha.le hP.angMin_le_angMax)

/-! ### The table of R130 -/

/-- The first width that gives the angle `k` degrees above the lowest, on an axis whose widths begin at `m` (R130). -/
def firstWidth (m k : Nat) : Nat := m + (25 * k + 1) / 2

/-- The last width that gives it: one before the next angle's first, or the end of the range. -/
def lastWidth (m k : Nat) : Nat := min (m + 1000) (m + (25 * k + 24) / 2)

/-- Row `k` of the table of R130, by its formulas. -/
def pulseRow (k : Nat) : Int × Nat × Nat × Nat × Nat :=
  ((k : Int) - 40, firstWidth 1000 k, lastWidth 1000 k, firstWidth 1100 k, lastWidth 1100 k)

theorem pulseTable_eq_map : pulseTable = (List.range 81).map pulseRow := by decide

/-- The intervals of the 81 angles cover the range of the axis. -/
theorem exists_interval_of_width {m p : Nat} (hlo : m ≤ p) (hhi : p ≤ m + 1000) :
    ∃ k ∈ List.range 81, firstWidth m k ≤ p ∧ p ≤ lastWidth m k := by
  refine ⟨2 * (p - m) / 25, List.mem_range.2 (by omega), ?_, ?_⟩
  · rw [firstWidth]
    omega
  · rw [lastWidth]
    omega

/-- A width in the interval of an angle gives that angle. -/
theorem p2a_of_mem_interval {P : Params} (hdef : DefaultConversion P) (hround : P.mapRounding = .floor) {axis : Axis}
    {m k p : Nat} (hm : axisMin P axis = m) (hlo : firstWidth m k ≤ p) (hhi : p ≤ lastWidth m k) :
    p2a P axis p = (k : Int) - 40 := by
  rw [firstWidth] at hlo
  rw [lastWidth] at hhi
  have hangle := p2a_default_floor hdef hround axis (q := p - m) (by omega)
  rw [hm, ← Int.natCast_add, Nat.add_sub_cancel' (by omega)] at hangle
  omega

/-- Settles O34: the printed table is the list of the rows by formula, whose intervals cover the range; a width outside
is clamped to an end. -/
theorem pulseTableHolds : Obligations.PulseTableHolds := by
  intro P hdef hround
  have hP := conversionRanges_of_default hdef
  rw [pulseTable_eq_map]
  refine ⟨fun row hrow p => ?_, fun p hlo hhi => ?_, fun p hlo hhi => ?_,
    fun axis p => ⟨fun hp => ?_, fun hp => ?_⟩, fun axis q hq => p2a_default_floor hdef hround axis hq⟩
  · obtain ⟨k, -, rfl⟩ := List.mem_map.1 hrow
    exact ⟨p2a_of_mem_interval hdef hround (axisMin_default hdef .x),
      p2a_of_mem_interval hdef hround (axisMin_default hdef .y)⟩
  · obtain ⟨k, hk, hin⟩ := exists_interval_of_width hlo hhi
    exact ⟨pulseRow k, List.mem_map_of_mem hk, hin⟩
  · obtain ⟨k, hk, hin⟩ := exists_interval_of_width hlo hhi
    exact ⟨pulseRow k, List.mem_map_of_mem hk, hin⟩
  · rw [← minUs_eq_axisMin] at hp ⊢
    exact p2a_congr (clamp_eq_clamp_lo hp.le (hP.minUs_le_maxUs axis))
  · rw [← maxUs_eq_axisMax] at hp ⊢
    exact p2a_congr (clamp_eq_clamp_hi hp.le (hP.minUs_le_maxUs axis))

/-! ### The inverses of R131 -/

/-- The width of the middle angle is the middle of the axis range, under both roundings. -/
theorem toNat_a2p_zero_default {P : Params} (hdef : DefaultConversion P) (axis : Axis) :
    ((a2p P axis 0).toNat : Int) = axisMin P axis + 500 := by
  rw [toNat_a2p_default hdef axis (by decide) (by decide)]
  cases P.mapRounding <;> rfl

/-- The angle that comes back from the width of the angle `a`: the even one at or below it under floor, itself under
nearest. -/
def returnedAngle : MapRounding → Int → Int
  | .floor, a => if a % 2 = 0 then a else a - 1
  | .nearest, a => a

theorem p2a_a2p_default {P : Params} (hdef : DefaultConversion P) (axis : Axis) {a : Int} (hlo : -40 ≤ a)
    (hhi : a ≤ 40) :
    p2a P axis (a2p P axis a).toNat = returnedAngle P.mapRounding a := by
  obtain ⟨hq0, hq1⟩ := roundedDiv_bounds P.mapRounding (k := a + 40) (r := 1000) (d := 80) (by decide) (by decide)
    (by omega) (by omega)
  rw [toNat_a2p_default hdef axis hlo hhi, p2a_default hdef axis hq0 hq1]
  cases P.mapRounding with
  | floor =>
    simp only [roundedDiv, returnedAngle]
    split_ifs <;> omega
  | nearest =>
    simp only [roundedDiv, returnedAngle]
    omega

/-- Settles O35: the wire pair inverts on its domain, the end points and the middle are exact under both roundings, and
the odd angles lose one degree under floor alone. -/
theorem conversionsInvertAsStated : Obligations.ConversionsInvertAsStated := by
  intro P hdef
  have hP := conversionRanges_of_default hdef
  have ⟨hmin, hmax, _⟩ := hdef
  have hback := fun axis a hlo hhi => p2a_a2p_default hdef axis (a := a) hlo hhi
  have hlow := hP.toNat_a2p_angMin
  have hhigh := hP.toNat_a2p_angMax
  have hmid := toNat_a2p_zero_default hdef
  have hbyte := hP.toNat_a2w_w2a
  simp only [hmin, hmax, axisMax_default hdef, axisMin_default hdef, angSpan_default hdef] at hlow hhigh hmid hbyte
  refine ⟨fun a hlo hhi => hP.w2a_a2w (hmin.trans_le hlo) (hhi.trans_eq hmax.symm), fun b hb => ?_,
    fun b hb => ⟨?_, ?_⟩,
    eq_of_natCast_toNat_eq (hlow .x), eq_of_natCast_toNat_eq (hmid .x), eq_of_natCast_toNat_eq (hhigh .x),
    eq_of_natCast_toNat_eq (hlow .y), eq_of_natCast_toNat_eq (hmid .y), eq_of_natCast_toNat_eq (hhigh .y),
    fun axis => ?_, fun hround axis a hlo hhi => ?_, fun hround axis a hlo hhi => ?_, fun axis a b => hP.a2p_mono axis,
    fun axis p q => hP.p2a_mono axis⟩
  · have hin := hbyte b
    rw [clamp_of_mem (by omega) (by omega)] at hin
    exact eq_of_natCast_toNat_eq hin
  · rw [w2a, hmin, hmax, clamp_of_ge (by rw [u8]; omega) (by decide)]
    rfl
  · have hover := hbyte b
    rw [clamp_of_ge (by omega) (by decide)] at hover
    exact eq_of_natCast_toNat_eq hover
  · rw [hback axis (-40) (by decide) (by decide), hback axis 0 (by decide) (by decide),
      hback axis 40 (by decide) (by decide)]
    cases P.mapRounding <;> decide
  · rw [hback axis a hlo hhi, hround, returnedAngle]
  · rw [hback axis a hlo hhi, hround, returnedAngle]

end Sys2Proof.Machine

/-! PROOF. The exceptions family, illegal commands: a command is a check of its operands and then its effect, the words
of R142 are those that name no legal command, and what sets and clears ILL (60_exceptions.md R142, R143). -/

namespace Sys2Proof.Machine

open Sys2Proof.Spec

/-! ### The operand checks of the commands are those of `Instr.wf` (R84 to R89, R142) -/

theorem selectorValid_eq_isSome (bank : Bank) (id : BitVec 4) :
    selectorValid bank id = (selectField bank id).isSome := by
  cases bank <;> revert id <;> decide

/-- The one read-only field is NOCHG (R28). -/
theorem selectorReadOnly_of_selectField {bank : Bank} {id : BitVec 4} :
    ∀ f ∈ selectField bank id, selectorReadOnly bank id = decide (f = .nochg) := by
  cases bank <;> revert id <;> decide

/-- Beside NOCHG, the fields that are not 16 bits wide are 8 bits wide (R28, R30). -/
theorem selectorWide_of_selectField {bank : Bank} {id : BitVec 4} :
    ∀ f ∈ selectField bank id, f ≠ .nochg → selectorWide bank id = decide (f.width ≠ 8) := by
  cases bank <;> revert id <;> decide

/-- A write to a named field is well-formed exactly when the field accepts the value (R88). -/
theorem wf_fldWr_of_selectField {bank : Bank} {id : BitVec 4} {f : Field} (hf : selectField bank id = some f)
    (P : Params) (v : Half) : Instr.wf P (.fldWr bank id v) = fieldAccepts f v := by
  rw [Instr.wf, selectorValid_eq_isSome, hf, selectorReadOnly_of_selectField f hf]
  by_cases hn : f = .nochg
  · simp [hn, fieldAccepts]
  · rw [selectorWide_of_selectField f hf hn, Bool.eq_iff_iff, fieldAccepts_iff hn]
    simp [hn, imp_iff_not_or]

theorem wf_fldWr_of_selectField_eq_none {bank : Bank} {id : BitVec 4} (hf : selectField bank id = none) (P : Params)
    (v : Half) : Instr.wf P (.fldWr bank id v) = false := by
  simp [Instr.wf, selectorValid_eq_isSome, hf]

/-! ### Legality first, then the effect (R143) -/

/-- STAT_CLR leaves ILL at 0 (R91). -/
@[simp] theorem statusIll_statusClearIll (st : Byte) : statusIll (statusClearIll st) = false :=
  (statusClearIll_bit st 6 (by omega)).trans (by simp)

/-- A decode leaves ILL as it was (R104, R105). -/
theorem Decodes.statusIll_eq {β : Type} {h : Byte} {bank : State → β} {unpack : Params → Memory → β → β} {s t : State}
    (hd : Decodes h bank unpack s t) : statusIll t.status = statusIll s.status := by
  obtain ⟨-, -, -, -, -, hill, -⟩ := checkedStatus_fields s (frameCheck h s)
  rw [hd.status, hill]

/-- What the effect of a legal command leaves in ILL: STAT_CLR clears it, every other command keeps it (R91, R142). -/
def IllAfter (i : Instr) (s e : State) : Prop :=
  statusIll e.status = (statusIll s.status && decide (i ≠ .statClr))

/-- A command that is not STAT_CLR and keeps ILL. -/
theorem illAfter_of_keeps {i : Instr} {s e : State} (hi : i ≠ .statClr)
    (he : statusIll e.status = statusIll s.status) : IllAfter i s e := by
  simp [IllAfter, hi, he]

/-- Every command first checks its operands, which pass exactly when they are well-formed, and then has its effect; the
effect itself never sets ILL. Every command but the five split off here keeps STATUS in its effect by definition. -/
theorem exec_eq_whenLegal (i : Instr) (s : State) :
    ∃ e, exec i s = whenLegal (i.wf s.params) s e ∧ IllAfter i s e := by
  cases i with
  | fldWr bank id v =>
    cases hf : selectField bank id with
    | none =>
      rw [exec_fldWr_of_selectField_eq_none hf, wf_fldWr_of_selectField_eq_none hf]
      exact ⟨s, rfl, illAfter_of_keeps nofun rfl⟩
    | some f =>
      rw [exec_fldWr_of_selectField hf, wf_fldWr_of_selectField hf]
      exact ⟨_, rfl, illAfter_of_keeps nofun (congrArg statusIll (writeField_status ..))⟩
  | fldRd bank id =>
    rw [Instr.wf, selectorValid_eq_isSome]
    cases hf : selectField bank id with
    | none => exact ⟨s, exec_fldRd_of_selectField_eq_none hf s, illAfter_of_keeps nofun rfl⟩
    | some f => exact ⟨_, exec_fldRd_of_selectField hf s, illAfter_of_keeps nofun rfl⟩
  | statClr => exact ⟨_, rfl, by simp [IllAfter]⟩
  | decCmd =>
    obtain ⟨t, ht, hd, -⟩ := exec_decCmd_decodes s
    exact ⟨t, ht, illAfter_of_keeps nofun hd.statusIll_eq⟩
  | decTlm =>
    obtain ⟨t, ht, hd, -⟩ := exec_decTlm_decodes s
    exact ⟨t, ht, illAfter_of_keeps nofun hd.statusIll_eq⟩
  | _ => exact ⟨_, rfl, illAfter_of_keeps nofun rfl⟩

/-- A command with an operand out of range is illegal. -/
theorem exec_of_wf_eq_false {i : Instr} {s : State} (hwf : i.wf s.params = false) : exec i s = raiseIll s := by
  obtain ⟨e, he, -⟩ := exec_eq_whenLegal i s
  rw [he, hwf, whenLegal_false]

/-- A command with legal operands completes, and of ILL it does no more than STAT_CLR clears. -/
theorem exec_of_wf {i : Instr} {s : State} (hwf : i.wf s.params = true) :
    ∃ t, exec i s = .next t ∧ IllAfter i s t := by
  obtain ⟨e, he, hill⟩ := exec_eq_whenLegal i s
  rw [he, hwf, whenLegal_true]
  exact ⟨e, rfl, hill⟩

/-- Settles O46: operands that are not well-formed fail the command's check, before any effect. -/
theorem illFormedOperandsSetIll : Obligations.IllFormedOperandsSetIll :=
  fun _ _ hwf => exists_illegalEffect (exec_of_wf_eq_false hwf)

/-- Only STAT_CLR takes ILL from 1 to 0, among the commands. -/
theorem eq_statClr_of_exec {i : Instr} {s t : State} (h : exec i s = .next t) (hs : statusIll s.status = true)
    (ht : statusIll t.status = false) : i = .statClr := by
  obtain ⟨e, he, hill⟩ := exec_eq_whenLegal i s
  rcases (whenLegal_eq_next _ _ _ _).1 (he.symm.trans h) with ⟨-, rfl⟩ | ⟨-, rfl⟩
  · simpa [IllAfter, hs, ht] using hill
  · simp at ht

/-! ### Legal and illegal words (R43, R44, R142) -/

/-- A word that decodes to no command matches no row of the opcode table, so it is illegal under every record. -/
theorem illegalFor_of_decode {w : Word} {why : IllegalWord} (hw : decode w = .illegal why) (P : Params) :
    IllegalFor P w := by
  refine .inl fun r hr hm => ?_
  obtain ⟨j, hj, -⟩ := decoderAgreesWithTheOpcodeTable.2 w r hr hm
  rw [hw] at hj
  cases hj

/-- The illegality of a word that decodes is that of its operands. -/
theorem illegalFor_iff_of_decode {w : Word} {i : Instr} (hw : decode w = .command i) (P : Params) :
    IllegalFor P w ↔ i.wf P = false := by
  rw [← decode_eq_command_iff.1 hw, illegalFor_encode_iff]

/-- A word of R142 raises ILL, for what it is or for its operands. -/
theorem runWord_of_illegalFor {w : Word} {s : State} (h : IllegalFor s.params w) : runWord w s = raiseIll s := by
  cases hw : decode w with
  | command i => rw [runWord_of_command hw, exec_of_wf_eq_false ((illegalFor_iff_of_decode hw _).1 h)]
  | illegal why => exact runWord_of_illegal hw s

/-- A word that R142 does not list names a command with legal operands. -/
theorem exists_command_of_not_illegalFor {w : Word} {P : Params} (h : ¬ IllegalFor P w) :
    ∃ i, decode w = .command i ∧ i.wf P = true := by
  cases hw : decode w with
  | command i => exact ⟨i, rfl, eq_true_of_ne_false fun hwf => h ((illegalFor_iff_of_decode hw P).2 hwf)⟩
  | illegal why => exact absurd (illegalFor_of_decode hw P) h

/-- Commands are told apart by their words. -/
theorem eq_iff_word_eq {w : Word} {i : Instr} (hw : decode w = .command i) (j : Instr) : i = j ↔ w = encode j := by
  rw [eq_comm (a := w), ← decode_eq_command_iff, hw, Decoded.command.injEq]

theorem encode_statClr : encode .statClr = 0x1B000000 := by decide

/-! ### What a port sample does to ILL -/

/-- Only a reset and the word of STAT_CLR take ILL from 1 to 0. -/
theorem runSample_clears_ill {p : PortSample} {s t : State} (h : runSample p s = .next t)
    (hs : statusIll s.status = true) (ht : statusIll t.status = false) :
    p.rst = true ∨ (p.cmdValid = true ∧ p.cmd = 0x1B000000) := by
  rcases runSample_cases h with ⟨hrst, -⟩ | ⟨-, hvalid, i, hi, hexec⟩ | ⟨-, -, -, rfl⟩ | ⟨-, -, rfl⟩
  · exact .inl hrst
  · have hclr := eq_statClr_of_exec hexec hs ht
    exact .inr ⟨hvalid, ((eq_iff_word_eq hi _).1 hclr).trans encode_statClr⟩
  · simp at ht
  · simp [hs] at ht

/-- Settles O45: an illegal word raises ILL, every other word is a command with legal operands, whose effect sets no
ILL, and the sample that clears ILL is a reset or STAT_CLR. -/
theorem illegalCommandsSetIllAndNothingElse : Obligations.IllegalCommandsSetIllAndNothingElse := by
  refine ⟨fun s w hs hw => ?_, fun s w hs hw => ?_, fun s t h hill hclear => ?_⟩
  · exact ⟨_, (step_withSample hs _).trans (runWord_of_illegalFor hw), illegalEffect_setIll s⟩
  · obtain ⟨i, hi, hwf⟩ := exists_command_of_not_illegalFor hw
    obtain ⟨t, ht, hill⟩ := exec_of_wf hwf
    simp only [IllAfter, Ne, eq_iff_word_eq hi, encode_statClr] at hill
    exact ⟨i, t, hi, hwf, (stepRunsTheDecodedCommand s w i hs hi).trans ht, ht, hill⟩
  · obtain ⟨-, ⟨-, rfl⟩ | ⟨p, rest, hin, hrun⟩⟩ := step_cases h
    · simp [hill] at hclear
    · exact ⟨p, rest, hin, runSample_clears_ill hrun hill hclear⟩

end Sys2Proof.Machine

/-! PROOF. The exceptions family, the decode outcome: which port samples change STATUS bits 5:0 (60_exceptions.md R141,
41_buffer.md R91). -/

namespace Sys2Proof.Machine

/-! ### STATUS bits 5:0 -/

/-- The decode outcome says nothing of bits 7:6: it is as before when every bit but bit 6 is. -/
theorem outcome_eq_of_agree {st st' : Byte} (e : ∀ k, k < 8 → k ≠ 6 → st'.getLsbD k = st.getLsbD k) :
    st'.extractLsb' 0 6 = st.extractLsb' 0 6 := by
  apply BitVec.eq_of_getLsbD_eq
  intro k hk
  simpa [hk] using e k (by omega) hk.ne

theorem outcome_statusSetIll (st : Byte) : (statusSetIll st).extractLsb' 0 6 = st.extractLsb' 0 6 :=
  outcome_eq_of_agree fun k hk h6 => by simp [statusSetIll_bit st k hk, h6]

theorem outcome_statusClearIll (st : Byte) : (statusClearIll st).extractLsb' 0 6 = st.extractLsb' 0 6 :=
  outcome_eq_of_agree fun k hk h6 => by simp [statusClearIll_bit st k hk, h6]

/-- A command that changes the decode outcome is a decode. -/
theorem decode_of_exec_changes_outcome {i : Instr} {s t : State} (h : exec i s = .next t)
    (hne : t.status.extractLsb' 0 6 ≠ s.status.extractLsb' 0 6) : i = .decCmd ∨ i = .decTlm := by
  rcases exec_status_cases h with e | e | ⟨-, e⟩ | ⟨hi, -⟩
  · exact absurd (e ▸ rfl) hne
  · exact absurd (e ▸ outcome_statusSetIll _) hne
  · exact absurd (e ▸ outcome_statusClearIll _) hne
  · exact hi

theorem encode_decCmd : encode .decCmd = 0x22000000 := by decide

theorem encode_decTlm : encode .decTlm = 0x23000000 := by decide

/-- A port sample that changes the decode outcome is a reset or presents the word of a decode. -/
theorem runSample_changes_outcome {p : PortSample} {s t : State} (h : runSample p s = .next t)
    (hne : t.status.extractLsb' 0 6 ≠ s.status.extractLsb' 0 6) :
    p.rst = true ∨ (p.cmdValid = true ∧ (p.cmd = 0x22000000 ∨ p.cmd = 0x23000000)) := by
  rcases runSample_cases h with ⟨hrst, -⟩ | ⟨-, hvalid, i, hi, hexec⟩ | ⟨-, -, -, rfl⟩ | ⟨-, -, rfl⟩
  · exact .inl hrst
  · have hdec := decode_of_exec_changes_outcome hexec hne
    rw [eq_iff_word_eq hi, eq_iff_word_eq hi, encode_decCmd, encode_decTlm] at hdec
    exact .inr ⟨hvalid, hdec⟩
  · exact absurd (outcome_statusSetIll _) hne
  · exact absurd rfl hne

/-- Settles O54: a step that changes anything has run one port sample, and setting or clearing ILL leaves bits 5:0. -/
theorem onlyDecodesAndResetWriteDecodeOutcomes : Obligations.OnlyDecodesAndResetWriteDecodeOutcomes := by
  intro s t h hne
  obtain ⟨-, ⟨-, rfl⟩ | ⟨p, rest, hin, hrun⟩⟩ := step_cases h
  · exact absurd rfl hne
  · exact ⟨p, rest, hin, runSample_changes_outcome hrun hne⟩

end Sys2Proof.Machine

/-! PROOF. The reset and hazards family: a failed decode keeps FB, LEN and both banks, every step under an accepted record
completes, and reset (70_reset_and_hazards.md R160, R161, R171, R172). -/

namespace Sys2Proof.Machine

open Sys2Proof.Spec

/-! ### A failed decode (R104, R105, R172) -/

section

variable {β : Type} {h : Byte} {bank : State → β} {unpack : Params → Memory → β → β} {s t : State}

/-- STATUS.DVALID after a decode is 1 exactly when every check passes. -/
theorem Decodes.statusDvalid_iff (hd : Decodes h bank unpack s t) :
    statusDvalid t.status = true ↔ ChecksPass h s := by
  obtain ⟨-, -, -, -, hval, -⟩ := checkedStatus_fields s (frameCheck h s)
  rw [hd.status, hval, beq_iff_eq, frameCheck_err_eq_none_iff]

theorem Decodes.statusDvalid_iff_statusErr (hd : Decodes h bank unpack s t) :
    statusDvalid t.status = true ↔ statusErr t.status = DecodeErr.none.code :=
  hd.statusDvalid_iff.trans hd.statusErr_eq_none_iff.symm

/-- A decode that leaves DVALID at 0 has not loaded its bank. -/
theorem Decodes.bank_eq_of_not_dvalid (hd : Decodes h bank unpack s t) (hv : statusDvalid t.status = false) :
    bank t = bank s :=
  hd.keeps fun hpass => by simp [hd.statusDvalid_iff.2 hpass] at hv

end

/-- Settles O56: no decode names FB, LEN or the other bank among the registers it writes, and its own bank is loaded only
when every check passes, which is what both DVALID and ERR record. -/
theorem failedDecodeKeepsFrameAndBanks : Obligations.FailedDecodeKeepsFrameAndBanks := by
  rintro s d (rfl | rfl)
  · obtain ⟨t, ht, hd, -⟩ := exec_decCmd_decodes s
    have hc := exec_changesOnly ht
    exact ⟨t, ht, hc.fb (by simp [writesOf]), hc.len (by simp [writesOf]),
      fun hv => ⟨hd.bank_eq_of_not_dvalid hv, hc.tf (by simp [writesOf])⟩, hd.statusDvalid_iff_statusErr⟩
  · obtain ⟨t, ht, hd, -⟩ := exec_decTlm_decodes s
    have hc := exec_changesOnly ht
    exact ⟨t, ht, hc.fb (by simp [writesOf]), hc.len (by simp [writesOf]),
      fun hv => ⟨hc.cf (by simp [writesOf]), hd.bank_eq_of_not_dvalid hv⟩, hd.statusDvalid_iff_statusErr⟩

/-! ### Every step completes (R8, R171) -/

/-- A command completes whether its operand check passes or not (R140, R142). -/
theorem exec_completes (i : Instr) (s : State) : ∃ t, exec i s = .next t := by
  cases hwf : i.wf s.params with
  | false => exact ⟨_, exec_of_wf_eq_false hwf⟩
  | true =>
    obtain ⟨t, ht, -⟩ := exec_of_wf hwf
    exact ⟨t, ht⟩

theorem runWord_completes (w : Word) (s : State) : ∃ t, runWord w s = .next t := by
  cases hw : decode w with
  | command i => exact runWord_of_command hw s ▸ exec_completes i s
  | illegal why => exact ⟨_, runWord_of_illegal hw s⟩

/-- A port sample completes: a reset, a presented word, or nothing. -/
theorem runSample_completes (p : PortSample) (s : State) : ∃ t, runSample p s = .next t := by
  unfold runSample
  split_ifs
  · exact ⟨_, rfl⟩
  · exact runWord_completes p.cmd s
  · exact ⟨_, rfl⟩

/-- A port sample keeps the record and the samples after it (R161, log entry 12). -/
theorem runSample_keeps_params_inputs {p : PortSample} {s t : State} (h : runSample p s = .next t) :
    t.params = s.params ∧ t.inputs = s.inputs := by
  rcases runSample_cases h with ⟨-, rfl⟩ | ⟨-, -, i, -, hexec⟩ | ⟨-, -, -, rfl⟩ | ⟨-, -, rfl⟩
  · exact ⟨rfl, rfl⟩
  · have hc := exec_changesOnly hexec
    exact ⟨hc.params, hc.inputs⟩
  · exact ⟨rfl, rfl⟩
  · exact ⟨rfl, rfl⟩

/-- A record that breaks R8 is refused before a sample is taken. -/
theorem step_of_rejected {s : State} (h : s.params.constraints = false) : step s = .refused .parametersRejected :=
  if_neg (by simp [h])

/-- Under an accepted record a step completes, keeps the record and takes the sample in front (R171). -/
theorem step_completes {s : State} (hs : Accepted s) :
    ∃ t, step s = .next t ∧ t.params = s.params ∧ t.inputs = s.inputs.tail := by
  rw [step_of_accepted hs]
  cases hin : s.inputs with
  | nil => exact ⟨s, takeSample_nil hin, rfl, hin⟩
  | cons p rest =>
    obtain ⟨t, ht⟩ := runSample_completes p (s.setInputs rest)
    exact ⟨t, (takeSample_cons hin).trans ht, runSample_keeps_params_inputs ht⟩

/-- Settles O49: a step under an accepted record stands still or runs one port sample, and every port sample completes;
the record is looked at first; the widths of log entry 6 are powers of two. -/
theorem everyStepCompletesUnderAnAcceptedRecord : Obligations.EveryStepCompletesUnderAnAcceptedRecord := by
  refine ⟨fun _ => step_completes, fun _ => step_of_rejected, fun P => ?_⟩
  have hframe : P.frameLen < 2 ^ 8 ↔ P.frameLen ≤ 255 := by omega
  have hmax : P.angMax < 2 ^ 15 ↔ P.angMax ≤ 32767 := by omega
  rw [hframe, hmax]
  exact constraints_iff P

/-! ### Reset (R160, R161) -/

@[simp] theorem CmdBank.read_zero (k : CmdField) : CmdBank.zero.read k = 0 := by cases k <;> rfl

@[simp] theorem TlmBank.read_zero (k : TlmField) : TlmBank.zero.read k = 0 := by cases k <;> rfl

/-- NOCHG of the zeroed bank is 0 when no sentinel is 0 (R29, R160; log entry 20). -/
theorem noChange_zero {P : Params} (h8 : P.sentinel8 ≠ 0) (h16 : P.sentinel16 ≠ 0) : noChange P CmdBank.zero = 0 := by
  have e8 : ((0 : Byte) == P.sentinel8) = false := beq_eq_false_iff_ne.2 h8.symm
  have e16 : ((0 : Half) == P.sentinel16) = false := beq_eq_false_iff_ne.2 h16.symm
  simp only [noChange, CmdBank.zero, e8, e16]
  decide

/-- A sample with `rst` asserted resets the block, whatever stands on the command port (R161). -/
theorem step_withSample_rst {s : State} (hs : Accepted s) (v : Bool) (w : Word) :
    step (withSample s ⟨true, v, w⟩) = .next (resetBlock s) :=
  step_withSample hs _

/-- Under the default record a reset gives the reset state, but for the samples to come. -/
theorem resetBlock_of_default {s : State} (h : s.params = Config.defaultParams) :
    { resetBlock s with inputs := [] } = State.reset := by
  simp [resetBlock, State.reset, h]

/-- Settles O47: the step resets the block, in which every register reads its reset value. -/
theorem resetCancelsAndClears : Obligations.ResetCancelsAndClears := fun s v w hs =>
  ⟨resetBlock s, step_withSample_rst hs v w, Memory.read_nil, rfl, rfl, rfl, rfl, CmdBank.read_zero, TlmBank.read_zero,
    rfl, noChange_zero, resetBlock_of_default⟩

end Sys2Proof.Machine
